-- ==== Sys2Proof/Word.lean ====
section
/-! DEFINITION. The word types of the AEAD cipher engine: bytes, 32-bit words, bus addresses, and the three fixed-length byte
strings of spec rule R110. -/

namespace Sys2Proof

/-- `Byte` is 8 bits (R8). -/
abbrev Byte := BitVec 8

/-- `Word` is 32 bits (R8), the width of every register and of every bus access (R21, R64). -/
abbrev Word := BitVec 32

/-- A byte address on the engine's bus port: an 18-bit offset from the window base (R5, R60). -/
abbrev Addr := BitVec 18

/-- `Key` = 32 bytes (R3, R110). -/
abbrev Key := Vector Byte 32

/-- `Nonce` = 12 bytes (R3, R110). -/
abbrev Nonce := Vector Byte 12

/-- `Tag` = 16 bytes (R3, R110). -/
abbrev Tag := Vector Byte 16

end Sys2Proof
end

