-- ==== Sys2Proof/Syntax.lean ====
section
/-! DEFINITION. The commands of the engine: one constructor per row of spec/opcode_table.json (R92). -/

namespace Sys2Proof

/-- A legal command (R92). A command word carries no immediate, register number, length or address: every operand is implicit
(R91), so no constructor has an argument. A word that is no legal command is no `Instr`: the decoder rejects it by name (R100). -/
inductive Instr
  /-- NOP, 0x00000000 (R180). -/
  | nop
  /-- ENCRYPT, 0x00000001 (R130). -/
  | encrypt
  /-- DECRYPT, 0x00000002 (R150). -/
  | decrypt
  /-- ZEROIZE, 0x00000003 (R181). -/
  | zeroize
deriving DecidableEq, Repr

end Sys2Proof
end

