-- ==== Sys2Proof/WellFormed.lean ====
section
/-! DEFINITION. Well-formedness: of a command (R91) and of the word that encodes one (R90, R92). -/

namespace Sys2Proof

/-- Every command is well formed: it has no operand field that could hold a bad value (R91). -/
def Instr.wf : Instr → Bool
  | .nop => true
  | .encrypt => true
  | .decrypt => true
  | .zeroize => true

/-- RSVD, bits [31:4] of a command word, must be zero (R90). -/
def CommandWord.rsvdZero (w : Word) : Bool := w.extractLsb' 4 28 == 0#28

/-- OP, bits [3:0] of a command word, must be one of the four operation codes 0x0 to 0x3 (R92, R93). -/
def CommandWord.opLegal (w : Word) : Bool := decide ((w.extractLsb' 0 4).toNat ≤ 3)

/-- A command word is legal when it passes both checks (R92); every other word is an illegal command (R93). -/
def CommandWord.wf (w : Word) : Bool := CommandWord.rsvdZero w && CommandWord.opLegal w

end Sys2Proof
end

