-- ==== Sys2Proof/Decode.lean ====
section
/-! DEFINITION. The decoder, total on any word and on any bytes, rejecting by name (R100); and the encoder, written from the same
table (R92). -/

namespace Sys2Proof

/-- Why the decoder rejects. -/
inductive Reject
  /-- `ILLEGAL(w)` (R93, R100): a word that is none of the four legal command words. Safe: the machine gives it the effect of R183. -/
  | illegalCommand (w : Word)
  /-- Fewer than the four bytes of a command word (R90). Safe: the engine is never given one, since every bus access is a word (R64). -/
  | truncated
deriving DecidableEq, Repr

/-- OP, bits [3:0] of a command word (R90). -/
def opField (w : Word) : BitVec 4 := w.extractLsb' 0 4

/-- RSVD, bits [31:4] of a command word (R90). -/
def rsvdField (w : Word) : BitVec 28 := w.extractLsb' 4 28

/-- One row of spec/opcode_table.json: the word ANDed with `mask` equals `pattern`. -/
structure OpcodeRow where
  mnemonic : String
  instr    : Instr
  mask     : Word
  pattern  : Word
deriving DecidableEq, Repr

/-- spec/opcode_table.json (R92): each legal word is matched exactly, with mask 0xFFFFFFFF. -/
def opcodeTable : List OpcodeRow := [
  ⟨"NOP", .nop, 0xFFFFFFFF#32, 0x00000000#32⟩,
  ⟨"ENCRYPT", .encrypt, 0xFFFFFFFF#32, 0x00000001#32⟩,
  ⟨"DECRYPT", .decrypt, 0xFFFFFFFF#32, 0x00000002#32⟩,
  ⟨"ZEROIZE", .zeroize, 0xFFFFFFFF#32, 0x00000003#32⟩]

/-- `decode(w)` (R100): the row that matches the word, or its rejection by name. -/
def decodeWord (w : Word) : Except Reject Instr :=
  match opcodeTable.find? (fun row => w &&& row.mask == row.pattern) with
  | some row => .ok row.instr
  | none => .error (.illegalCommand w)

/-- The word of four bytes, least significant byte first: `b3<<24 | b2<<16 | b1<<8 | b0` (R8, R66). -/
def wordOfBytes (b0 b1 b2 b3 : Byte) : Word :=
  b3.setWidth 32 <<< 24 ||| b2.setWidth 32 <<< 16 ||| b1.setWidth 32 <<< 8 ||| b0.setWidth 32

/-- The four bytes of a word, least significant byte first (R66). -/
def bytesOfWord (w : Word) : List Byte :=
  [w.extractLsb' 0 8, w.extractLsb' 8 8, w.extractLsb' 16 8, w.extractLsb' 24 8]

/-- Decoding a byte sequence: one command word and the bytes after it. The length of a command is always one word (R90). -/
def decodeBytes : List Byte → Except Reject (Instr × List Byte)
  | b0 :: b1 :: b2 :: b3 :: rest => (decodeWord (wordOfBytes b0 b1 b2 b3)).map fun i => (i, rest)
  | _ => .error .truncated

/-- The command word of a command (R92). -/
def encode : Instr → Word
  | .nop => 0x00000000#32
  | .encrypt => 0x00000001#32
  | .decrypt => 0x00000002#32
  | .zeroize => 0x00000003#32

/-- The bytes of a command's word, in the order of R66. -/
def encodeBytes (i : Instr) : List Byte := bytesOfWord (encode i)

/-- The command word that the host's numbering `(nbits, w)` stands for: the low `nbits` bits of `w`, every bit above them zero. -/
def tableWord (nbits w : Nat) : Word := BitVec.ofNat 32 (w % 2 ^ nbits)

/-- The instruction the decoder reads from an instruction whose bits are `w`, numbered as spec/opcode_table.json numbers them. -/
def decodeTableWord (nbits w : Nat) : Option Instr :=
  match decodeBytes (bytesOfWord (tableWord nbits w)) with
  | .ok (i, _) => some i
  | .error _ => none

end Sys2Proof
end

