-- ==== Sys2Proof/Config.lean ====
section
/-! DEFINITION. What is fixed for the machine and what the spec leaves open: the implementation parameters of R5. The cipher's
functions and `CORE_MAX_PT` are opaque constants without a body, so no proof can rest on a value of them. -/

namespace Sys2Proof

/-- The verdict of one `draw CoreInit()` (R116). -/
inductive Verdict
  /-- The core is ready. -/
  | ok
  /-- The core's setup failed: CIPHER_INIT_ERROR. -/
  | fail
deriving DecidableEq, Repr

/-- The cipher dependency (R110-R113, R118). For one key, nonce and length the core's encryption is a permutation of the byte
strings of that length, and decryption is its inverse. DEDUCED (log entry 1): this is the length laws of R111 and R112 and the
inverse law of R112, no more, for every length up to `CORE_MAX_PT`. -/
structure CipherCore where
  /-- `Enc(k, n, -)` on plaintexts of `len` bytes; its inverse is `Dec(k, n, -)`. -/
  cipher : Key → Nonce → (len : Nat) → Equiv.Perm (Vector Byte len)
  /-- `TagOf(k, n, A, C)`: the tag over associated data `A` and ciphertext body `C`. No law beyond its type (R113). -/
  tagOf : Key → Nonce → List Byte → List Byte → Tag

/-- The parameters of R5 that the meanings take as an argument. `BUF_BYTES` is not among them: the machine holds it where software
reads it, in the BUF_SIZE register (log entry 3). -/
structure Params where
  /-- The cipher core's functions `Enc`, `Dec` and `TagOf`. -/
  core : CipherCore
  /-- `CORE_MAX_PT`: the largest plaintext in bytes the core accepts (R119). -/
  coreMaxPt : Nat
  /-- The optional `initVerdict : Key -> {ok, fail}` that replaces the free CoreInit draw (R5, R116). -/
  initVerdict : Option (Key → Verdict)

namespace Config

/-- `KEY_BYTES` (R3, R5). -/
def keyBytes : Nat := 32

/-- `NONCE_BYTES` (R3, R5). -/
def nonceBytes : Nat := 12

/-- `TAG_BYTES` (R3, R5). -/
def tagBytes : Nat := 16

/-- The default of the parameter `BUF_BYTES` (R5, D6). -/
def defaultBufBytes : Nat := 4096

/-- The constraint on the parameter `BUF_BYTES` (R5): a multiple of 4 with 16 <= BUF_BYTES <= 65520. -/
def bufBytesLegal (b : Nat) : Bool := b % 4 == 0 && decide (16 ≤ b) && decide (b ≤ 65520)

/-- `ID_VALUE` (R5, R22). -/
def idValue : Word := 0xAEAD0001#32

/-- `Enc` and `Dec` of the chip's cipher core: OPEN (R5, I1). A free value (log entry 1). -/
opaque cipher (k : Key) (n : Nonce) (len : Nat) : Equiv.Perm (Vector Byte len)

/-- `TagOf` of the chip's cipher core: OPEN (R5, I1). A free value (log entry 1). -/
opaque tagOf (k : Key) (n : Nonce) (ad body : List Byte) : Tag

/-- `CORE_MAX_PT - 1` of the chip's cipher core: OPEN, "any positive byte count" (I6). A free value (log entry 2). -/
opaque coreMaxPtPred : Nat

/-- `CORE_MAX_PT`: positive and otherwise open (R119, I6). -/
def coreMaxPt : Nat := coreMaxPtPred + 1

/-- The chip's parameters. `initVerdict` is absent, the spec's default, so the CoreInit draw is free (R5, R116). -/
def params : Params where
  core := { cipher := cipher, tagOf := tagOf }
  coreMaxPt := coreMaxPt
  initVerdict := none

end Config

end Sys2Proof
end

