-- ==== Sys2Proof/Machine/State.lean ====
section
/-! DEFINITION. The engine's state as plain data (10_state.md), its state right after reset (R46), and the reasons a step may stop. -/

namespace Sys2Proof.Machine

/-- The commands that take Engine steps: `op` of `PENDING(op)` (R40). -/
inductive Op
  | encrypt
  | decrypt
  | zeroize
deriving DecidableEq, Repr

/-- The hidden Engine phase (R40), which plays the part of a program counter (R48). -/
inductive Phase
  /-- No command is in progress. -/
  | idle
  /-- A command is accepted; its first Engine step is next. -/
  | pending (op : Op)
  /-- ENCRYPT has passed its checks and waits for the Entropy source. -/
  | waitRng
deriving DecidableEq, Repr

/-- The error codes of R190. Codes 7 to 15 are reserved and have no name. -/
inductive ErrCode
  | none
  | invalidKeyLength
  | invalidNonceLength
  | authenticationFailure
  | cipherInitError
  | lengthError
  | illegalCommand
deriving DecidableEq, Repr

/-- The size a bus access carries (R64). Only `word` is served. -/
inductive Size
  | byte
  | half
  | word
  /-- Any access wider than a word. -/
  | wider
deriving DecidableEq, Repr

/-- One bus transaction of the Host (R68, R69): the address is an offset in the window. -/
inductive Access
  | read (size : Size) (addr : Addr)
  | write (size : Size) (addr : Addr) (data : Word)
deriving DecidableEq, Repr

/-- What the Host gets back for one transaction. -/
inductive Response
  /-- OKAY, with the data of a read (R68). -/
  | okayRead (data : Word)
  /-- OKAY for a write (R69). -/
  | okayWrite
  /-- SLVERR (R70): the access failed and had no effect. -/
  | slverr
  /-- The address is at or above 0x30000: the engine does not decode it and gives no response (R63). -/
  | notDecoded
deriving DecidableEq, Repr

/-- One operation of a host program (R97). A comment `; text` is none. -/
inductive HostOp
  /-- `WR off, val`: a word write, expecting OKAY. -/
  | wr (off : Addr) (val : Word)
  /-- `WRX off, val`: the same write, expecting SLVERR. -/
  | wrx (off : Addr) (val : Word)
  /-- `RD off -> name`: a word read, binding the data to `name`, expecting OKAY. -/
  | rd (off : Addr) (name : String)
  /-- `POLL off, mask, val`: the read of `off`, repeated until `(data AND mask) = val`. -/
  | poll (off : Addr) (mask val : Word)
deriving DecidableEq, Repr

/-- The direction of a transaction tuple (R99). -/
inductive Direction
  | R
  | W
deriving DecidableEq, Repr

/-- The response a transaction tuple expects (R99). -/
inductive Expected
  | okay
  | slverr
deriving DecidableEq, Repr

/-- A transaction tuple (R99): direction, offset, data for W, expected response. -/
structure Transaction where
  dir : Direction
  off : Addr
  data : Option Word
  expected : Expected
deriving DecidableEq, Repr

/-- One step of an agent (R7) as the schedule lists it. Any interleaving of the agents is some list of these. -/
inductive Event
  /-- The Host performs one bus transaction. -/
  | host (a : Access)
  /-- The Host performs the next transaction of its program, if it has one left (R97, log entry 13). -/
  | program
  /-- The Engine takes its step, if one is enabled. -/
  | engine
  /-- The Entropy source offers a value, or withdraws its offer (R117). -/
  | entropy (offer : Option Nonce)
  /-- The verdict the core will give at its next CoreInit draw, a free input (R116). -/
  | coreInit (v : Verdict)
  /-- Reset is asserted (R220). -/
  | reset
deriving DecidableEq, Repr

/-- The registers of the register block (R21). -/
inductive Reg
  | id
  | cmd
  | status
  | irqEn
  | keyLen
  | nonceLen
  | inLen
  | outLen
  | key (j : Fin 8)
  | nonce (j : Fin 3)
  | bufSize
  /-- An offset of the register block that names no register: RAZ/WI (R62). -/
  | reserved
deriving DecidableEq, Repr

/-- What a window offset addresses (R61). A buffer is given with the offset inside it. -/
inductive Loc
  | reg (r : Reg)
  | inBuf (o : Nat)
  | outBuf (o : Nat)
  | unmapped
  /-- At or above 0x30000: beyond the window (R63). -/
  | outside
deriving DecidableEq, Repr

/-- What the bus interface makes of an access (R195). -/
inductive Decision
  /-- The engine does not decode the address (R63). -/
  | notDecoded
  /-- `raise BusError` (R70). -/
  | busError
  /-- The access is served at this place. -/
  | granted (l : Loc)
deriving DecidableEq, Repr

/-- The contents of a buffer: (offset, byte) pairs in the one canonical form of `Memory.wf`. -/
abbrev Memory := List Host.Cell

/-- What an offset that is not listed reads as: both buffers reset to all zero (R38, R39, R46). -/
def Memory.unlisted : Byte := 0#8

/-- Offsets strictly rising from `lo` on, and no byte equal to what an unlisted offset reads as. -/
def Memory.wfFrom : Nat → Memory → Bool
  | _, [] => true
  | lo, (a, b) :: m => decide (lo ≤ a) && b != Memory.unlisted && Memory.wfFrom (a + 1) m

/-- The canonical form of a memory: equal contents are equal lists. -/
def Memory.wf (m : Memory) : Bool := Memory.wfFrom 0 m

/-- Every listed offset lies below `n`. -/
def Memory.below (n : Nat) (m : Memory) : Bool := m.all fun c => decide (c.1 < n)

/-- The state: the engine's registers, buffers and hidden variables (10_state.md), and, as plain data too, what the other agents
present at its ports (R7). -/
structure State where
  /-- The Engine phase (R40). STATUS.BUSY and STATUS.RNG_WAIT are read from it (R24, R27). -/
  phase : Phase
  /-- STATUS.DONE (R25). -/
  done : Bool
  /-- STATUS.ERROR (R26). -/
  error : Bool
  /-- STATUS.ERR_CODE (R28). -/
  errCode : BitVec 4
  /-- IRQ_EN.DONE_IE (R30). -/
  doneIE : Bool
  /-- KEY_LEN (R31). -/
  keyLen : Word
  /-- NONCE_LEN (R32). -/
  nonceLen : Word
  /-- IN_LEN (R33). -/
  inLen : Word
  /-- OUT_LEN (R34). -/
  outLen : Word
  /-- KEY0-KEY7 (R35). -/
  key : Vector Word 8
  /-- NONCE0-NONCE2 (R36). -/
  nonce : Vector Word 3
  /-- BUF_BYTES, the content of the read-only BUF_SIZE register and the size of IN (R5, R37). No step changes it (log entry 3). -/
  bufBytes : Nat
  /-- The IN buffer (R38). -/
  inBuf : Memory
  /-- The OUT buffer (R39). -/
  outBuf : Memory
  /-- EXP_TAG, hidden (R43). -/
  expTag : Tag
  /-- RX_TAG, hidden (R43). -/
  rxTag : Tag
  /-- DIFF, hidden (R43). -/
  diff : Byte
  /-- MATCH, hidden (R43). -/
  tagMatch : Bool
  /-- The working plaintext of the DECRYPT step, hidden (R43); the empty list when clear (log entry 6). -/
  workPlain : List Byte
  /-- The working ciphertext of the ENCRYPT seal step, hidden (R43); the empty list when clear (log entry 6). -/
  workCipher : List Byte
  /-- The working tag of the ENCRYPT seal step, hidden (R43). -/
  workTag : Tag
  /-- What the Entropy source offers at the Entropy port (R117, R123). An input, not the engine's own state. -/
  entropyOffer : Option Nonce
  /-- The verdict of the core's next CoreInit draw (R116). An input, not the engine's own state: a free value (log entry 5). -/
  coreInit : Verdict
  /-- The response to the last bus transaction (R68-R70). An output, not the engine's own state (log entry 7). -/
  busResp : Option Response
  /-- The steps still to come, the next one first (log entry 4). -/
  events : List Event
  /-- The host program still to run, the next operation first (R97, R99). The Host's own, no state of the engine (log entry 13). -/
  program : List HostOp
  /-- The names the program's reads have bound, the latest first (R97). The Host's own (log entry 13). -/
  bound : List (String × Word)
  /-- Every response to the program so far was the one its tuple expects (R97, R99). The Host's own (log entry 13). -/
  asExpected : Bool
deriving DecidableEq, Repr

/-- Why the machine stops with a fault. It has NO constructor: the engine has no traps (R191), a bus error is a response that
changes no state (R70), a command error is a completion (R197), and starvation is a wait (R213), so no step ends in a fault. -/
inductive Fault
deriving DecidableEq, Repr

/-- Why the machine refuses. -/
inductive Refusal
  /-- Raised by `exec` for a command that has no meaning yet; safe. No arm of `exec` raises it: every command has its meaning. -/
  | notModelled (mnemonic : String)
deriving DecidableEq, Repr

/-- The state right after reset (R46): every register, buffer and hidden variable at zero, the phase IDLE, and BUF_SIZE at the
default of its parameter (D6). The seven fields after `workTag` are the model's own (log entries 4, 5, 7, 12 and 13). -/
def State.reset : State where
  phase := .idle
  done := false
  error := false
  errCode := 0#4
  doneIE := false
  keyLen := 0#32
  nonceLen := 0#32
  inLen := 0#32
  outLen := 0#32
  key := #v[0#32, 0#32, 0#32, 0#32, 0#32, 0#32, 0#32, 0#32]
  nonce := #v[0#32, 0#32, 0#32]
  bufBytes := Config.defaultBufBytes
  inBuf := []
  outBuf := []
  expTag := #v[0#8, 0#8, 0#8, 0#8, 0#8, 0#8, 0#8, 0#8, 0#8, 0#8, 0#8, 0#8, 0#8, 0#8, 0#8, 0#8]
  rxTag := #v[0#8, 0#8, 0#8, 0#8, 0#8, 0#8, 0#8, 0#8, 0#8, 0#8, 0#8, 0#8, 0#8, 0#8, 0#8, 0#8]
  diff := 0#8
  tagMatch := false
  workPlain := []
  workCipher := []
  workTag := #v[0#8, 0#8, 0#8, 0#8, 0#8, 0#8, 0#8, 0#8, 0#8, 0#8, 0#8, 0#8, 0#8, 0#8, 0#8, 0#8]
  entropyOffer := none
  coreInit := .ok
  busResp := none
  events := []
  program := []
  bound := []
  asExpected := true

end Sys2Proof.Machine
end

