-- ==== Sys2Proof/Machine/Operands.lean ====
section
/-! DEFINITION. Byte order (R66) and the implicit operands of the commands (R95): the key, the nonce, the plaintext and the two
parts of a sealed input. -/

namespace Sys2Proof.Machine

/-- `byte(w, i)` = bits [8i+7:8i] of `w` (R8, R66). -/
def byteOf (w : Word) (i : Nat) : Byte := w.extractLsb' (8 * i) 8

/-- `le32(b0, b1, b2, b3)` (R8, R66). -/
def le32 (b0 b1 b2 b3 : Byte) : Word := wordOfBytes b0 b1 b2 b3

/-- The `n` bytes `f 0`, ..., `f (n - 1)`. -/
def bytesOfFn (n : Nat) (f : Nat → Byte) : Vector Byte n := ⟨⟨(List.range n).map f⟩, by simp⟩

/-- Byte `4j + i` of a group of words is byte `i` of word `j` (R66). -/
def groupByte (ws : List Word) (t : Nat) : Byte := byteOf (ws.getD (t / 4) 0#32) (t % 4)

/-- The key: `key[4j+i] = byte(KEYj, i)` (R35, R66). -/
def State.keyBytes (s : State) : Key := bytesOfFn 32 (groupByte s.key.toList)

/-- The nonce DECRYPT uses: `nonce[4j+i] = byte(NONCEj, i)` (R36, R66). -/
def State.nonceBytes (s : State) : Nonce := bytesOfFn 12 (groupByte s.nonce.toList)

/-- NONCE0-NONCE2 for a nonce: `NONCEj = le32(n[4j..4j+4))` (R132, R135). -/
def nonceWords (n : Nonce) : Vector Word 3 :=
  #v[le32 n[0] n[1] n[2] n[3], le32 n[4] n[5] n[6] n[7], le32 n[8] n[9] n[10] n[11]]

/-- The byte at offset `a` of a buffer. -/
def Memory.read : Memory → Nat → Byte
  | [], _ => Memory.unlisted
  | (a', b) :: m, a => if a = a' then b else Memory.read m a

/-- The bytes `[lo .. lo + len)` of a buffer. -/
def Memory.slice (m : Memory) (lo len : Nat) : List Byte := (List.range len).map fun i => m.read (lo + i)

/-- The plaintext `P = IN[0..IN_LEN)` of ENCRYPT (R130). Bytes at or beyond IN_LEN are never read (R83). -/
def State.plaintext (s : State) : List Byte := s.inBuf.slice 0 s.inLen.toNat

/-- The ciphertext body `C = IN[0..L-16)` of DECRYPT (R152). -/
def State.body (s : State) : List Byte := s.inBuf.slice 0 (s.inLen.toNat - 16)

/-- The received tag `IN[L-16..L)` of DECRYPT (R152). -/
def State.receivedTag (s : State) : Tag := bytesOfFn 16 fun t => s.inBuf.read (s.inLen.toNat - 16 + t)

end Sys2Proof.Machine
end

