-- ==== Sys2Proof/Machine/AeadCore.lean ====
section
/-! DEFINITION. The cipher core's functions as the engine applies them, the reference seal and open (R111-R115), and the CoreInit
draw (R116). -/

namespace Sys2Proof.Machine

/-- `Enc(k, n, P)` (R111). -/
def enc (c : CipherCore) (k : Key) (n : Nonce) (P : List Byte) : List Byte :=
  (c.cipher k n P.length ⟨P.toArray, by simp⟩).toList

/-- `Dec(k, n, C)` (R112). -/
def dec (c : CipherCore) (k : Key) (n : Nonce) (C : List Byte) : List Byte :=
  ((c.cipher k n C.length).symm ⟨C.toArray, by simp⟩).toList

/-- `TagOf(k, n, C)`, that is, `TagOf(k, n, [], C)`: associated data is always empty (R4, R113). -/
def tagFor (c : CipherCore) (k : Key) (n : Nonce) (C : List Byte) : Tag := c.tagOf k n [] C

/-- `Seal(k, n, P)` (R114): the ciphertext body, then its tag. -/
def sealRef (c : CipherCore) (k : Key) (n : Nonce) (P : List Byte) : List Byte :=
  enc c k n P ++ (tagFor c k n (enc c k n P)).toList

/-- `Open(k, n, S)` (R115): `none` is FAIL. The engine does not call it; R163 says that DECRYPT agrees with it. -/
def openRef (c : CipherCore) (k : Key) (n : Nonce) (S : List Byte) : Option (List Byte) :=
  if S.length < 16 then none
  else
    let C := S.take (S.length - 16)
    let T := S.drop (S.length - 16)
    if (tagFor c k n C).toList = T then some (dec c k n C) else none

/-- `draw CoreInit()` (R116): the free verdict at the core's port, unless a configuration fixes `initVerdict`. -/
def coreInitDraw (p : Params) (s : State) : Verdict :=
  match p.initVerdict with
  | none => s.coreInit
  | some f => f s.keyBytes

end Sys2Proof.Machine
end

