-- ==== Sys2Proof/Machine/Flags.lean ====
section
/-! DEFINITION. The STATUS fields, the STATUS word and the interrupt output: the engine's only flags (R24-R29, R44, R45). -/

namespace Sys2Proof.Machine

/-- The 4-bit code of R190. -/
def ErrCode.bits : ErrCode → BitVec 4
  | .none => 0#4
  | .invalidKeyLength => 1#4
  | .invalidNonceLength => 2#4
  | .authenticationFailure => 3#4
  | .cipherInitError => 4#4
  | .lengthError => 5#4
  | .illegalCommand => 6#4

/-- STATUS.BUSY: 1 exactly when the phase is not IDLE (R24). -/
def State.busy (s : State) : Bool := s.phase != .idle

/-- STATUS.RNG_WAIT: 1 exactly when the phase is WAIT_RNG (R27). -/
def State.rngWait (s : State) : Bool := s.phase == .waitRng

/-- The irq output, a level: `STATUS.DONE AND IRQ_EN.DONE_IE` (R44, R200). -/
def State.irq (s : State) : Bool := s.done && s.doneIE

/-- A one-bit field at bit `b` of a word, zeros elsewhere. -/
def bitAt (b : Nat) (v : Bool) : Word := (BitVec.ofBool v).setWidth 32 <<< b

/-- The STATUS word: ERR_CODE in bits 11:8, RNG_WAIT, ERROR, DONE and BUSY in bits 3 to 0, and zero in the reserved bits 31:12
and 7:4 (R24-R29). -/
def State.statusWord (s : State) : Word :=
  s.errCode.setWidth 32 <<< 8 ||| bitAt 3 s.rngWait ||| bitAt 2 s.error ||| bitAt 1 s.done ||| bitAt 0 s.busy

/-- The IRQ_EN word: DONE_IE widened with zeros, bits 31:1 read as zero (R30, R68). -/
def State.irqEnWord (s : State) : Word := bitAt 0 s.doneIE

/-- The one write of DONE, ERROR and ERR_CODE together (R28): ERROR is 1 exactly when the code is not 0 (R26). -/
def State.setStatus (d : Bool) (c : ErrCode) (s : State) : State :=
  { s with done := d, error := c != .none, errCode := c.bits }

/-- A Host write of `v` to STATUS: bit 1 is write-1-to-clear for DONE, and every other bit is ignored (R25, R29). -/
def State.ackDone (v : Word) (s : State) : State :=
  { s with done := s.done && !v.getLsbD 1 }

end Sys2Proof.Machine
end

