-- ==== Sys2Proof/Machine/Ops.lean ====
section
/-! DEFINITION. The named operations over buffers and registers, the accept of a command (R101), the two completions, which are the
engine's exception entry (R196-R198), the return from one (R202), and reset (R220). -/

namespace Sys2Proof.Machine

/-- Write of one byte, keeping the canonical form. -/
def Memory.write : Memory → Nat → Byte → Memory
  | [], a, b => if b = Memory.unlisted then [] else [(a, b)]
  | (a', b') :: m, a, b =>
    if a < a' then if b = Memory.unlisted then (a', b') :: m else (a, b) :: (a', b') :: m
    else if a = a' then if b = Memory.unlisted then m else (a, b) :: m
    else (a', b') :: Memory.write m a b

/-- The word at offset `o`: `le32` of its four bytes (R66, R68). -/
def Memory.readWord (m : Memory) (o : Nat) : Word := le32 (m.read o) (m.read (o + 1)) (m.read (o + 2)) (m.read (o + 3))

/-- Write of the word `v` at offset `o`: `byte(v, i)` goes to offset `o + i` for i = 0..3 (R66, R69). -/
def Memory.writeWord (m : Memory) (o : Nat) (v : Word) : Memory :=
  (((m.write o (byteOf v 0)).write (o + 1) (byteOf v 1)).write (o + 2) (byteOf v 2)).write (o + 3) (byteOf v 3)

/-- The canonical form of the bytes `bs` at offsets `a`, `a + 1`, ... and of zero everywhere else. -/
def Memory.ofBytesFrom : Nat → List Byte → Memory
  | _, [] => []
  | a, b :: bs => if b = Memory.unlisted then Memory.ofBytesFrom (a + 1) bs else (a, b) :: Memory.ofBytesFrom (a + 1) bs

/-- A whole buffer rewritten: `bs` from offset 0 on, zero in every byte after it (R83, R196). -/
def Memory.ofBytes (bs : List Byte) : Memory := Memory.ofBytesFrom 0 bs

/-- Eight key words of zero. -/
def zeroKey : Vector Word 8 := #v[0#32, 0#32, 0#32, 0#32, 0#32, 0#32, 0#32, 0#32]

/-- Three nonce words of zero. -/
def zeroNonce : Vector Word 3 := #v[0#32, 0#32, 0#32]

/-- Sixteen bytes of zero. -/
def zeroTag : Tag := #v[0#8, 0#8, 0#8, 0#8, 0#8, 0#8, 0#8, 0#8, 0#8, 0#8, 0#8, 0#8, 0#8, 0#8, 0#8, 0#8]

/-- The response the Host gets for the transaction being taken. -/
def State.respond (r : Response) (s : State) : State := { s with busResp := some r }

/-- The phase is set (R40). -/
def State.setPhase (p : Phase) (s : State) : State := { s with phase := p }

/-- `zeroize_operands()` (R198). -/
def State.zeroizeOperands (s : State) : State :=
  { s with key := zeroKey, keyLen := 0#32, inBuf := [], inLen := 0#32 }

/-- OUT and OUT_LEN for a result `bs`, zero in every OUT byte after it (R196). -/
def State.setResult (bs : List Byte) (s : State) : State :=
  { s with outBuf := Memory.ofBytes bs, outLen := BitVec.ofNat 32 bs.length }

/-- NONCE0-NONCE2 and NONCE_LEN (R132, R197). -/
def State.setNonce (ws : Vector Word 3) (len : Word) (s : State) : State :=
  { s with nonce := ws, nonceLen := len }

/-- The accept of ENCRYPT, DECRYPT or ZEROIZE: DONE, ERROR and ERR_CODE cleared and the phase PENDING (R101). It reads no operand
and performs no check. -/
def accept (op : Op) (s : State) : State := (s.setStatus false .none).setPhase (.pending op)

/-- `complete_ok(S)` (R196). -/
def completeOk (S : List Byte) (s : State) : State :=
  ((((s.setResult S).zeroizeOperands).setStatus true .none).setPhase .idle)

/-- `complete_err(c)` (R197), the engine's one exception entry: what it saves is the code alone. An ENCRYPT error also zeroes the
nonce (R136); DECRYPT never writes it (R168). -/
def completeErr (op : Op) (c : ErrCode) (s : State) : State :=
  let s₁ := s.setResult []
  let s₂ := if op = .encrypt then s₁.setNonce zeroNonce 0#32 else s₁
  ((s₂.zeroizeOperands).setStatus true c).setPhase .idle

/-- The return from a completion (R202): the Host's acknowledgement by a write of `v` to STATUS. Nothing is restored. -/
def acknowledge (v : Word) (s : State) : State := s.ackDone v

/-- The immediate completion of an illegal command (R183): STATUS alone changes. -/
def illegalCommand (s : State) : State := s.setStatus true .illegalCommand

/-- The command is turned away because another one is in progress: CMD is BUSY-locked, so its write gets SLVERR and has no effect
(R71, R94, R181). -/
def turnedAway (s : State) : State := s.respond .slverr

/-- Reset (R220): every register, buffer and hidden variable takes its value of R46 and any command in progress is abandoned. BUF_BYTES
is a constant. What the other agents present at the ports is kept: an offered Entropy value stays unconsumed and no CoreInit draw is
taken. -/
def hardReset (s : State) : State :=
  { State.reset with
    bufBytes := s.bufBytes, entropyOffer := s.entropyOffer, coreInit := s.coreInit, busResp := s.busResp, events := s.events,
    program := s.program, bound := s.bound, asExpected := s.asExpected }

end Sys2Proof.Machine
end

