-- ==== Sys2Proof/Machine/Control.lean ====
section
/-! DEFINITION. NOP and ZEROIZE (43_control.md). The illegal command of R183 is `illegalCommand` of Machine/Ops.lean. -/

namespace Sys2Proof.Machine

/-- NOP changes no state at all (R180, R94); it has no Engine step. While a command is in progress its write is turned away (R94). -/
def nopCommand (s : State) : State :=
  match s.phase with
  | .idle => s
  | .pending _ => turnedAway s
  | .waitRng => turnedAway s

/-- NOP (R180). -/
def execNop (s : State) : Host.Outcome State Fault Refusal := .next (nopCommand s)

/-- `step Zeroize` (R182): every register and buffer cleared except ID, BUF_SIZE and IRQ_EN, and the hidden working values with them. -/
def zeroizeStep (s : State) : State :=
  { State.reset with
    done := true, doneIE := s.doneIE, bufBytes := s.bufBytes
    entropyOffer := s.entropyOffer, coreInit := s.coreInit, busResp := s.busResp, events := s.events
    program := s.program, bound := s.bound, asExpected := s.asExpected }

/-- ZEROIZE's next atomic step: its accept when idle (R101), its one Engine step when it is the command in progress (R182). -/
def zeroizeCommand (s : State) : State :=
  match s.phase with
  | .idle => accept .zeroize s
  | .pending .zeroize => zeroizeStep s
  | .pending .encrypt => turnedAway s
  | .pending .decrypt => turnedAway s
  | .waitRng => turnedAway s

/-- ZEROIZE (R181). -/
def execZeroize (s : State) : Host.Outcome State Fault Refusal := .next (zeroizeCommand s)

end Sys2Proof.Machine
end

