-- ==== Sys2Proof/Machine/Decrypt.lean ====
section
/-! DEFINITION. DECRYPT with its tag verification and comparison logic (42_decrypt.md). -/

namespace Sys2Proof.Machine

/-- IN_LEN is longer than the IN buffer, or the body is longer than what the core accepts (R151, R193). -/
def decryptTooLong (p : Params) (s : State) : Bool :=
  decide (s.bufBytes < s.inLen.toNat) || (decide (16 ≤ s.inLen.toNat) && decide (p.coreMaxPt < s.inLen.toNat - 16))

/-- EXP_TAG and RX_TAG are loaded (R152, R153). -/
def loadTags (p : Params) (s : State) : State :=
  { s with expTag := tagFor p.core s.keyBytes s.nonceBytes s.body, rxTag := s.receivedTag }

/-- The OR over all 16 byte pairs of their XOR, with no early exit (R154, R155). -/
def tagDiff (e r : Tag) : Byte := (List.zipWith (· ^^^ ·) e.toList r.toList).foldl (· ||| ·) 0#8

/-- DIFF and MATCH from EXP_TAG and RX_TAG (R154). -/
def compareTags (s : State) : State :=
  let d := tagDiff s.expTag s.rxTag
  { s with diff := d, tagMatch := d == 0#8 }

/-- The working plaintext `Dec(k, n, C)` (R156). -/
def loadPlain (p : Params) (s : State) : State :=
  { s with workPlain := dec p.core s.keyBytes s.nonceBytes s.body }

/-- EXP_TAG, RX_TAG, DIFF, MATCH and the working plaintext are cleared (R162). -/
def clearDatapath (s : State) : State :=
  { s with expTag := zeroTag, rxTag := zeroTag, diff := 0#8, tagMatch := false, workPlain := [] }

/-- Commit on match, fail closed otherwise (R156, R157). -/
def commitOrFail (p : Params) (s : State) : State :=
  if s.tagMatch then
    let s₁ := loadPlain p s
    completeOk s₁.workPlain s₁
  else completeErr .decrypt .authenticationFailure s

/-- Tag verification (R152-R157). -/
def verifyTag (p : Params) (s : State) : State := commitOrFail p (compareTags (loadTags p s))

/-- The checks of R151 in the order of R193, and then the core. -/
def decryptChecks (p : Params) (s : State) : State :=
  if s.keyLen ≠ 32#32 then completeErr .decrypt .invalidKeyLength s
  else if s.nonceLen ≠ 12#32 then completeErr .decrypt .invalidNonceLength s
  else if decryptTooLong p s then completeErr .decrypt .lengthError s
  else if s.inLen.toNat < 16 then completeErr .decrypt .authenticationFailure s
  else
    match coreInitDraw p s with
    | .fail => completeErr .decrypt .cipherInitError s
    | .ok => verifyTag p s

/-- `step Decrypt` (R151): the datapath is cleared as it ends, on every path (R162). -/
def decryptStep (p : Params) (s : State) : State := clearDatapath (decryptChecks p s)

/-- DECRYPT's next atomic step: its accept when idle (R101), its one Engine step when it is the command in progress (R151). -/
def decryptCommand (p : Params) (s : State) : State :=
  match s.phase with
  | .idle => accept .decrypt s
  | .pending .decrypt => decryptStep p s
  | .pending .encrypt => turnedAway s
  | .pending .zeroize => turnedAway s
  | .waitRng => turnedAway s

/-- DECRYPT (R150). -/
def execDecrypt (s : State) : Host.Outcome State Fault Refusal := .next (decryptCommand Config.params s)

end Sys2Proof.Machine
end

