-- ==== Sys2Proof/Machine/Encrypt.lean ====
section
/-! DEFINITION. ENCRYPT (41_encrypt.md): the check step and the seal step. -/

namespace Sys2Proof.Machine

/-- IN_LEN is longer than the IN buffer or than what the core accepts (R131, R192). -/
def encryptTooLong (p : Params) (s : State) : Bool :=
  decide (s.bufBytes < s.inLen.toNat) || decide (p.coreMaxPt < s.inLen.toNat)

/-- `step EncryptCheck` (R131), in the order of R192. -/
def encryptCheck (p : Params) (s : State) : State :=
  if s.keyLen ≠ 32#32 then completeErr .encrypt .invalidKeyLength s
  else if encryptTooLong p s then completeErr .encrypt .lengthError s
  else s.setPhase .waitRng

/-- The Entropy draw: the offered value is consumed (R117, R123). -/
def consumeEntropy (s : State) : State := { s with entropyOffer := none }

/-- The working ciphertext `C = Enc(k, n, P)` and tag `T = TagOf(k, n, C)` of the seal step (R43, R132). -/
def loadSeal (p : Params) (n : Nonce) (s : State) : State :=
  let C := enc p.core s.keyBytes n s.plaintext
  { s with workCipher := C, workTag := tagFor p.core s.keyBytes n C }

/-- The seal's working values are cleared as the step ends (R43). -/
def clearSeal (s : State) : State := { s with workCipher := [], workTag := zeroTag }

/-- The seal proper (R132-R135): the drawn value is the nonce used and the nonce returned. -/
def sealAndCommit (p : Params) (n : Nonce) (s : State) : State :=
  let s₁ := loadSeal p n s
  completeOk (s₁.workCipher ++ s₁.workTag.toList) (s₁.setNonce (nonceWords n) 12#32)

/-- `step EncryptSeal` (R132), taken with the offered value `n`. On a `fail` verdict `n` is discarded. -/
def encryptSeal (p : Params) (n : Nonce) (s : State) : State :=
  clearSeal <|
    match coreInitDraw p s with
    | .fail => completeErr .encrypt .cipherInitError (consumeEntropy s)
    | .ok => sealAndCommit p n (consumeEntropy s)

/-- In WAIT_RNG: the seal step when the Entropy source offers a value; without one the Engine holds, with no step and no timeout
(R132, R213). -/
def encryptWait (p : Params) (s : State) : State :=
  match s.entropyOffer with
  | some n => encryptSeal p n s
  | none => s

/-- ENCRYPT's next atomic step: its accept when idle (R101), its Engine steps when it is the command in progress (R131, R132). -/
def encryptCommand (p : Params) (s : State) : State :=
  match s.phase with
  | .idle => accept .encrypt s
  | .pending .encrypt => encryptCheck p s
  | .waitRng => encryptWait p s
  | .pending .decrypt => turnedAway s
  | .pending .zeroize => turnedAway s

/-- ENCRYPT (R130). -/
def execEncrypt (s : State) : Host.Outcome State Fault Refusal := .next (encryptCommand Config.params s)

end Sys2Proof.Machine
end

