-- ==== Sys2Proof/Machine/Dispatch.lean ====
section
/-! DEFINITION. The dispatch of the commands: one arm per row of spec/opcode_table.json. `exec i s` is the next atomic step of command
`i` at `s` (R9): its accept when the engine is idle, its Engine step when `i` is the command in progress. -/

namespace Sys2Proof.Machine

def exec (i : Instr) (s : State) : Host.Outcome State Fault Refusal :=
  match i with
  | .nop => Sys2Proof.Machine.execNop s
  | .encrypt => Sys2Proof.Machine.execEncrypt s
  | .decrypt => Sys2Proof.Machine.execDecrypt s
  | .zeroize => Sys2Proof.Machine.execZeroize s

end Sys2Proof.Machine
end

