-- ==== Sys2Proof/Machine/Bus.lean ====
section
/-! DEFINITION. The bus interface (20_memory.md): the address map, the bus errors, reads and writes, the issue of a command (R101), and
the steps of the agents (R7). -/

namespace Sys2Proof.Machine

/-- The register at a word-aligned offset of the register block (R21, R62). -/
def regAt (off : Nat) : Reg :=
  if off = 0x000 then .id
  else if off = 0x004 then .cmd
  else if off = 0x008 then .status
  else if off = 0x00C then .irqEn
  else if off = 0x010 then .keyLen
  else if off = 0x014 then .nonceLen
  else if off = 0x018 then .inLen
  else if off = 0x01C then .outLen
  else if 0x020 ≤ off ∧ off ≤ 0x03C then .key (Fin.ofNat 8 ((off - 0x020) / 4))
  else if 0x040 ≤ off ∧ off ≤ 0x048 then .nonce (Fin.ofNat 3 ((off - 0x040) / 4))
  else if off = 0x0F0 then .bufSize
  else .reserved

/-- The address map of the window (R61), for an IN buffer of `buf` bytes. -/
def locate (buf a : Nat) : Loc :=
  if a < 0x00100 then .reg (regAt a)
  else if 0x10000 ≤ a ∧ a < 0x10000 + buf then .inBuf (a - 0x10000)
  else if 0x20000 ≤ a ∧ a < 0x20000 + buf + 16 then .outBuf (a - 0x20000)
  else if a < 0x30000 then .unmapped
  else .outside

/-- The BUSY-locked registers (R21). -/
def Reg.busyLocked : Reg → Bool
  | .cmd => true
  | .keyLen => true
  | .nonceLen => true
  | .inLen => true
  | .key _ => true
  | .nonce _ => true
  | .id => false
  | .status => false
  | .irqEn => false
  | .outLen => false
  | .bufSize => false
  | .reserved => false

/-- The places a write may not touch while BUSY = 1 (R71). -/
def Loc.writeLocked : Loc → Bool
  | .reg r => r.busyLocked
  | .inBuf _ => true
  | .outBuf _ => false
  | .unmapped => false
  | .outside => false

/-- What the bus interface makes of an access (R63-R65, R71, R195). The causes of a bus error need no order among themselves. -/
def arbitrate (isWrite : Bool) (size : Size) (addr : Addr) (s : State) : Decision :=
  let l := locate s.bufBytes addr.toNat
  if l = .outside then .notDecoded
  else if size ≠ .word ∨ addr.toNat % 4 ≠ 0 ∨ l = .unmapped ∨ (isWrite ∧ s.busy ∧ l.writeLocked) then .busError
  else .granted l

/-- The word a register reads as (R68). CMD and KEYj are write-only and read as 0. -/
def readReg (s : State) : Reg → Word
  | .id => Config.idValue
  | .cmd => 0#32
  | .status => s.statusWord
  | .irqEn => s.irqEnWord
  | .keyLen => s.keyLen
  | .nonceLen => s.nonceLen
  | .inLen => s.inLen
  | .outLen => s.outLen
  | .key _ => 0#32
  | .nonce j => s.nonce[j]
  | .bufSize => BitVec.ofNat 32 s.bufBytes
  | .reserved => 0#32

/-- The word a granted read returns (R68). IN and OUT read as 0 while BUSY = 1 (R71). -/
def readLoc (s : State) : Loc → Word
  | .reg r => readReg s r
  | .inBuf o => if s.busy then 0#32 else s.inBuf.readWord o
  | .outBuf o => if s.busy then 0#32 else s.outBuf.readWord o
  | .unmapped => 0#32
  | .outside => 0#32

/-- `MemRead` (R68). No read changes any state of the engine. -/
def busRead (size : Size) (addr : Addr) (s : State) : State :=
  match arbitrate false size addr s with
  | .notDecoded => s.respond .notDecoded
  | .busError => s.respond .slverr
  | .granted l => s.respond (.okayRead (readLoc s l))

/-- A granted write of `v` to a register other than CMD (R69). A write to a read-only or reserved one is ignored. -/
def writeReg (r : Reg) (v : Word) (s : State) : State :=
  match r with
  | .status => acknowledge v s
  | .irqEn => { s with doneIE := v.getLsbD 0 }
  | .keyLen => { s with keyLen := v }
  | .nonceLen => { s with nonceLen := v }
  | .inLen => { s with inLen := v }
  | .key j => { s with key := s.key.set j v }
  | .nonce j => { s with nonce := s.nonce.set j v }
  | .cmd => s
  | .id => s
  | .outLen => s
  | .bufSize => s
  | .reserved => s

/-- `issue(v)` (R101): the command runs, or an illegal word completes at once (R183). -/
def issue (v : Word) (s : State) : Host.Outcome State Fault Refusal :=
  match decodeWord v with
  | .ok i => exec i s
  | .error _ => .next (illegalCommand s)

/-- The effect of a granted write (R69). A write to OUT is ignored. -/
def writeLoc (l : Loc) (v : Word) (s : State) : Host.Outcome State Fault Refusal :=
  match l with
  | .reg .cmd => issue v s
  | .reg r => .next (writeReg r v s)
  | .inBuf o => .next { s with inBuf := s.inBuf.writeWord o v }
  | .outBuf _ => .next s
  | .unmapped => .next s
  | .outside => .next s

/-- `MemWrite` (R69). -/
def busWrite (size : Size) (addr : Addr) (v : Word) (s : State) : Host.Outcome State Fault Refusal :=
  match arbitrate true size addr s with
  | .notDecoded => .next (s.respond .notDecoded)
  | .busError => .next (s.respond .slverr)
  | .granted l => writeLoc l v (s.respond .okayWrite)

/-- One transaction of the Host, one atomic step (R72, R74). -/
def hostAccess (a : Access) (s : State) : Host.Outcome State Fault Refusal :=
  match a with
  | .read size addr => .next (busRead size addr s)
  | .write size addr v => busWrite size addr v s

/-- The data the Host gets for its transaction: that of a granted read, 0x00000000 for a read that gets SLVERR (R68, R70); a write gets
none, and the engine gives none for an address it does not decode (R63). -/
def responseData (a : Access) (r : Response) : Option Word :=
  match a, r with
  | .read _ _, .okayRead v => some v
  | .read _ _, .slverr => some 0#32
  | .read _ _, .okayWrite => none
  | .read _ _, .notDecoded => none
  | .write _ _ _, _ => none

/-- The transaction of an operation as its tuple (R97, R99). A POLL's is one read; the loop is in `HostOp.remaining`. -/
def HostOp.tuple : HostOp → Transaction
  | .wr off val => ⟨.W, off, some val, .okay⟩
  | .wrx off val => ⟨.W, off, some val, .slverr⟩
  | .rd off _ => ⟨.R, off, none, .okay⟩
  | .poll off _ _ => ⟨.R, off, none, .okay⟩

/-- The bus transaction of a tuple: every one is a word access (R97). -/
def Transaction.access (t : Transaction) : Access :=
  match t.dir with
  | .R => .read .word t.off
  | .W => .write .word t.off (t.data.getD 0#32)

/-- A response is the one the tuple expects (R97, R99). DESIGN CHOICE (log entry 13): at or beyond 0x30000, where R63 leaves what the Host
sees to the platform, no operation gets its expected response, WRX no more than WR, RD and POLL. -/
def Transaction.meets (t : Transaction) : Response → Bool
  | .okayRead _ => t.dir == .R && t.expected == .okay
  | .okayWrite => t.dir == .W && t.expected == .okay
  | .slverr => t.expected == .slverr
  | .notDecoded => false

/-- A POLL's condition on the data of a read: `(data AND mask) = val` (R97). -/
def pollHolds (mask val data : Word) : Bool := data &&& mask == val

/-- The program after the transaction of its head `op` gave `data`: a POLL stays until its condition holds, every other operation is
done (R97). A read that gives no data meets no condition. -/
def HostOp.remaining (op : HostOp) (data : Option Word) (p : List HostOp) : List HostOp :=
  match op with
  | .wr _ _ => p
  | .wrx _ _ => p
  | .rd _ _ => p
  | .poll _ mask val => if data.any (pollHolds mask val) then p else op :: p

/-- The bindings after the transaction of `op` gave `data`: RD binds it to its name (R97). -/
def HostOp.bind (op : HostOp) (data : Option Word) (bs : List (String × Word)) : List (String × Word) :=
  match op with
  | .wr _ _ => bs
  | .wrx _ _ => bs
  | .rd _ name => (data.map fun v => (name, v)).toList ++ bs
  | .poll _ _ _ => bs

/-- What the Host makes of the response to its operation `op`, with `p` after it in the program. DESIGN CHOICE (log entry 13): an
unexpected response is recorded and the program goes on; the spec leaves the Host's reaction open (R234). -/
def settle (op : HostOp) (p : List HostOp) (s : State) : State :=
  let data := s.busResp.bind (responseData op.tuple.access)
  { s with
    program := op.remaining data p, bound := op.bind data s.bound
    asExpected := s.asExpected && s.busResp.any op.tuple.meets }

/-- The Host's turn at its program: the next transaction, and what the Host makes of its response (R97). -/
def programTurn (s : State) : Host.Outcome State Fault Refusal :=
  match s.program with
  | [] => .next s
  | op :: p =>
    match hostAccess op.tuple.access s with
    | .next t => .next (settle op p t)
    | .fault f => .fault f
    | .refused r => .refused r

/-- The Engine's turn: the step of the command in progress (R131, R132, R151, R182). When idle the Engine has none (R40). -/
def engineTurn (s : State) : Host.Outcome State Fault Refusal :=
  match s.phase with
  | .idle => .next s
  | .pending .encrypt => exec .encrypt s
  | .pending .decrypt => exec .decrypt s
  | .pending .zeroize => exec .zeroize s
  | .waitRng => exec .encrypt s

/-- One scheduled step of an agent (R7). -/
def takeEvent (e : Event) (s : State) : Host.Outcome State Fault Refusal :=
  match e with
  | .host a => hostAccess a s
  | .program => programTurn s
  | .engine => engineTurn s
  | .entropy offer => .next { s with entropyOffer := offer }
  | .coreInit v => .next { s with coreInit := v }
  | .reset => .next (hardReset s)

/-- The schedule with its first entry taken. -/
def State.withEvents (es : List Event) (s : State) : State := { s with events := es }

/-- The machine's next step: the next entry of the schedule. When it lists nothing more the Host is quiet and the Engine, which is
weakly fair (R230), takes its enabled step, if any (log entry 4). -/
def nextStep (s : State) : Host.Outcome State Fault Refusal :=
  match s.events with
  | [] => engineTurn s
  | e :: rest => takeEvent e (s.withEvents rest)

/-- The CMD register's offset (R21, R23). -/
def cmdAddr : Addr := 0x00004#18

/-- The transaction that issues the command word `v`: `WR 0x004, v` (R98, R101). -/
def issueEvent (v : Word) : Event := .host (.write .word cmdAddr v)

end Sys2Proof.Machine
end

