-- ==== Sys2Proof/Machine/Step.lean ====
section
/-! DEFINITION. The step function, and the placing of one command where the next step takes it from. -/

namespace Sys2Proof.Machine

/-- One step of the machine: one atomic step of one agent (R7, R9). -/
def step (s : State) : Host.Outcome State Fault Refusal := nextStep s

/-- `s` with the command word `(nbits, w)` as the next bus transaction, a write to CMD, and the engine idle, without which a CMD
write is turned away (R71, R101). Log entry 8. -/
def State.withFetchWord (s : State) (nbits w : Nat) : State :=
  { s with phase := .idle, events := issueEvent (tableWord nbits w) :: s.events }

end Sys2Proof.Machine
end

