-- ==== Sys2Proof/Machine/HostProgram.lean ====
section
/-! DEFINITION. The host program notation (30_encoding.md section 5): pseudo-instructions and their expansions, and the encoding of a
program as transaction tuples. How a program runs is `programTurn` of Machine/Bus.lean. -/

namespace Sys2Proof.Machine

/-- The pseudo-instructions of R98. -/
inductive Pseudo
  | loadKey (k : List Byte)
  | setKeyLen (m : Word)
  | loadNonce (n : List Byte)
  | setNonceLen (m : Word)
  | loadIn (s : List Byte)
  | setInLen (m : Word)
  | encrypt
  | decrypt
  | zeroize
  | nop
  | waitDone
  | clrDone
  | readOut (m : Nat)
  | readNonce
  | enableIrq
deriving DecidableEq, Repr

/-- `k` is 32 bytes and `n` is 12 bytes (R98), and a byte string loaded into IN fits a buffer of `buf` bytes (R61). -/
def Pseudo.wf (buf : Nat) : Pseudo → Bool
  | .loadKey k => k.length == 32
  | .loadNonce n => n.length == 12
  | .loadIn s => Nat.ble s.length buf
  | .readOut m => Nat.ble m (buf + 16)
  | .setKeyLen _ => true
  | .setNonceLen _ => true
  | .setInLen _ => true
  | .encrypt => true
  | .decrypt => true
  | .zeroize => true
  | .nop => true
  | .waitDone => true
  | .clrDone => true
  | .readNonce => true
  | .enableIrq => true

/-- `w_j(s) = le32(s[4j], s[4j+1], s[4j+2], s[4j+3])`, with bytes beyond `|s|` taken as 0 (R98). -/
def wordAt (s : List Byte) (j : Nat) : Word :=
  le32 (s.getD (4 * j) 0#8) (s.getD (4 * j + 1) 0#8) (s.getD (4 * j + 2) 0#8) (s.getD (4 * j + 3) 0#8)

/-- The offset `base + 4j`, modulo 2^18. DESIGN CHOICE (log entry 17): R98 bounds neither the `s` of LOADIN nor the `m` of READOUT, and past
the 18 bits of an offset the model wraps; no form that `Pseudo.wf` admits for a legal buffer gets there. -/
def wordOff (base j : Nat) : Addr := BitVec.ofNat 18 (base + 4 * j)

/-- `WR base + 4j, w_j(s)` for j = 0..n-1 in order. -/
def writeWords (base n : Nat) (s : List Byte) : List HostOp := (List.range n).map fun j => .wr (wordOff base j) (wordAt s j)

/-- `RD base + 4j -> name j` for j = 0..n-1 in order. -/
def readWords (base : Nat) (name : String) (n : Nat) : List HostOp :=
  (List.range n).map fun j => .rd (wordOff base j) (name ++ toString j)

/-- `ceil(m / 4)`. -/
def wordsOf (m : Nat) : Nat := (m + 3) / 4

/-- The exact expansions (R98). A LOADIN of 2^32 bytes or more writes its length modulo 2^32 (log entry 17, DESIGN CHOICE). -/
def Pseudo.expand : Pseudo → List HostOp
  | .loadKey k => writeWords 0x020 8 k ++ [.wr 0x010#18 0x20#32]
  | .setKeyLen m => [.wr 0x010#18 m]
  | .loadNonce n => writeWords 0x040 3 n ++ [.wr 0x014#18 0x0C#32]
  | .setNonceLen m => [.wr 0x014#18 m]
  | .loadIn s => writeWords 0x10000 (wordsOf s.length) s ++ [.wr 0x018#18 (BitVec.ofNat 32 s.length)]
  | .setInLen m => [.wr 0x018#18 m]
  | .encrypt => [.wr cmdAddr (encode .encrypt)]
  | .decrypt => [.wr cmdAddr (encode .decrypt)]
  | .zeroize => [.wr cmdAddr (encode .zeroize)]
  | .nop => [.wr cmdAddr (encode .nop)]
  | .waitDone => [.poll 0x008#18 0x00000002#32 0x00000002#32]
  | .clrDone => [.wr 0x008#18 0x00000002#32]
  | .readOut m => readWords 0x20000 "o_" (wordsOf m)
  | .readNonce => [.rd 0x040#18 "n0", .rd 0x044#18 "n1", .rd 0x048#18 "n2"]
  | .enableIrq => [.wr 0x00C#18 0x00000001#32]

/-- The encoding of one operation (R99), and what is left of `data`, the data of the program's POLL reads in order. A POLL is one R tuple
for each of its reads, up to and with the first whose data meets the condition; it has no encoding when none does. -/
def HostOp.encode (op : HostOp) (data : List Word) : Option (List Transaction × List Word) :=
  match op with
  | .wr _ _ => some ([op.tuple], data)
  | .wrx _ _ => some ([op.tuple], data)
  | .rd _ _ => some ([op.tuple], data)
  | .poll _ mask val => polled mask val data
where
  /-- The reads of a POLL: repeated until the condition holds. -/
  polled (mask val : Word) : List Word → Option (List Transaction × List Word)
    | [] => none
    | d :: ds =>
      if pollHolds mask val d then some ([op.tuple], ds) else (polled mask val ds).map fun r => (op.tuple :: r.1, r.2)

/-- The encoding of a host program: its expanded transactions in order (R99). How often a POLL reads is not fixed by the program, so the
encoding depends on the data its reads give; `data` is used up exactly. -/
def encodeProgram : List HostOp → List Word → Option (List Transaction)
  | [], [] => some []
  | [], _ :: _ => none
  | op :: p, data => (op.encode data).bind fun r => (encodeProgram p r.2).map fun ts => r.1 ++ ts

/-- The bus event of a tuple. -/
def Transaction.event (t : Transaction) : Event := .host t.access

/-- The events of an encoded program with nothing between its transactions. -/
def programEvents (ts : List Transaction) : List Event := ts.map Transaction.event

end Sys2Proof.Machine
end

