-- ==== Sys2Proof/Safety.lean ====
section
/-! DEFINITION. What claims are stated in: the invariant of the reachable states (R41 and what it needs), the end of a run (R234), and
the named properties a claim may assume (R120). -/

namespace Sys2Proof.Machine

/-- The STATUS part of R41: DONE = 1 implies BUSY = 0; ERROR = 1 exactly when ERR_CODE is not 0; ERR_CODE is in 0..6; and, since an
accept clears them together (R101), a command in progress has ERROR = 0. -/
def State.StatusInv (s : State) : Prop :=
  (s.done = true → s.phase = .idle) ∧ (s.error = true ↔ s.errCode ≠ 0#4) ∧ s.errCode.toNat ≤ 6 ∧
    (s.phase ≠ .idle → s.error = false)

/-- The buffers: BUF_BYTES keeps its constraint (R5), IN and OUT are in canonical form inside their sizes (R38, R39), and every OUT
byte at or beyond OUT_LEN is zero (R83). -/
def State.BufferInv (s : State) : Prop :=
  Config.bufBytesLegal s.bufBytes = true ∧ s.inBuf.wf = true ∧ Memory.below s.bufBytes s.inBuf = true ∧ s.outBuf.wf = true ∧
    Memory.below s.outLen.toNat s.outBuf = true ∧ s.outLen.toNat ≤ s.bufBytes + 16

/-- The hidden working values are zero between steps (R43, R162). -/
def State.DatapathClear (s : State) : Prop :=
  s.expTag = zeroTag ∧ s.rxTag = zeroTag ∧ s.diff = 0#8 ∧ s.tagMatch = false ∧ s.workPlain = [] ∧ s.workCipher = [] ∧
    s.workTag = zeroTag

/-- In WAIT_RNG the checks of R131 have passed, and the operands they read are locked since (R41, R71). -/
def State.WaitInv (p : Params) (s : State) : Prop :=
  s.phase = .waitRng → s.keyLen = 32#32 ∧ s.inLen.toNat ≤ s.bufBytes ∧ s.inLen.toNat ≤ p.coreMaxPt

/-- The invariant of the reachable states. -/
structure State.Inv (s : State) : Prop where
  status : s.StatusInv
  buffers : s.BufferInv
  datapath : s.DatapathClear
  waiting : s.WaitInv Config.params

/-- An outcome that goes on. -/
def Goes (o : Host.Outcome State Fault Refusal) : Prop := ∃ t, o = .next t

/-- The Engine has an enabled step (R40): always in PENDING, in WAIT_RNG when the Entropy source offers a value (R132). -/
def State.engineEnabled (s : State) : Bool :=
  match s.phase with
  | .idle => false
  | .pending _ => true
  | .waitRng => s.entropyOffer.isSome

/-- The Host has a further transaction: its program is not at its end, or the schedule lists one. -/
def State.hostPending (s : State) : Bool :=
  !s.program.isEmpty || s.events.any fun e => match e with
    | .host _ => true
    | .program => false
    | .engine => false
    | .entropy _ => false
    | .coreInit _ => false
    | .reset => false

/-- The run has ended: the Host has no further transaction and the phase is IDLE (R234). -/
def State.runEnded (s : State) : Bool := !s.hostPending && !s.busy

/-- The run is hung: the Host has finished, and the Engine waits for a value nobody offers (R234). -/
def State.runHung (s : State) : Bool := !s.hostPending && s.rngWait && s.entropyOffer.isNone

/-- The result of a run (R234): the values a claim may read. -/
structure RunResult where
  status : Word
  outLen : Word
  out : Memory
  nonce : Vector Word 3
  nonceLen : Word
deriving DecidableEq, Repr

/-- The result held in a state (R234). -/
def State.result (s : State) : RunResult := ⟨s.statusWord, s.outLen, s.outBuf, s.nonce, s.nonceLen⟩

/-- `l'` differs from `l` in exactly one bit. -/
def FlipsOneBit (l l' : List Byte) : Prop :=
  ∃ i j, ∃ h : i < l.length, j < 8 ∧ l' = l.set i (l[i] ^^^ (1#8 <<< j))

/-- `TagSensitiveC(k, n)` (R120): a property a claim may assume, and no law of the model. -/
def TagSensitiveC (c : CipherCore) (k : Key) (n : Nonce) : Prop :=
  ∀ C C' : List Byte, FlipsOneBit C C' → tagFor c k n C' ≠ tagFor c k n C

/-- `TagSensitiveN(k, C)` (R120): a property a claim may assume, and no law of the model. -/
def TagSensitiveN (c : CipherCore) (k : Key) (C : List Byte) : Prop :=
  ∀ n n' : Nonce, FlipsOneBit n.toList n'.toList → tagFor c k n' C ≠ tagFor c k n C

/-- `TagSensitiveK(n, C)` (R120): a property a claim may assume, and no law of the model. -/
def TagSensitiveK (c : CipherCore) (n : Nonce) (C : List Byte) : Prop :=
  ∀ k k' : Key, FlipsOneBit k.toList k'.toList → tagFor c k' n C ≠ tagFor c k n C

/-- `EntropyFresh(h)` (R120): the Entropy draws of the history `h` are pairwise distinct. -/
def EntropyFresh (h : List Nonce) : Prop := h.Nodup

end Sys2Proof.Machine
end

