-- ==== Sys2Proof/Certificates/Slice0/Obligations.lean ====
section
/-! DEFINITION. The statements for the provers. Each docstring names the rules of spec/ that it formalises. -/

namespace Sys2Proof.Claims

open Sys2Proof.Machine

/-- `s` with `es` as the steps still to come. -/
def scheduled (s : State) (es : List Event) : State := { s with events := es }

/-- `s` after one bus transaction with response `r` and no other effect: the schedule goes on with `rest`. -/
def served (s : State) (rest : List Event) (r : Response) : State := { s with events := rest, busResp := some r }

/-- In `s` a word read of offset `a` is answered OKAY with the data `v`, and changes nothing but the response. -/
def ReadsAs (s : State) (a : Nat) (v : Word) : Prop :=
  ∀ rest, step (scheduled s (.host (.read .word (BitVec.ofNat 18 a)) :: rest)) = .next (served s rest (.okayRead v))

/-- In `s` a word write of `v` to offset `a` is answered OKAY and has exactly the effect `f`. -/
def WriteDoes (s : State) (a : Nat) (v : Word) (f : State → State) : Prop :=
  ∀ rest, step (scheduled s (.host (.write .word (BitVec.ofNat 18 a) v) :: rest)) = .next (f (served s rest .okayWrite))

/-- `le32` of R8: `b3<<24 | b2<<16 | b1<<8 | b0`. -/
def littleEndian (b0 b1 b2 b3 : Byte) : Word :=
  b3.setWidth 32 <<< 24 ||| b2.setWidth 32 <<< 16 ||| b1.setWidth 32 <<< 8 ||| b0.setWidth 32

/-- The offset of a transaction. -/
def accessAddr : Access → Nat
  | .read _ a => a.toNat
  | .write _ a _ => a.toNat

/-- The size of a transaction. -/
def accessSize : Access → Size
  | .read z _ => z
  | .write z _ _ => z

/-- The offset is unmapped (R61), for an IN buffer of `buf` bytes. -/
def Unmapped (buf a : Nat) : Prop :=
  (0x00100 ≤ a ∧ a < 0x10000) ∨ (0x10000 + buf ≤ a ∧ a < 0x20000) ∨ (0x20000 + buf + 16 ≤ a ∧ a < 0x30000)

/-- The offset is a reserved one of the register block (R62). -/
def ReservedOffset (a : Nat) : Prop := (0x04C ≤ a ∧ a ≤ 0x0EC) ∨ (0x0F4 ≤ a ∧ a ≤ 0x0FC)

/-- The offset is one that BUSY locks against writes (R71): CMD, KEY_LEN, NONCE_LEN, IN_LEN, KEY0-KEY7, NONCE0-NONCE2 or IN. -/
def LockedOffset (buf a : Nat) : Prop :=
  a = 0x004 ∨ a = 0x010 ∨ a = 0x014 ∨ a = 0x018 ∨ (0x020 ≤ a ∧ a ≤ 0x03C) ∨ (0x040 ≤ a ∧ a ≤ 0x048) ∨
    (0x10000 ≤ a ∧ a < 0x10000 + buf)

/-- `s` after an error completion of `op` with code `c` (R197): OUT and OUT_LEN zero, the operands zeroized (R198), STATUS set, the
nonce zero for ENCRYPT (R136) and kept for DECRYPT (R168); everything else as it was, the model's own fields too (log entries 5, 7, 13). -/
def errorEnd (op : Op) (c : BitVec 4) (s : State) : State :=
  { s with
    phase := .idle, done := true, error := true, errCode := c
    outBuf := [], outLen := 0#32
    key := #v[0#32, 0#32, 0#32, 0#32, 0#32, 0#32, 0#32, 0#32], keyLen := 0#32, inBuf := [], inLen := 0#32
    nonce := if op = .encrypt then #v[0#32, 0#32, 0#32] else s.nonce
    nonceLen := if op = .encrypt then 0#32 else s.nonceLen }

/-- `s` after a successful completion with `len` result bytes in the OUT contents `out` (R196, R198); everything else as it was, the model's
own fields too (log entries 5, 7, 13). -/
def successEnd (out : Memory) (len : Nat) (s : State) : State :=
  { s with
    phase := .idle, done := true, error := false, errCode := 0#4
    outBuf := out, outLen := BitVec.ofNat 32 len
    key := #v[0#32, 0#32, 0#32, 0#32, 0#32, 0#32, 0#32, 0#32], keyLen := 0#32, inBuf := [], inLen := 0#32 }

/-- EXP_TAG, RX_TAG, DIFF, MATCH and the working plaintext at zero (R162). -/
def tagsClear (s : State) : State :=
  { s with
    expTag := Vector.replicate 16 0#8, rxTag := Vector.replicate 16 0#8, diff := 0#8, tagMatch := false, workPlain := [] }

/-- The working ciphertext and tag of the seal step at zero (R43). -/
def sealClear (s : State) : State := { s with workCipher := [], workTag := Vector.replicate 16 0#8 }

/-- The contents `m` are the bytes `bs` and zero in every byte after them. -/
def Contains (m : Memory) (bs : List Byte) : Prop := ∀ i, m.read i = bs.getD i 0#8

/-- The chip's cipher core. -/
abbrev chip : CipherCore := Config.params.core

/-- `s` is at the DECRYPT step with the length checks passed (R151). -/
def DecryptReady (s : State) : Prop :=
  s.phase = .pending .decrypt ∧ s.keyLen = 32#32 ∧ s.nonceLen = 12#32 ∧ 16 ≤ s.inLen.toNat ∧ s.inLen.toNat ≤ s.bufBytes ∧
    s.inLen.toNat - 16 ≤ Config.coreMaxPt

/-- `s` is at the seal step with the value `n` offered (R132), and its checks passed (R131). -/
def SealReady (s : State) (n : Nonce) : Prop :=
  s.phase = .waitRng ∧ s.entropyOffer = some n ∧ s.inLen.toNat ≤ s.bufBytes ∧ s.inLen.toNat ≤ Config.coreMaxPt ∧
    Config.bufBytesLegal s.bufBytes = true

/-- Two states that agree in everything but the operands of a command: the key, the lengths and the input. -/
def SameButOperands (s₁ s₂ : State) : Prop :=
  s₂ = { s₁ with key := s₂.key, keyLen := s₂.keyLen, inLen := s₂.inLen, inBuf := s₂.inBuf }

/-- `step` completes a command here: the Engine leaves a busy phase for IDLE. -/
def Completes (i : Instr) (s t : State) : Prop := exec i s = .next t ∧ s.phase ≠ .idle ∧ t.phase = .idle

/-- The command of `op`. -/
def opInstr : Op → Instr
  | .encrypt => .encrypt
  | .decrypt => .decrypt
  | .zeroize => .zeroize

/-- The step at the head of the schedule is the Host's transaction `a`: listed, or the next one of its program. -/
def HostNext (s : State) (a : Access) (rest : List Event) : Prop :=
  s.events = .host a :: rest ∨ (s.events = .program :: rest ∧ ∃ op p, s.program = op :: p ∧ op.tuple.access = a)

/-- `s` with the program `p`, and with `n` turns of the Host at it, then `rest`, as the steps still to come. -/
def running (s : State) (p : List HostOp) (n : Nat) (rest : List Event) : State :=
  { s with program := p, events := List.replicate n .program ++ rest }

/-- The step at the head of the schedule is the Engine's: it is listed, or the schedule lists nothing more (log entry 4). -/
def EngineNext (s : State) (rest : List Event) : Prop := s.events = .engine :: rest ∨ (s.events = [] ∧ rest = [])

end Sys2Proof.Claims

open Sys2Proof Sys2Proof.Machine Sys2Proof.Claims

/-! ## Reset -/

/-- R46: the state after reset. -/
def Obligations.ResetHoldsTheResetValues : Prop :=
  readReg State.reset .id = 0xAEAD0001#32 ∧ State.reset.statusWord = 0#32 ∧ State.reset.irqEnWord = 0#32 ∧
  State.reset.keyLen = 0#32 ∧ State.reset.nonceLen = 0#32 ∧ State.reset.inLen = 0#32 ∧ State.reset.outLen = 0#32 ∧
  State.reset.key = Vector.replicate 8 0#32 ∧ State.reset.nonce = Vector.replicate 3 0#32 ∧
  readReg State.reset .bufSize = BitVec.ofNat 32 State.reset.bufBytes ∧
  (∀ i, State.reset.inBuf.read i = 0#8) ∧ (∀ i, State.reset.outBuf.read i = 0#8) ∧ State.reset.phase = .idle ∧
  State.reset.expTag = Vector.replicate 16 0#8 ∧ State.reset.rxTag = Vector.replicate 16 0#8 ∧ State.reset.diff = 0#8 ∧
  State.reset.tagMatch = false ∧ State.reset.irq = false

/-- R220, and clauses of the model's own: reset, in any state and any phase, gives every register, buffer and hidden variable its reset
value, abandons the command in progress, leaves an offered Entropy value unconsumed and takes no CoreInit draw. That the Host's program,
bound names and `asExpected` are kept is the model's choice (log entry 13, DESIGN CHOICE), and so is that the verdict to be drawn is
kept (log entry 5) and that the working values are cleared with the rest (log entry 6); no rule says them. What the response port shows
after it is not stated. -/
def Obligations.ResetAbandonsTheCommand : Prop :=
  ∀ (s : State) (rest : List Event), s.events = .reset :: rest →
    ∃ resp, step s = .next { State.reset with
      bufBytes := s.bufBytes, entropyOffer := s.entropyOffer, coreInit := s.coreInit, busResp := resp, events := rest
      program := s.program, bound := s.bound, asExpected := s.asExpected }

/-! ## Encoding -/

/-- R100: decoding is total over the words, and exactly one case applies to each. -/
def Obligations.DecodeIsTotalOverWords : Prop :=
  ∀ w : Word, decodeWord w =
    if w = 0x00000000#32 then .ok .nop
    else if w = 0x00000001#32 then .ok .encrypt
    else if w = 0x00000002#32 then .ok .decrypt
    else if w = 0x00000003#32 then .ok .zeroize
    else .error (.illegalCommand w)

/-- R92: decode and encode agree in both directions, on words and on bytes; a word decodes exactly when it is well formed. -/
def Obligations.DecodeAndEncodeAgree : Prop :=
  (∀ i rest, decodeBytes (encodeBytes i ++ rest) = .ok (i, rest)) ∧ (∀ w i, decodeWord w = .ok i ↔ w = encode i) ∧
    (∀ w, CommandWord.wf w = true ↔ ∃ i, decodeWord w = .ok i)

/-- R90, R92: a few words written out from the fields OP and RSVD. -/
def Obligations.SampleWordsDecode : Prop :=
  decodeTableWord 32 0b00000000000000000000000000000000 = some .nop ∧
  decodeTableWord 32 0b00000000000000000000000000000001 = some .encrypt ∧
  decodeTableWord 32 0b00000000000000000000000000000010 = some .decrypt ∧
  decodeTableWord 32 0b00000000000000000000000000000011 = some .zeroize ∧
  decodeTableWord 32 0b00000000000000000000000000010001 = none ∧
  decodeTableWord 32 0b10000000000000000000000000000001 = none

/-! ## Issue and the step -/

/-- R23, R101: when the next transaction writes a word that decodes to `i` to CMD and no command is in progress, the step is `exec i`
with the transaction taken off the schedule and answered OKAY; the placed fetch word runs in the same way (the placing is the model's
choice, log entry 8). -/
def Obligations.StepRunsTheDecodedCommand : Prop :=
  (∀ (s : State) (rest : List Event) (w : Word) (i : Instr), s.phase = .idle → decodeWord w = .ok i →
    step (scheduled s (.host (.write .word 0x00004#18 w) :: rest)) = exec i (served s rest .okayWrite)) ∧
  (∀ (s : State) (w : Word) (i : Instr), decodeWord w = .ok i →
    step (s.withFetchWord 32 w.toNat) = exec i { s with phase := .idle, busResp := some .okayWrite })

/-- R40, R131, R132, R151, R182: the Engine's step is `exec` of the command in progress. That an empty schedule is the Engine's turn is
the model's choice (log entry 4). -/
def Obligations.EngineStepRunsTheCommandInProgress : Prop :=
  ∀ (s : State) (rest : List Event), EngineNext s rest →
    (∀ op, s.phase = .pending op → step s = exec (opInstr op) (scheduled s rest)) ∧
    (s.phase = .waitRng → step s = exec .encrypt (scheduled s rest)) ∧
    (s.phase = .idle → step s = .next (scheduled s rest))

/-- R101: what a write of a word to CMD does when no command is in progress, for every word; while one is in progress the write never
reaches the issue. -/
def Obligations.IssueActsByTheDecodedWord : Prop :=
  (∀ (s : State) (w : Word) (rest : List Event), s.phase ≠ .idle →
    step (scheduled s (.host (.write .word 0x00004#18 w) :: rest)) = .next (served s rest .slverr)) ∧
  ∀ (s : State) (w : Word), s.phase = .idle →
    (w = 0#32 → WriteDoes s 0x004 w id) ∧
    (w = 1#32 → WriteDoes s 0x004 w fun u =>
      { u with done := false, error := false, errCode := 0#4, phase := .pending .encrypt }) ∧
    (w = 2#32 → WriteDoes s 0x004 w fun u =>
      { u with done := false, error := false, errCode := 0#4, phase := .pending .decrypt }) ∧
    (w = 3#32 → WriteDoes s 0x004 w fun u =>
      { u with done := false, error := false, errCode := 0#4, phase := .pending .zeroize }) ∧
    (3 < w.toNat → WriteDoes s 0x004 w fun u => { u with done := true, error := true, errCode := 6#4 })

/-- R101: the accept of ENCRYPT, DECRYPT and ZEROIZE as `exec` gives it (log entry 9): it completes in every idle state and changes STATUS and the phase
alone, whatever the operands hold. -/
def Obligations.AcceptSetsPendingAndClearsStatus : Prop :=
  ∀ (s : State) (op : Op), s.phase = .idle →
    exec (opInstr op) s = .next { s with done := false, error := false, errCode := 0#4, phase := .pending op }

/-- R180: NOP changes no state at all, and while BUSY = 1 its write gets BusError as every CMD write does. -/
def Obligations.NopChangesNothing : Prop :=
  (∀ s : State, s.phase = .idle → exec .nop s = .next s) ∧
  (∀ (s : State) (rest : List Event), s.phase ≠ .idle →
    step (scheduled s (.host (.write .word 0x00004#18 0x00000000#32) :: rest)) = .next (served s rest .slverr))

/-- R71, R181 (the model's reading of `exec` on a command that is not the one in progress, log entry 9): it is turned away with SLVERR
and has no effect. -/
def Obligations.OtherCommandIsTurnedAway : Prop :=
  ∀ (s : State) (i : Instr), s.phase ≠ .idle → (∀ op, s.phase = .pending op → i ≠ opInstr op) →
    (s.phase = .waitRng → i ≠ .encrypt) → exec i s = .next { s with busResp := some .slverr }

/-! ## ENCRYPT -/

/-- R131: the ENCRYPT check step, every case of it. -/
def Obligations.EncryptCheckOutcomes : Prop :=
  ∀ s : State, s.phase = .pending .encrypt →
    (s.keyLen ≠ 32#32 → exec .encrypt s = .next (errorEnd .encrypt 1#4 s)) ∧
    (s.keyLen = 32#32 → s.bufBytes < s.inLen.toNat ∨ Config.coreMaxPt < s.inLen.toNat →
      exec .encrypt s = .next (errorEnd .encrypt 5#4 s)) ∧
    (s.keyLen = 32#32 → s.inLen.toNat ≤ s.bufBytes → s.inLen.toNat ≤ Config.coreMaxPt →
      exec .encrypt s = .next { s with phase := .waitRng })

/-- R132, R134: the ENCRYPT seal step. With an `ok` verdict OUT holds exactly Seal(k, n, P) under the drawn nonce n, and n is returned;
with a `fail` verdict the error completion is taken and n is discarded; until a value is offered the Engine holds. -/
def Obligations.EncryptSealsUnderTheDrawnNonce : Prop :=
  (∀ s : State, s.phase = .waitRng → s.entropyOffer = none → exec .encrypt s = .next s) ∧
  ∀ (s : State) (n : Nonce), SealReady s n →
    (s.coreInit = .ok → ∃ out, Contains out (sealRef chip s.keyBytes n s.plaintext) ∧
      exec .encrypt s = .next (sealClear { successEnd out (s.inLen.toNat + 16) s with
        nonce := #v[littleEndian n[0] n[1] n[2] n[3], littleEndian n[4] n[5] n[6] n[7], littleEndian n[8] n[9] n[10] n[11]]
        nonceLen := 12#32, entropyOffer := none })) ∧
    (s.coreInit = .fail →
      exec .encrypt s = .next (sealClear { errorEnd .encrypt 4#4 s with entropyOffer := none }))

/-- R133: the nonce of the seal is exactly the drawn value, and it is the one returned; whatever the Host wrote to NONCE0-NONCE2 or
NONCE_LEN before ENCRYPT is neither read nor used. -/
def Obligations.EncryptIgnoresTheHostNonce : Prop :=
  (∀ (s : State) (n : Nonce), SealReady s n → s.coreInit = .ok → ∃ t, exec .encrypt s = .next t ∧ t.nonceBytes = n ∧
    t.outBuf.slice 0 t.outLen.toNat = sealRef chip s.keyBytes n s.plaintext) ∧
  ∀ (s t : State) (ws : Vector Word 3) (len : Word), Completes .encrypt s t →
    exec .encrypt { s with nonce := ws, nonceLen := len } = .next t

/-- R133 under the named property EntropyFresh of R120 (spec/95_test_vectors.md X7): ENCRYPTs whose Entropy draws are pairwise distinct
return pairwise distinct nonces. -/
def Obligations.FreshDrawsGiveDistinctNonces : Prop :=
  ∀ h : List (State × Nonce), EntropyFresh (h.map Prod.snd) → (∀ x ∈ h, SealReady x.1 x.2 ∧ x.1.coreInit = .ok) →
    ∃ ts : List State, List.Forall₂ (fun x t => exec .encrypt x.1 = .next t) h ts ∧ (ts.map State.nonce).Nodup

/-- R136: every ENCRYPT error completion (codes 1, 4, 5) leaves OUT all zero, OUT_LEN = 0, NONCE0-NONCE2 = 0 and NONCE_LEN = 0, besides
the STATUS and the zeroization of R197. -/
def Obligations.EncryptErrorLeavesNoOutput : Prop :=
  ∀ s t : State, Completes .encrypt s t → t.error = true →
    (∀ i, t.outBuf.read i = 0#8) ∧ t.outLen = 0#32 ∧ t.nonce = Vector.replicate 3 0#32 ∧ t.nonceLen = 0#32 ∧
      (t.errCode = 1#4 ∨ t.errCode = 4#4 ∨ t.errCode = 5#4) ∧ t.done = true ∧ t.key = Vector.replicate 8 0#32 ∧
      t.keyLen = 0#32 ∧ (∀ i, t.inBuf.read i = 0#8) ∧ t.inLen = 0#32

/-- R213: without an offered value the Engine holds in WAIT_RNG for any number of its turns: there is no timeout and no error. -/
def Obligations.EncryptHoldsWithoutEntropy : Prop :=
  ∀ (s : State) (k : Nat), s.phase = .waitRng → s.entropyOffer = none →
    Sys2Proof.core.run k (scheduled s (List.replicate k .engine)) = .next (scheduled s []) ∧ exec .encrypt s = .next s

/-- R123: an Entropy value is consumed only by the seal step, which needs WAIT_RNG and ends the command, so each ENCRYPT consumes at most
one; no other step of any agent consumes one; and WAIT_RNG is entered only after the checks of R131 pass. -/
def Obligations.EntropyIsConsumedOnlyBySealing : Prop :=
  ∀ s t : State, step s = .next t →
    (t.phase = .waitRng → s.phase ≠ .waitRng →
      s.phase = .pending .encrypt ∧ s.keyLen = 32#32 ∧ s.inLen.toNat ≤ s.bufBytes ∧ s.inLen.toNat ≤ Config.coreMaxPt) ∧
    (t.entropyOffer = s.entropyOffer ∨ (∃ o rest, s.events = .entropy o :: rest ∧ t = { s with events := rest, entropyOffer := o }) ∨
      (s.phase = .waitRng ∧ s.entropyOffer.isSome = true ∧ t.entropyOffer = none ∧ t.phase = .idle))

/-! ## DECRYPT -/

/-- R193: what DECRYPT reports, in order: key length, nonce length, length, truncation, core verdict, tag mismatch. Each is a whole error
completion with the datapath cleared. -/
def Obligations.DecryptReportsTheFirstError : Prop :=
  ∀ s : State, s.phase = .pending .decrypt →
    let tooLong := s.bufBytes < s.inLen.toNat ∨ (16 ≤ s.inLen.toNat ∧ Config.coreMaxPt < s.inLen.toNat - 16)
    (s.keyLen ≠ 32#32 → exec .decrypt s = .next (tagsClear (errorEnd .decrypt 1#4 s))) ∧
    (s.keyLen = 32#32 → s.nonceLen ≠ 12#32 → exec .decrypt s = .next (tagsClear (errorEnd .decrypt 2#4 s))) ∧
    (s.keyLen = 32#32 → s.nonceLen = 12#32 → tooLong → exec .decrypt s = .next (tagsClear (errorEnd .decrypt 5#4 s))) ∧
    (s.keyLen = 32#32 → s.nonceLen = 12#32 → ¬ tooLong → s.inLen.toNat < 16 →
      exec .decrypt s = .next (tagsClear (errorEnd .decrypt 3#4 s))) ∧
    (s.keyLen = 32#32 → s.nonceLen = 12#32 → ¬ tooLong → 16 ≤ s.inLen.toNat → s.coreInit = .fail →
      exec .decrypt s = .next (tagsClear (errorEnd .decrypt 4#4 s))) ∧
    (s.keyLen = 32#32 → s.nonceLen = 12#32 → ¬ tooLong → 16 ≤ s.inLen.toNat → s.coreInit = .ok →
      tagFor chip s.keyBytes s.nonceBytes s.body ≠ s.receivedTag →
      exec .decrypt s = .next (tagsClear (errorEnd .decrypt 3#4 s)))

/-- R156: when the tags are equal, and only then, DECRYPT commits Dec(k, n, C), zero in every higher OUT byte. -/
def Obligations.DecryptCommitsOnMatch : Prop :=
  (∀ s t : State, s.phase = .pending .decrypt → exec .decrypt s = .next t → t.error = false →
    tagFor chip s.keyBytes s.nonceBytes s.body = s.receivedTag) ∧
  ∀ s : State, DecryptReady s → s.coreInit = .ok → tagFor chip s.keyBytes s.nonceBytes s.body = s.receivedTag →
    ∃ out, Contains out (dec chip s.keyBytes s.nonceBytes s.body) ∧
      exec .decrypt s = .next (tagsClear (successEnd out (s.inLen.toNat - 16) s))

/-- R154: DIFF is the OR of the byte-wise XORs, MATCH says that it is zero, and that is equality of the two tags. -/
def Obligations.ComparisonIsTagEquality : Prop :=
  ∀ s : State,
    (∀ b, (compareTags s).diff.getLsbD b = true ↔ ∃ t : Fin 16, (s.expTag[t] ^^^ s.rxTag[t]).getLsbD b = true) ∧
    ((compareTags s).tagMatch = true ↔ (compareTags s).diff = 0#8) ∧
    ((compareTags s).tagMatch = true ↔ ∀ t : Fin 16, s.expTag[t] = s.rxTag[t])

/-- R163: DECRYPT's comparison logic implements the reference open. -/
def Obligations.DecryptImplementsReferenceOpen : Prop :=
  ∀ s : State, DecryptReady s → s.coreInit = .ok →
    (∀ P, (∃ t, exec .decrypt s = .next t ∧ t.error = false ∧ t.outBuf.slice 0 t.outLen.toNat = P) ↔
      openRef chip s.keyBytes s.nonceBytes (s.inBuf.slice 0 s.inLen.toNat) = some P) ∧
    ((∃ t, exec .decrypt s = .next t ∧ t.error = true ∧ t.errCode = 3#4) ↔
      openRef chip s.keyBytes s.nonceBytes (s.inBuf.slice 0 s.inLen.toNat) = none)

/-- R164: what ENCRYPT seals, a DECRYPT under the same key and the returned nonce opens to the same plaintext. -/
def Obligations.SealedPlaintextDecryptsBack : Prop :=
  ∀ (s u : State) (n : Nonce), SealReady s n → s.inLen.toNat + 16 ≤ s.bufBytes → s.coreInit = .ok →
    ∃ t, exec .encrypt s = .next t ∧ t.error = false ∧
      (u.phase = .pending .decrypt → u.key = s.key → u.keyLen = 32#32 → u.nonce = t.nonce → u.nonceLen = 12#32 →
        u.inBuf.slice 0 t.outLen.toNat = t.outBuf.slice 0 t.outLen.toNat → u.inLen = t.outLen → u.bufBytes = s.bufBytes →
        u.coreInit = .ok →
        ∃ v, exec .decrypt u = .next v ∧ v.error = false ∧ v.outLen = s.inLen ∧ v.outBuf.slice 0 v.outLen.toNat = s.plaintext)

/-- R165, its first half: flip any one bit of the received tag of an input that would verify, and DECRYPT fails under every core. -/
def Obligations.TagBitFlipIsAlwaysRejected : Prop :=
  ∀ (s : State) (t j : Nat), DecryptReady s → s.inBuf.wf = true → s.coreInit = .ok →
    tagFor chip s.keyBytes s.nonceBytes s.body = s.receivedTag → t < 16 → j < 8 →
    let a := s.inLen.toNat - 16 + t
    exec .decrypt { s with inBuf := s.inBuf.write a (s.inBuf.read a ^^^ (1#8 <<< j)) } =
      .next (tagsClear (errorEnd .decrypt 3#4 s))

/-- R165, its second half: a one-bit change of the body, the nonce or the key gives AUTHENTICATION_FAILURE under the named property for
it (R120). Stated of the DECRYPT command under every parameter set `p`, since the chip's own core is opaque; `exec` is its instance at
`Config.params`. -/
def Obligations.SensitiveCoresRejectOneBitChanges : Prop :=
  (∀ s : State, exec .decrypt s = .next (decryptCommand Config.params s)) ∧
  ∀ (p : Params) (s s' : State), s.phase = .pending .decrypt → s.keyLen = 32#32 → s.nonceLen = 12#32 → 16 ≤ s.inLen.toNat →
    s.inLen.toNat ≤ s.bufBytes → s.inLen.toNat - 16 ≤ p.coreMaxPt →
    tagFor p.core s.keyBytes s.nonceBytes s.body = s.receivedTag →
    s' = { s with key := s'.key, nonce := s'.nonce, inBuf := s'.inBuf } → s'.receivedTag = s.receivedTag →
    coreInitDraw p s' = .ok →
    ((TagSensitiveC p.core s.keyBytes s.nonceBytes ∧ FlipsOneBit s.body s'.body ∧ s'.nonce = s.nonce ∧ s'.key = s.key) ∨
      (TagSensitiveN p.core s.keyBytes s.body ∧ s'.body = s.body ∧
        FlipsOneBit s.nonceBytes.toList s'.nonceBytes.toList ∧ s'.key = s.key) ∨
      (TagSensitiveK p.core s.nonceBytes s.body ∧ s'.body = s.body ∧ s'.nonce = s.nonce ∧
        FlipsOneBit s.keyBytes.toList s'.keyBytes.toList)) →
    decryptCommand p s' = tagsClear (errorEnd .decrypt 3#4 s')

/-- R158, R199: two commands in states that differ only in the operands, and that end in an error with the same code, end in the same
state: nothing tells the sub-causes, the keys or the inputs apart. -/
def Obligations.ErrorsRevealOnlyTheirCode : Prop :=
  ∀ (i : Instr) (s₁ s₂ t₁ t₂ : State), SameButOperands s₁ s₂ → Completes i s₁ t₁ → Completes i s₂ t₂ →
    t₁.error = true → t₂.error = true → t₁.errCode = t₂.errCode → t₁ = t₂

/-- R168: DECRYPT never writes NONCE0-NONCE2 or NONCE_LEN, on success and on every error path alike. -/
def Obligations.DecryptNeverWritesTheNonce : Prop :=
  ∀ s : State, ∃ t, exec .decrypt s = .next t ∧ t.nonce = s.nonce ∧ t.nonceLen = s.nonceLen

/-! ## Completions -/

/-- R198: every ENCRYPT and DECRYPT completion, success and error, zeroizes the key, KEY_LEN, IN and IN_LEN. -/
def Obligations.CompletionZeroizesTheOperands : Prop :=
  ∀ (i : Instr) (s t : State), i = .encrypt ∨ i = .decrypt → Completes i s t →
    t.key = Vector.replicate 8 0#32 ∧ t.keyLen = 0#32 ∧ (∀ a, t.inBuf.read a = 0#8) ∧ t.inLen = 0#32

/-- R182, and clauses of the model's own: the ZEROIZE step always completes, and the state after it equals the reset state except for
IRQ_EN and STATUS.DONE = 1 (and the constant BUF_SIZE and the other agents' ports). That the Host's program, bound names and `asExpected`
are kept is the model's choice (log entry 13, DESIGN CHOICE), and so is that the last bus response is held (log entry 7), that the
verdict to be drawn and the Entropy offer are kept (log entries 5 and 12), and that the working values are cleared with the tags (log
entry 6); no rule says them. -/
def Obligations.ZeroizeEqualsResetButIrqEnAndDone : Prop :=
  ∀ s : State, s.phase = .pending .zeroize →
    exec .zeroize s = .next { State.reset with
      done := true, doneIE := s.doneIE, bufBytes := s.bufBytes
      entropyOffer := s.entropyOffer, coreInit := s.coreInit, busResp := s.busResp, events := s.events
      program := s.program, bound := s.bound, asExpected := s.asExpected }

/-- R184: the STATUS word after each completion, by its error code, and while busy; and that a W1C of DONE takes bit 1 off it. -/
def Obligations.StatusWordsOfTheOutcomes : Prop :=
  (∀ (i : Instr) (s t : State), Completes i s t →
    (t.error = false ∧ t.statusWord = 0x00000002#32) ∨ (t.errCode = 1#4 ∧ t.statusWord = 0x00000106#32) ∨
    (t.errCode = 2#4 ∧ t.statusWord = 0x00000206#32) ∨ (t.errCode = 3#4 ∧ t.statusWord = 0x00000306#32) ∨
    (t.errCode = 4#4 ∧ t.statusWord = 0x00000406#32) ∨ (t.errCode = 5#4 ∧ t.statusWord = 0x00000506#32)) ∧
  (∀ s : State, s.Inv → (∀ op, s.phase = .pending op → s.statusWord = 0x00000001#32) ∧
    (s.phase = .waitRng → s.statusWord = 0x00000009#32)) ∧
  (∀ (s : State) (w : Word) (rest : List Event), s.phase = .idle → 3 < w.toNat → ∃ t,
    step (scheduled s (.host (.write .word 0x00004#18 w) :: rest)) = .next t ∧ t.statusWord = 0x00000606#32) ∧
  (∀ (s : State) (v : Word) (rest : List Event), v.getLsbD 1 = true → ∃ t,
    step (scheduled s (.host (.write .word 0x00008#18 v) :: rest)) = .next t ∧ t.statusWord = s.statusWord &&& 0xFFFFFFFD#32)

/-- R200: the interrupt: every completion, the immediate one of an illegal command too, sets DONE and raises irq exactly when DONE_IE is
set; a W1C of DONE, an accept and reset drop it; a write of IRQ_EN masks or unmasks it without changing DONE. -/
def Obligations.InterruptFollowsDoneAndEnable : Prop :=
  (∀ s : State, s.irq = true ↔ s.done = true ∧ s.doneIE = true) ∧
  (∀ (i : Instr) (s t : State), Completes i s t → t.irq = s.doneIE ∧ t.done = true) ∧
  (∀ (s : State) (rest : List Event) (w : Word), s.phase = .idle → 3 < w.toNat → ∃ t,
    step (scheduled s (.host (.write .word 0x00004#18 w) :: rest)) = .next t ∧ t.irq = s.doneIE ∧ t.done = true) ∧
  (∀ (s : State) (rest : List Event) (v : Word), ∃ t,
    step (scheduled s (.host (.write .word 0x0000C#18 v) :: rest)) = .next t ∧ t.irq = (s.done && v.getLsbD 0) ∧ t.done = s.done) ∧
  (∀ (s : State) (rest : List Event) (v : Word), v.getLsbD 1 = true → ∃ t,
    step (scheduled s (.host (.write .word 0x00008#18 v) :: rest)) = .next t ∧ t.irq = false ∧ t.doneIE = s.doneIE) ∧
  (∀ (s : State) (op : Op), s.phase = .idle → ∃ t, exec (opInstr op) s = .next t ∧ t.irq = false) ∧
  (∀ (s : State) (rest : List Event), ∃ t, step (scheduled s (.reset :: rest)) = .next t ∧ t.irq = false)

/-- R230: once accepted, a command completes within two turns of the Engine, ENCRYPT under the premise that a value is offered. That an
empty schedule gives the Engine its turns is the model's choice (log entry 4). -/
def Obligations.CommandsCompleteWithinTwoTurns : Prop :=
  ∀ (s : State) (op : Op), s.phase = .pending op → s.events = [] → (op = .encrypt → s.entropyOffer.isSome = true) →
    ∃ t, Sys2Proof.core.run 2 s = .next t ∧ t.phase = .idle ∧ t.done = true

/-! ## The bus -/

/-- R68: what a word read returns, for every offset that is served, and the bus error at the others; no read has a side effect. -/
def Obligations.ReadsReturnTheMappedWord : Prop :=
  ∀ s : State, Config.bufBytesLegal s.bufBytes = true →
    ReadsAs s 0x000 0xAEAD0001#32 ∧ ReadsAs s 0x004 0#32 ∧ ReadsAs s 0x008 s.statusWord ∧
    ReadsAs s 0x00C (if s.doneIE then 1#32 else 0#32) ∧ ReadsAs s 0x010 s.keyLen ∧ ReadsAs s 0x014 s.nonceLen ∧
    ReadsAs s 0x018 s.inLen ∧ ReadsAs s 0x01C s.outLen ∧ (∀ j : Fin 8, ReadsAs s (0x020 + 4 * j) 0#32) ∧
    (∀ j : Fin 3, ReadsAs s (0x040 + 4 * j) s.nonce[j]) ∧ ReadsAs s 0x0F0 (BitVec.ofNat 32 s.bufBytes) ∧
    (∀ a, a % 4 = 0 → ReservedOffset a → ReadsAs s a 0#32) ∧
    (∀ (a : Addr) (rest : List Event), a.toNat % 4 = 0 → Unmapped s.bufBytes a.toNat →
      step (scheduled s (.host (.read .word a) :: rest)) = .next (served s rest .slverr)) ∧
    (∀ o, o % 4 = 0 → o < s.bufBytes → ReadsAs s (0x10000 + o) (if s.phase = .idle then
      littleEndian (s.inBuf.read o) (s.inBuf.read (o + 1)) (s.inBuf.read (o + 2)) (s.inBuf.read (o + 3)) else 0#32)) ∧
    (∀ o, o % 4 = 0 → o < s.bufBytes + 16 → ReadsAs s (0x20000 + o) (if s.phase = .idle then
      littleEndian (s.outBuf.read o) (s.outBuf.read (o + 1)) (s.outBuf.read (o + 2)) (s.outBuf.read (o + 3)) else 0#32))

/-- R69: what a word write does, for every offset but CMD and IN, when no lock refuses it: exactly one register changes, or none. -/
def Obligations.WritesChangeOneRegister : Prop :=
  ∀ (s : State) (v : Word), Config.bufBytesLegal s.bufBytes = true →
    WriteDoes s 0x008 v (fun u => if v.getLsbD 1 = true then { u with done := false } else u) ∧
    WriteDoes s 0x00C v (fun u => { u with doneIE := v.getLsbD 0 }) ∧
    (s.phase = .idle →
      WriteDoes s 0x010 v (fun u => { u with keyLen := v }) ∧ WriteDoes s 0x014 v (fun u => { u with nonceLen := v }) ∧
      WriteDoes s 0x018 v (fun u => { u with inLen := v }) ∧
      (∀ j : Fin 8, WriteDoes s (0x020 + 4 * j) v fun u => { u with key := u.key.set j v }) ∧
      (∀ j : Fin 3, WriteDoes s (0x040 + 4 * j) v fun u => { u with nonce := u.nonce.set j v })) ∧
    WriteDoes s 0x000 v id ∧ WriteDoes s 0x01C v id ∧ WriteDoes s 0x0F0 v id ∧
    (∀ a, a % 4 = 0 → ReservedOffset a → WriteDoes s a v id) ∧
    (∀ o, o % 4 = 0 → o < s.bufBytes + 16 → WriteDoes s (0x20000 + o) v id)

/-- R66, R69: a word written to IN when no command is in progress lands as its four bytes, least significant first; every other byte of IN
and everything else is unchanged. -/
def Obligations.InWordWriteStoresFourBytes : Prop :=
  ∀ (s : State) (o : Nat) (v : Word) (rest : List Event), Config.bufBytesLegal s.bufBytes = true → s.inBuf.wf = true →
    s.phase = .idle → o % 4 = 0 → o < s.bufBytes → ∃ m,
      step (scheduled s (.host (.write .word (BitVec.ofNat 18 (0x10000 + o)) v) :: rest)) =
        .next { served s rest .okayWrite with inBuf := m } ∧
      (∀ i, i < 4 → m.read (o + i) = v.extractLsb' (8 * i) 8) ∧ (∀ a, a < o ∨ o + 4 ≤ a → m.read a = s.inBuf.read a)

/-- R195, R70: a transaction in the window gets SLVERR exactly when one of the four causes holds; then it has no effect, and a read gets
data 0x00000000. -/
def Obligations.BusErrorExactlyOnTheFourCauses : Prop :=
  ∀ (s : State) (a : Access) (rest : List Event), Config.bufBytesLegal s.bufBytes = true → accessAddr a < 0x30000 →
    let causes := Unmapped s.bufBytes (accessAddr a) ∨ accessSize a ≠ .word ∨ accessAddr a % 4 ≠ 0 ∨
      (s.phase ≠ .idle ∧ (∃ z b v, a = .write z b v) ∧ LockedOffset s.bufBytes (accessAddr a))
    (causes → step (scheduled s (.host a :: rest)) = .next (served s rest .slverr) ∧
      ∀ z b, a = .read z b → responseData a .slverr = some 0#32) ∧
    (¬ causes → ∃ t, step (scheduled s (.host a :: rest)) = .next t ∧ t.busResp ≠ some .slverr)

/-- R63: an unmapped offset gets SLVERR with no effect; an address beyond the window is not decoded and leaves the engine as it was (what
the Host sees of it is outside the spec, and not stated). -/
def Obligations.AddressesBeyondTheMap : Prop :=
  ∀ (s : State) (a : Access) (rest : List Event), Config.bufBytesLegal s.bufBytes = true →
    (Unmapped s.bufBytes (accessAddr a) → step (scheduled s (.host a :: rest)) = .next (served s rest .slverr)) ∧
    (0x30000 ≤ accessAddr a → ∃ resp, step (scheduled s (.host a :: rest)) = .next (served s rest resp))

/-- R71, its parts (a) and (b): while a command is in progress a write to a locked place raises BusError and changes nothing, and IN and
OUT read as zero. -/
def Obligations.BusyLocksOperandsAndHidesBuffers : Prop :=
  ∀ (s : State) (rest : List Event), Config.bufBytesLegal s.bufBytes = true → s.phase ≠ .idle →
    (∀ (a : Addr) (v : Word), a.toNat % 4 = 0 → LockedOffset s.bufBytes a.toNat →
      step (scheduled s (.host (.write .word a v) :: rest)) = .next (served s rest .slverr)) ∧
    (∀ a : Addr, a.toNat % 4 = 0 → ((0x10000 ≤ a.toNat ∧ a.toNat < 0x10000 + s.bufBytes) ∨
        (0x20000 ≤ a.toNat ∧ a.toNat < 0x20000 + s.bufBytes + 16)) →
      step (scheduled s (.host (.read .word a) :: rest)) = .next (served s rest (.okayRead 0#32)))

/-- R62: the reserved offsets of the register block read as zero and ignore writes, with OKAY, even while BUSY = 1. -/
def Obligations.ReservedOffsetsReadZeroIgnoreWrites : Prop :=
  ∀ (s : State) (a : Nat) (v : Word), a % 4 = 0 → ReservedOffset a → ReadsAs s a 0#32 ∧ WriteDoes s a v id

/-- R29: STATUS bits 7:4 and 31:12 read 0, a write to STATUS changes only DONE and is accepted with OKAY even while BUSY = 1, and a read
of STATUS has no side effect. -/
def Obligations.StatusWritesChangeOnlyDone : Prop :=
  ∀ (s : State) (v : Word),
    (∀ b, 4 ≤ b ∧ b ≤ 7 ∨ 12 ≤ b → s.statusWord.getLsbD b = false) ∧
    WriteDoes s 0x008 v (fun u => { u with done := u.done && !v.getLsbD 1 }) ∧ ReadsAs s 0x008 s.statusWord

/-- R24-R28: the fields of the STATUS word: BUSY is 1 exactly when the phase is not IDLE, RNG_WAIT exactly when it is WAIT_RNG. -/
def Obligations.StatusFieldsReadThePhase : Prop :=
  ∀ s : State, (s.statusWord.getLsbD 0 = true ↔ s.phase ≠ .idle) ∧ s.statusWord.getLsbD 1 = s.done ∧
    s.statusWord.getLsbD 2 = s.error ∧ (s.statusWord.getLsbD 3 = true ↔ s.phase = .waitRng) ∧
    s.statusWord.extractLsb' 8 4 = s.errCode

/-- R66: the byte order of the key and the nonce: byte 4j + i is bits [8i+7:8i] of word j. -/
def Obligations.KeyAndNonceAreLittleEndian : Prop :=
  ∀ (s : State) (i : Fin 4),
    (∀ j : Fin 8, s.keyBytes.toList[4 * j.val + i.val]? = some (s.key[j].extractLsb' (8 * i.val) 8)) ∧
    (∀ j : Fin 3, s.nonceBytes.toList[4 * j.val + i.val]? = some (s.nonce[j].extractLsb' (8 * i.val) 8))

/-- R98: LOADKEY on an idle engine: its nine transactions leave the 32 bytes as the key and KEY_LEN = 32, and nothing else changed. -/
def Obligations.LoadKeyLoadsTheKey : Prop :=
  ∀ (s : State) (k : List Byte) (p : List HostOp) (rest : List Event), s.phase = .idle → k.length = 32 → ∃ ws,
    Sys2Proof.core.run 9 (running s (Pseudo.expand (.loadKey k) ++ p) 9 rest) =
      .next { served s rest .okayWrite with program := p, key := ws, keyLen := 32#32 } ∧
    ({ s with key := ws } : State).keyBytes.toList = k

/-- R98: LOADNONCE on an idle engine. -/
def Obligations.LoadNonceLoadsTheNonce : Prop :=
  ∀ (s : State) (n : List Byte) (p : List HostOp) (rest : List Event), s.phase = .idle → n.length = 12 → ∃ ws,
    Sys2Proof.core.run 4 (running s (Pseudo.expand (.loadNonce n) ++ p) 4 rest) =
      .next { served s rest .okayWrite with program := p, nonce := ws, nonceLen := 12#32 } ∧
    ({ s with nonce := ws } : State).nonceBytes.toList = n

/-- R98: LOADIN of any byte string that fits, on an idle engine: IN holds the bytes from offset 0 on, IN_LEN is their number, and nothing
outside IN and IN_LEN changes. -/
def Obligations.LoadInLoadsTheInput : Prop :=
  ∀ (s : State) (bs : List Byte) (p : List HostOp) (rest : List Event), Config.bufBytesLegal s.bufBytes = true → s.inBuf.wf = true →
    s.phase = .idle → bs.length ≤ s.bufBytes → ∃ m,
      Sys2Proof.core.run ((bs.length + 3) / 4 + 1) (running s (Pseudo.expand (.loadIn bs) ++ p) ((bs.length + 3) / 4 + 1) rest) =
        .next { served s rest .okayWrite with program := p, inBuf := m, inLen := BitVec.ofNat 32 bs.length } ∧
      m.slice 0 bs.length = bs ∧ (∀ a, 4 * ((bs.length + 3) / 4) ≤ a → m.read a = s.inBuf.read a)

/-- R97: a turn of the Host at its program is the bus transaction of the operation at its head, and then: WR and WRX are done; RD is done
and binds the data of the read to its name; POLL is done if `(data AND mask) = val` for the data of this read, and otherwise stays to
read again. `asExpected` records whether the response was the expected one, and a transaction at or beyond 0x30000 counts as unexpected, a WRX
too; a read there gives no data, so it binds nothing and meets no condition (log entry 13, the model's choice; R63 leaves it open). That
after an unexpected response, SLVERR in the window too, WR, WRX and RD are done all the same, a POLL goes by the data, and the program
goes on is the model's choice as well (log entry 13, DESIGN CHOICE; R234 leaves the Host's reaction open), and no clause of R97. -/
def Obligations.HostProgramRunsItsOperations : Prop :=
  ∀ (s : State) (p : List HostOp) (rest : List Event),
    (∀ off val, ∃ t r, step (scheduled s (.host (.write .word off val) :: rest)) = .next t ∧ t.busResp = some r ∧
      step (running s (.wr off val :: p) 1 rest) = .next { t with program := p, asExpected := s.asExpected && r == .okayWrite } ∧
      step (running s (.wrx off val :: p) 1 rest) = .next { t with program := p, asExpected := s.asExpected && r == .slverr }) ∧
    (∀ off name mask val, ∃ t r, step (scheduled s (.host (.read .word off) :: rest)) = .next t ∧ t.busResp = some r ∧
      (∀ data, responseData (.read .word off) r = some data →
        step (running s (.rd off name :: p) 1 rest) = .next { t with
          program := p, bound := (name, data) :: s.bound, asExpected := s.asExpected && r == .okayRead data } ∧
        step (running s (.poll off mask val :: p) 1 rest) = .next { t with
          program := if data &&& mask = val then p else .poll off mask val :: p
          asExpected := s.asExpected && r == .okayRead data }) ∧
      (responseData (.read .word off) r = none →
        step (running s (.rd off name :: p) 1 rest) = .next { t with program := p, asExpected := false } ∧
        step (running s (.poll off mask val :: p) 1 rest) = .next { t with
          program := .poll off mask val :: p, asExpected := false })) ∧
    step (running s [] 1 rest) = .next { scheduled s rest with program := [] }

/-- R99: the encoding of a program is the list of its transactions in order; each is one tuple, and a POLL is one R tuple repeated until
its condition holds, for the data `ds` that its reads give. -/
def Obligations.ProgramEncodesAsItsTransactions : Prop :=
  (∀ off val, encodeProgram [.wr off val] [] = some [⟨.W, off, some val, .okay⟩] ∧
    encodeProgram [.wrx off val] [] = some [⟨.W, off, some val, .slverr⟩]) ∧
  (∀ off name, encodeProgram [.rd off name] [] = some [⟨.R, off, none, .okay⟩]) ∧
  (∀ off mask val ds ts, encodeProgram [.poll off mask val] ds = some ts ↔
    ts = List.replicate ds.length ⟨.R, off, none, .okay⟩ ∧
      ∃ before last, ds = before ++ [last] ∧ last &&& mask = val ∧ ∀ d ∈ before, d &&& mask ≠ val) ∧
  (∀ p q ds es ts us, encodeProgram p ds = some ts → encodeProgram q es = some us →
    encodeProgram (p ++ q) (ds ++ es) = some (ts ++ us))

/-- R97, R98, R230: WAITDONE keeps reading while its command is in progress and ends at the first read after the completion. -/
def Obligations.WaitDoneEndsAtTheCompletion : Prop :=
  ∀ (s : State) (op : Op) (p : List HostOp) (rest : List Event), s.Inv → s.phase = .pending op →
    (op = .encrypt → s.entropyOffer.isSome = true) →
    (∀ n, ∃ u, Sys2Proof.core.run n (running s (Pseudo.expand .waitDone ++ p) n rest) = .next u ∧
      u.program = Pseudo.expand .waitDone ++ p ∧ u.phase = .pending op) ∧
    (∃ t, Sys2Proof.core.run 3 (running s (Pseudo.expand .waitDone ++ p) 0 (.engine :: .engine :: .program :: rest)) = .next t ∧
      t.program = p ∧ t.done = true ∧ t.phase = .idle)

/-! ## The whole machine -/

/-- No step of the machine, and no command in any state, ends in a fault or a refusal. This is log entry 14, DEDUCED and no rule of the
spec: it is inferred from R191 (no traps), R70 (a bus error is a response), R197 (a command error is a completion) and R213 (starvation
is a wait). -/
def Obligations.TheMachineNeverStops : Prop := (∀ s, Goes (step s)) ∧ ∀ i s, Goes (exec i s)

/-- R41: the reset state meets the invariant. -/
def Obligations.ResetMeetsTheInvariant : Prop := State.reset.Inv

/-- R41 with the canonical form and size of the buffers, the cleared datapath and the locked operands of WAIT_RNG: every step of every
agent keeps the invariant. -/
def Obligations.EveryStepKeepsTheInvariant : Prop := ∀ s t : State, s.Inv → step s = .next t → t.Inv

/-- R40: the phase changes along the listed transitions only, each by its own cause (`EngineNext` includes the empty schedule, log
entry 4). -/
def Obligations.PhaseFollowsItsTransitions : Prop :=
  ∀ s t : State, step s = .next t →
    t.phase = s.phase ∨
    ((∃ rest, s.events = .reset :: rest) ∧ t.phase = .idle) ∨
    (∃ op rest, HostNext s (.write .word 0x00004#18 (encode (opInstr op))) rest ∧ s.phase = .idle ∧ t.phase = .pending op) ∨
    ((∃ rest, EngineNext s rest) ∧
      ((s.phase = .pending .encrypt ∧ (t.phase = .waitRng ∨ t.phase = .idle)) ∨ (s.phase = .waitRng ∧ t.phase = .idle) ∨
        (s.phase = .pending .decrypt ∧ t.phase = .idle) ∨ (s.phase = .pending .zeroize ∧ t.phase = .idle)))

/-- R41, R42: while a command is in progress no step of any agent changes an operand, OUT or OUT_LEN; they keep the values they held
at the accept until the completion or reset. -/
def Obligations.OperandsAreFixedWhileBusy : Prop :=
  ∀ s t : State, step s = .next t → s.phase ≠ .idle → t.phase ≠ .idle →
    t.key = s.key ∧ t.keyLen = s.keyLen ∧ t.nonce = s.nonce ∧ t.nonceLen = s.nonceLen ∧ t.inLen = s.inLen ∧ t.inBuf = s.inBuf ∧
      t.outBuf = s.outBuf ∧ t.outLen = s.outLen

/-- R76: only a command accept or an illegal command, a completion or reset changes ERR_CODE, and only a completion or reset changes OUT
and OUT_LEN; NONCE0-NONCE2 and NONCE_LEN change only then or by the Host's own write to them (R36). -/
def Obligations.ResultsChangeOnlyAtCompletionOrReset : Prop :=
  ∀ s t : State, step s = .next t → (¬ ∃ rest, s.events = .reset :: rest) → ¬ (s.phase ≠ .idle ∧ t.phase = .idle) →
    t.outBuf = s.outBuf ∧ t.outLen = s.outLen ∧
    (t.errCode = s.errCode ∨ ∃ w rest, HostNext s (.write .word 0x00004#18 w) rest) ∧
    ((t.nonce = s.nonce ∧ t.nonceLen = s.nonceLen) ∨
      ∃ a v rest, HostNext s (.write .word a v) rest ∧ (0x040 ≤ a.toNat ∧ a.toNat ≤ 0x048 ∨ a.toNat = 0x014))

/-- R35, R205: the key cannot influence anything but itself, except through the steps that apply the core: run any other step with another
key, and the two results differ in the key at most. -/
def Obligations.KeyFlowsOnlyThroughTheCore : Prop :=
  ∀ (s t : State) (k : Vector Word 8), step s = .next t →
    ¬ ((∃ rest, EngineNext s rest) ∧ (s.phase = .waitRng ∨ s.phase = .pending .decrypt)) →
    ∃ k', step { s with key := k } = .next { t with key := k' }

/-- R83: IN bytes at or beyond IN_LEN do not affect any result, and every completion writes the OUT bytes at or beyond OUT_LEN as zero. -/
def Obligations.BytesPastTheLengthDoNotMatter : Prop :=
  ∀ (i : Instr) (s t : State), Completes i s t → s.Inv →
    (∀ m : Memory, (∀ a, a < s.inLen.toNat → m.read a = s.inBuf.read a) → exec i { s with inBuf := m } = .next t) ∧
    (∀ a, t.outLen.toNat ≤ a → t.outBuf.read a = 0#8)
end

