-- ==== Sys2Proof/Laws/Core.lean ====
section
/-! SUPPORT. The laws of the cipher core the engine relies on (R111-R115) and of the byte order (R66). -/

namespace Sys2Proof.Machine

/-- R111: `|Enc(k, n, P)| = |P|`. -/
@[simp] theorem length_enc (c : CipherCore) (k : Key) (n : Nonce) (P : List Byte) : (enc c k n P).length = P.length := by
  simp [enc]

/-- R112: `|Dec(k, n, C)| = |C|`. -/
@[simp] theorem length_dec (c : CipherCore) (k : Key) (n : Nonce) (C : List Byte) : (dec c k n C).length = C.length := by
  simp [dec]

/-- `Dec` on a byte string given with its length. -/
theorem dec_toList (c : CipherCore) (k : Key) (n : Nonce) {len : Nat} (v : Vector Byte len) :
    dec c k n v.toList = ((c.cipher k n len).symm v).toList := by
  obtain ⟨⟨l⟩, rfl⟩ := v
  rfl

/-- R112: `Dec(k, n, Enc(k, n, P)) = P`. -/
@[simp] theorem dec_enc (c : CipherCore) (k : Key) (n : Nonce) (P : List Byte) : dec c k n (enc c k n P) = P := by
  simp [enc, dec_toList]

/-- R114: `|Seal(k, n, P)| = |P| + 16`. -/
@[simp] theorem length_sealRef (c : CipherCore) (k : Key) (n : Nonce) (P : List Byte) :
    (sealRef c k n P).length = P.length + 16 := by
  simp [sealRef]

@[simp] theorem length_plaintext (s : State) : s.plaintext.length = s.inLen.toNat := by simp [State.plaintext, Memory.slice]

@[simp] theorem length_body (s : State) : s.body.length = s.inLen.toNat - 16 := by simp [State.body, Memory.slice]

@[simp] theorem toList_bytesOfFn (n : Nat) (f : Nat → Byte) : (bytesOfFn n f).toList = (List.range n).map f := rfl

/-- Bit `i` of `le32` lies in byte `i / 8` (R8, R66). -/
theorem getLsbD_le32 (b0 b1 b2 b3 : Byte) (i : Nat) : (le32 b0 b1 b2 b3).getLsbD i =
    if i < 8 then b0.getLsbD i else if i < 16 then b1.getLsbD (i - 8) else if i < 24 then b2.getLsbD (i - 16)
    else b3.getLsbD (i - 24) := by
  simp only [le32, wordOfBytes, BitVec.getLsbD_or, BitVec.getLsbD_shiftLeft, BitVec.getLsbD_setWidth]
  split_ifs with h0 h1 h2
  · simp [show i < 16 by omega, show i < 24 by omega, h0]; intros; omega
  · simp [h1, h0, show i < 24 by omega, show i < 32 by omega, BitVec.getLsbD_of_ge b0 i (by omega)]; intros; omega
  · simp [h2, h1, h0, show i < 32 by omega, BitVec.getLsbD_of_ge b0 i (by omega), BitVec.getLsbD_of_ge b1 (i - 8) (by omega)]
    intros; omega
  · rw [BitVec.getLsbD_of_ge b0 i (by omega), BitVec.getLsbD_of_ge b1 (i - 8) (by omega),
      BitVec.getLsbD_of_ge b2 (i - 16) (by omega)]
    by_cases h : i < 32
    · simp [h, h2]; intros; omega
    · simp [h, BitVec.getLsbD_of_ge b3 (i - 24) (by omega)]

@[simp] theorem byteOf_le32_0 (b0 b1 b2 b3 : Byte) : byteOf (le32 b0 b1 b2 b3) 0 = b0 := by
  apply BitVec.eq_of_getLsbD_eq; intro i hi
  simp [byteOf, getLsbD_le32, hi]

@[simp] theorem byteOf_le32_1 (b0 b1 b2 b3 : Byte) : byteOf (le32 b0 b1 b2 b3) 1 = b1 := by
  apply BitVec.eq_of_getLsbD_eq; intro i hi
  simp [byteOf, getLsbD_le32, hi, show 8 + i < 16 by omega]

@[simp] theorem byteOf_le32_2 (b0 b1 b2 b3 : Byte) : byteOf (le32 b0 b1 b2 b3) 2 = b2 := by
  apply BitVec.eq_of_getLsbD_eq; intro i hi
  simp [byteOf, getLsbD_le32, hi, show ¬ 16 + i < 8 by omega, show 16 + i < 24 by omega]

@[simp] theorem byteOf_le32_3 (b0 b1 b2 b3 : Byte) : byteOf (le32 b0 b1 b2 b3) 3 = b3 := by
  apply BitVec.eq_of_getLsbD_eq; intro i hi
  simp [byteOf, getLsbD_le32, hi, show ¬ 24 + i < 8 by omega, show ¬ 24 + i < 16 by omega, show ¬ 24 + i < 24 by omega]

/-- A word is the `le32` of its four bytes (R66). -/
@[simp] theorem le32_byteOf (w : Word) : le32 (byteOf w 0) (byteOf w 1) (byteOf w 2) (byteOf w 3) = w := by
  apply BitVec.eq_of_getLsbD_eq; intro i hi
  rw [getLsbD_le32]
  split_ifs with h0 h1 h2
  · simp [byteOf]; omega
  · simp [byteOf, show 8 + (i - 8) = i by omega]; omega
  · simp [byteOf, show 16 + (i - 16) = i by omega]; omega
  · simp [byteOf, show 24 + (i - 24) = i by omega]; omega

@[simp] theorem getElem_bytesOfFn (n : Nat) (f : Nat → Byte) (i : Nat) (hi : i < n) : (bytesOfFn n f)[i] = f i := by
  simp [bytesOfFn]

/-- The nonce read back from the words a seal returns is the drawn one (R133, R135). -/
theorem nonceBytes_of_nonceWords {s : State} {n : Nonce} (h : s.nonce = nonceWords n) : s.nonceBytes = n := by
  apply Vector.ext
  intro i hi
  simp only [State.nonceBytes, getElem_bytesOfFn, h, nonceWords, groupByte]
  interval_cases i <;> simp

/-! The operands read only the registers and bytes that hold them (R81, R83). -/

theorem keyBytes_congr {s s' : State} (h : s.key = s'.key) : s.keyBytes = s'.keyBytes := by simp [State.keyBytes, h]

theorem nonceBytes_congr {s s' : State} (h : s.nonce = s'.nonce) : s.nonceBytes = s'.nonceBytes := by
  simp [State.nonceBytes, h]

theorem plaintext_congr {s s' : State} (hl : s.inLen = s'.inLen)
    (h : ∀ a, a < s.inLen.toNat → s.inBuf.read a = s'.inBuf.read a) : s.plaintext = s'.plaintext := by
  simp only [State.plaintext, Memory.slice, ← hl, Nat.zero_add]
  exact List.map_congr_left fun a ha => h a (List.mem_range.mp ha)

theorem body_congr {s s' : State} (hl : s.inLen = s'.inLen)
    (h : ∀ a, a < s.inLen.toNat → s.inBuf.read a = s'.inBuf.read a) : s.body = s'.body := by
  simp only [State.body, Memory.slice, ← hl, Nat.zero_add]
  exact List.map_congr_left fun a ha => h a (by have := List.mem_range.mp ha; omega)

theorem receivedTag_congr {s s' : State} (hl : s.inLen = s'.inLen) (h16 : 16 ≤ s.inLen.toNat)
    (h : ∀ a, a < s.inLen.toNat → s.inBuf.read a = s'.inBuf.read a) : s.receivedTag = s'.receivedTag := by
  apply Vector.ext
  intro i hi
  simpa [State.receivedTag, ← hl] using h _ (by omega)

end Sys2Proof.Machine
end

