-- ==== Sys2Proof/Laws/Memory.lean ====
section
/-! SUPPORT. The laws of a buffer's contents: a read after a write, the canonical form, and whole-buffer rewrites. -/

namespace Sys2Proof.Machine

@[simp] theorem Memory.unlisted_eq : Memory.unlisted = 0#8 := rfl

@[simp] theorem Memory.read_nil (a : Nat) : Memory.read [] a = 0#8 := rfl

theorem Memory.wfFrom_cons {lo a : Nat} {b : Byte} {m : Memory} :
    Memory.wfFrom lo ((a, b) :: m) = true ↔ lo ≤ a ∧ b ≠ 0#8 ∧ Memory.wfFrom (a + 1) m = true := by
  simp [Memory.wfFrom, and_assoc]

/-- A canonical form from `lo` on is one from any lower bound on. -/
theorem Memory.wfFrom_mono {m : Memory} {lo lo' : Nat} (h : Memory.wfFrom lo m = true) (hle : lo' ≤ lo) :
    Memory.wfFrom lo' m = true := by
  cases m with
  | nil => rfl
  | cons c m =>
    obtain ⟨h₁, h₂, h₃⟩ := Memory.wfFrom_cons.mp h
    exact Memory.wfFrom_cons.mpr ⟨by omega, h₂, h₃⟩

/-- Below the bound of its canonical form a memory reads as zero. -/
theorem Memory.read_of_lt {m : Memory} {lo a : Nat} (h : Memory.wfFrom lo m = true) (ha : a < lo) : m.read a = 0#8 := by
  induction m generalizing lo with
  | nil => rfl
  | cons c m ih =>
    obtain ⟨a', b⟩ := c
    obtain ⟨h₁, -, h₃⟩ := Memory.wfFrom_cons.mp h
    have hne : a ≠ a' := by omega
    simpa [Memory.read, hne] using ih h₃ (by omega)

/-- A write keeps the canonical form. -/
theorem Memory.wfFrom_write {m : Memory} {lo a : Nat} (b : Byte) (h : Memory.wfFrom lo m = true) (ha : lo ≤ a) :
    Memory.wfFrom lo (m.write a b) = true := by
  induction m generalizing lo with
  | nil =>
    by_cases hb : b = 0#8 <;> simp [Memory.write, Memory.wfFrom, hb, ha]
  | cons c m ih =>
    obtain ⟨a', b'⟩ := c
    obtain ⟨h₁, h₂, h₃⟩ := Memory.wfFrom_cons.mp h
    by_cases hb : b = 0#8 <;> rcases Nat.lt_trichotomy a a' with hlt | heq | hgt
    · simp [Memory.write, hb, hlt, h]
    · subst heq
      simpa [Memory.write, hb] using Memory.wfFrom_mono h₃ (by omega)
    · simpa [Memory.write, show ¬ a < a' by omega, show a ≠ a' by omega, Memory.wfFrom_cons, h₁, h₂] using ih h₃ (by omega)
    · simp [Memory.write, hb, hlt, Memory.wfFrom_cons, ha, h₂, h₃]
    · subst heq
      simpa [Memory.write, hb, Memory.wfFrom_cons, ha] using h₃
    · simpa [Memory.write, show ¬ a < a' by omega, show a ≠ a' by omega, Memory.wfFrom_cons, h₁, h₂] using ih h₃ (by omega)

theorem Memory.wf_write {m : Memory} (a : Nat) (b : Byte) (h : m.wf = true) : (m.write a b).wf = true :=
  Memory.wfFrom_write b h (Nat.zero_le a)

theorem Memory.wf_writeWord {m : Memory} (o : Nat) (v : Word) (h : m.wf = true) : (m.writeWord o v).wf = true := by
  unfold Memory.writeWord
  exact Memory.wf_write _ _ (Memory.wf_write _ _ (Memory.wf_write _ _ (Memory.wf_write _ _ h)))

/-- A write leaves every other offset alone. -/
theorem Memory.read_write_of_ne {m : Memory} {a a' : Nat} (b : Byte) (hne : a' ≠ a) : (m.write a b).read a' = m.read a' := by
  induction m with
  | nil => by_cases hb : b = 0#8 <;> simp [Memory.write, Memory.read, hb, hne]
  | cons c m ih =>
    obtain ⟨x, y⟩ := c
    simp only [Memory.write]
    split_ifs <;> simp_all [Memory.read]

/-- A read after a write to the same offset gives the byte written. -/
theorem Memory.read_write_same {m : Memory} {lo : Nat} (a : Nat) (b : Byte) (h : Memory.wfFrom lo m = true) :
    (m.write a b).read a = b := by
  induction m generalizing lo with
  | nil => by_cases hb : b = 0#8 <;> simp [Memory.write, Memory.read, hb]
  | cons c m ih =>
    obtain ⟨x, y⟩ := c
    obtain ⟨h₁, h₂, h₃⟩ := Memory.wfFrom_cons.mp h
    by_cases hb : b = 0#8 <;> rcases Nat.lt_trichotomy a x with hlt | heq | hgt
    · have := Memory.read_of_lt h₃ (show a < x + 1 by omega)
      simp [Memory.write, Memory.read, hb, hlt, show a ≠ x by omega, this]
    · subst heq
      simpa [Memory.write, hb] using Memory.read_of_lt h₃ (by omega)
    · simpa [Memory.write, Memory.read, show ¬ a < x by omega, show a ≠ x by omega] using ih h₃
    · simp [Memory.write, Memory.read, hb, hlt]
    · simp [Memory.write, Memory.read, hb, heq]
    · simpa [Memory.write, Memory.read, show ¬ a < x by omega, show a ≠ x by omega] using ih h₃

theorem Memory.read_write {m : Memory} (a a' : Nat) (b : Byte) (h : m.wf = true) :
    (m.write a b).read a' = if a' = a then b else m.read a' := by
  split_ifs with e
  · subst e; exact Memory.read_write_same _ _ h
  · exact Memory.read_write_of_ne b e

/-- A word write stores its four bytes, least significant first, and leaves every other offset alone (R66). -/
theorem Memory.read_writeWord {m : Memory} (o a : Nat) (v : Word) (h : m.wf = true) :
    (m.writeWord o v).read a = if o ≤ a ∧ a < o + 4 then byteOf v (a - o) else m.read a := by
  have h₁ := Memory.wf_write o (byteOf v 0) h
  have h₂ := Memory.wf_write (o + 1) (byteOf v 1) h₁
  have h₃ := Memory.wf_write (o + 2) (byteOf v 2) h₂
  rw [Memory.writeWord, Memory.read_write _ _ _ h₃, Memory.read_write _ _ _ h₂, Memory.read_write _ _ _ h₁,
    Memory.read_write _ _ _ h]
  by_cases e3 : a = o + 3
  · simp [e3]
  by_cases e2 : a = o + 2
  · simp [e2]
  by_cases e1 : a = o + 1
  · simp [e1]
  by_cases e0 : a = o
  · simp [e0]
  · have : ¬ (o ≤ a ∧ a < o + 4) := by omega
    simp [e0, e1, e2, e3, this]

@[simp] theorem Memory.below_nil (n : Nat) : Memory.below n [] = true := rfl

@[simp] theorem Memory.below_cons (n : Nat) (c : Host.Cell) (m : Memory) :
    Memory.below n (c :: m) = true ↔ c.1 < n ∧ Memory.below n m = true := by
  simp [Memory.below]

theorem Memory.below_write {m : Memory} {n a : Nat} (b : Byte) (h : Memory.below n m = true) (ha : a < n) :
    Memory.below n (m.write a b) = true := by
  induction m with
  | nil => by_cases hb : b = 0#8 <;> simp [Memory.write, hb, ha]
  | cons c m ih =>
    obtain ⟨h₁, h₂⟩ := (Memory.below_cons ..).mp h
    have := ih h₂
    simp only [Memory.write]
    split_ifs <;> simp_all

theorem Memory.below_writeWord {m : Memory} {n o : Nat} (v : Word) (h : Memory.below n m = true) (ho : o + 3 < n) :
    Memory.below n (m.writeWord o v) = true :=
  Memory.below_write _ (Memory.below_write _ (Memory.below_write _ (Memory.below_write _ h (by omega)) (by omega)) (by omega)) ho

/-- At and beyond its bound a memory reads as zero. -/
theorem Memory.read_of_below {m : Memory} {n a : Nat} (h : Memory.below n m = true) (ha : n ≤ a) : m.read a = 0#8 := by
  induction m with
  | nil => rfl
  | cons c m ih =>
    obtain ⟨x, y⟩ := c
    obtain ⟨h₁, h₂⟩ := (Memory.below_cons ..).mp h
    simpa [Memory.read, show a ≠ x by simp at h₁; omega] using ih h₂

theorem Memory.wfFrom_ofBytesFrom (a : Nat) (bs : List Byte) : Memory.wfFrom a (Memory.ofBytesFrom a bs) = true := by
  induction bs generalizing a with
  | nil => rfl
  | cons b bs ih =>
    by_cases hb : b = 0#8
    · simpa [Memory.ofBytesFrom, hb] using Memory.wfFrom_mono (ih (a + 1)) (by omega)
    · simp [Memory.ofBytesFrom, hb, Memory.wfFrom_cons, ih (a + 1)]

theorem Memory.wf_ofBytes (bs : List Byte) : (Memory.ofBytes bs).wf = true := Memory.wfFrom_ofBytesFrom 0 bs

theorem Memory.below_ofBytesFrom (a n : Nat) (bs : List Byte) (h : a + bs.length ≤ n) :
    Memory.below n (Memory.ofBytesFrom a bs) = true := by
  induction bs generalizing a with
  | nil => rfl
  | cons b bs ih =>
    simp only [List.length_cons] at h
    have := ih (a + 1) (by omega)
    by_cases hb : b = 0#8
    · simpa [Memory.ofBytesFrom, hb] using this
    · simpa [Memory.ofBytesFrom, hb, this] using show a < n by omega

theorem Memory.below_ofBytes (bs : List Byte) : Memory.below bs.length (Memory.ofBytes bs) = true :=
  Memory.below_ofBytesFrom 0 _ bs (by omega)

theorem Memory.read_ofBytesFrom (a i : Nat) (bs : List Byte) :
    (Memory.ofBytesFrom a bs).read (a + i) = bs.getD i 0#8 := by
  induction bs generalizing a i with
  | nil => simp [Memory.ofBytesFrom]
  | cons b bs ih =>
    cases i with
    | zero =>
      by_cases hb : b = 0#8
      · simpa [Memory.ofBytesFrom, hb] using
          Memory.read_of_lt (Memory.wfFrom_ofBytesFrom (a + 1) bs) (by omega)
      · simp [Memory.ofBytesFrom, hb, Memory.read]
    | succ i =>
      have := ih (a + 1) i
      rw [show a + 1 + i = a + (i + 1) by omega] at this
      by_cases hb : b = 0#8
      · simpa [Memory.ofBytesFrom, hb] using this
      · simpa [Memory.ofBytesFrom, hb, Memory.read] using this

/-- A rewritten buffer reads as the bytes it was given, and as zero after them (R83). -/
theorem Memory.read_ofBytes (bs : List Byte) (i : Nat) : (Memory.ofBytes bs).read i = bs.getD i 0#8 := by
  simpa [Memory.ofBytes] using Memory.read_ofBytesFrom 0 i bs

@[simp] theorem Memory.length_slice (m : Memory) (lo len : Nat) : (m.slice lo len).length = len := by simp [Memory.slice]

/-- A slice of a rewritten buffer gives its bytes back. -/
theorem Memory.slice_ofBytes (bs : List Byte) : (Memory.ofBytes bs).slice 0 bs.length = bs := by
  apply List.ext_getElem
  · simp
  · intro i h₁ h₂
    simp [Memory.slice, Memory.read_ofBytes, h₂]

/-- The canonical form is one: equal contents are equal lists. -/
theorem Memory.ext_of_wfFrom {m m' : Memory} {lo : Nat} (h : Memory.wfFrom lo m = true) (h' : Memory.wfFrom lo m' = true)
    (hr : ∀ a, m.read a = m'.read a) : m = m' := by
  induction m generalizing lo m' with
  | nil =>
    cases m' with
    | nil => rfl
    | cons c m' =>
      obtain ⟨x, y⟩ := c
      obtain ⟨-, h₂, -⟩ := Memory.wfFrom_cons.mp h'
      exact absurd (by simpa [Memory.read] using (hr x).symm) h₂
  | cons c m ih =>
    obtain ⟨x, y⟩ := c
    obtain ⟨h₁, h₂, h₃⟩ := Memory.wfFrom_cons.mp h
    cases m' with
    | nil => exact absurd (by simpa [Memory.read] using hr x) h₂
    | cons c' m' =>
      obtain ⟨x', y'⟩ := c'
      obtain ⟨h₁', h₂', h₃'⟩ := Memory.wfFrom_cons.mp h'
      have hx : x = x' := by
        rcases Nat.lt_trichotomy x x' with hlt | heq | hgt
        · have := hr x
          rw [Memory.read_of_lt (Memory.wfFrom_cons.mpr ⟨Nat.le_refl x', h₂', h₃'⟩) hlt] at this
          exact absurd (by simpa [Memory.read] using this) h₂
        · exact heq
        · have := hr x'
          rw [Memory.read_of_lt (Memory.wfFrom_cons.mpr ⟨Nat.le_refl x, h₂, h₃⟩) hgt] at this
          exact absurd (by simpa [Memory.read] using this.symm) h₂'
      subst hx
      have hy : y = y' := by simpa [Memory.read] using hr x
      subst hy
      congr 1
      refine ih h₃ h₃' fun a => ?_
      by_cases ha : a = x
      · subst ha
        rw [Memory.read_of_lt h₃ (by omega), Memory.read_of_lt h₃' (by omega)]
      · simpa [Memory.read, ha] using hr a

theorem Memory.ext_of_wf {m m' : Memory} (h : m.wf = true) (h' : m'.wf = true) (hr : ∀ a, m.read a = m'.read a) : m = m' :=
  Memory.ext_of_wfFrom h h' hr

end Sys2Proof.Machine
end

