-- ==== Sys2Proof/Laws/State.lean ====
section
/-! SUPPORT. One lemma per field per named update of State: what the update writes there, or that it leaves the field alone. -/

namespace Sys2Proof.Machine


@[simp] theorem State.respond_phase (r : Response) (s : State) : (State.respond r s).phase = s.phase := rfl
@[simp] theorem State.respond_done (r : Response) (s : State) : (State.respond r s).done = s.done := rfl
@[simp] theorem State.respond_error (r : Response) (s : State) : (State.respond r s).error = s.error := rfl
@[simp] theorem State.respond_errCode (r : Response) (s : State) : (State.respond r s).errCode = s.errCode := rfl
@[simp] theorem State.respond_doneIE (r : Response) (s : State) : (State.respond r s).doneIE = s.doneIE := rfl
@[simp] theorem State.respond_keyLen (r : Response) (s : State) : (State.respond r s).keyLen = s.keyLen := rfl
@[simp] theorem State.respond_nonceLen (r : Response) (s : State) : (State.respond r s).nonceLen = s.nonceLen := rfl
@[simp] theorem State.respond_inLen (r : Response) (s : State) : (State.respond r s).inLen = s.inLen := rfl
@[simp] theorem State.respond_outLen (r : Response) (s : State) : (State.respond r s).outLen = s.outLen := rfl
@[simp] theorem State.respond_key (r : Response) (s : State) : (State.respond r s).key = s.key := rfl
@[simp] theorem State.respond_nonce (r : Response) (s : State) : (State.respond r s).nonce = s.nonce := rfl
@[simp] theorem State.respond_bufBytes (r : Response) (s : State) : (State.respond r s).bufBytes = s.bufBytes := rfl
@[simp] theorem State.respond_inBuf (r : Response) (s : State) : (State.respond r s).inBuf = s.inBuf := rfl
@[simp] theorem State.respond_outBuf (r : Response) (s : State) : (State.respond r s).outBuf = s.outBuf := rfl
@[simp] theorem State.respond_expTag (r : Response) (s : State) : (State.respond r s).expTag = s.expTag := rfl
@[simp] theorem State.respond_rxTag (r : Response) (s : State) : (State.respond r s).rxTag = s.rxTag := rfl
@[simp] theorem State.respond_diff (r : Response) (s : State) : (State.respond r s).diff = s.diff := rfl
@[simp] theorem State.respond_tagMatch (r : Response) (s : State) : (State.respond r s).tagMatch = s.tagMatch := rfl
@[simp] theorem State.respond_workPlain (r : Response) (s : State) : (State.respond r s).workPlain = s.workPlain := rfl
@[simp] theorem State.respond_workCipher (r : Response) (s : State) : (State.respond r s).workCipher = s.workCipher := rfl
@[simp] theorem State.respond_workTag (r : Response) (s : State) : (State.respond r s).workTag = s.workTag := rfl
@[simp] theorem State.respond_entropyOffer (r : Response) (s : State) : (State.respond r s).entropyOffer = s.entropyOffer := rfl
@[simp] theorem State.respond_coreInit (r : Response) (s : State) : (State.respond r s).coreInit = s.coreInit := rfl
@[simp] theorem State.respond_busResp (r : Response) (s : State) : (State.respond r s).busResp = some r := rfl
@[simp] theorem State.respond_events (r : Response) (s : State) : (State.respond r s).events = s.events := rfl
@[simp] theorem State.respond_program (r : Response) (s : State) : (State.respond r s).program = s.program := rfl
@[simp] theorem State.respond_bound (r : Response) (s : State) : (State.respond r s).bound = s.bound := rfl
@[simp] theorem State.respond_asExpected (r : Response) (s : State) : (State.respond r s).asExpected = s.asExpected := rfl

@[simp] theorem State.setPhase_phase (p : Phase) (s : State) : (State.setPhase p s).phase = p := rfl
@[simp] theorem State.setPhase_done (p : Phase) (s : State) : (State.setPhase p s).done = s.done := rfl
@[simp] theorem State.setPhase_error (p : Phase) (s : State) : (State.setPhase p s).error = s.error := rfl
@[simp] theorem State.setPhase_errCode (p : Phase) (s : State) : (State.setPhase p s).errCode = s.errCode := rfl
@[simp] theorem State.setPhase_doneIE (p : Phase) (s : State) : (State.setPhase p s).doneIE = s.doneIE := rfl
@[simp] theorem State.setPhase_keyLen (p : Phase) (s : State) : (State.setPhase p s).keyLen = s.keyLen := rfl
@[simp] theorem State.setPhase_nonceLen (p : Phase) (s : State) : (State.setPhase p s).nonceLen = s.nonceLen := rfl
@[simp] theorem State.setPhase_inLen (p : Phase) (s : State) : (State.setPhase p s).inLen = s.inLen := rfl
@[simp] theorem State.setPhase_outLen (p : Phase) (s : State) : (State.setPhase p s).outLen = s.outLen := rfl
@[simp] theorem State.setPhase_key (p : Phase) (s : State) : (State.setPhase p s).key = s.key := rfl
@[simp] theorem State.setPhase_nonce (p : Phase) (s : State) : (State.setPhase p s).nonce = s.nonce := rfl
@[simp] theorem State.setPhase_bufBytes (p : Phase) (s : State) : (State.setPhase p s).bufBytes = s.bufBytes := rfl
@[simp] theorem State.setPhase_inBuf (p : Phase) (s : State) : (State.setPhase p s).inBuf = s.inBuf := rfl
@[simp] theorem State.setPhase_outBuf (p : Phase) (s : State) : (State.setPhase p s).outBuf = s.outBuf := rfl
@[simp] theorem State.setPhase_expTag (p : Phase) (s : State) : (State.setPhase p s).expTag = s.expTag := rfl
@[simp] theorem State.setPhase_rxTag (p : Phase) (s : State) : (State.setPhase p s).rxTag = s.rxTag := rfl
@[simp] theorem State.setPhase_diff (p : Phase) (s : State) : (State.setPhase p s).diff = s.diff := rfl
@[simp] theorem State.setPhase_tagMatch (p : Phase) (s : State) : (State.setPhase p s).tagMatch = s.tagMatch := rfl
@[simp] theorem State.setPhase_workPlain (p : Phase) (s : State) : (State.setPhase p s).workPlain = s.workPlain := rfl
@[simp] theorem State.setPhase_workCipher (p : Phase) (s : State) : (State.setPhase p s).workCipher = s.workCipher := rfl
@[simp] theorem State.setPhase_workTag (p : Phase) (s : State) : (State.setPhase p s).workTag = s.workTag := rfl
@[simp] theorem State.setPhase_entropyOffer (p : Phase) (s : State) : (State.setPhase p s).entropyOffer = s.entropyOffer := rfl
@[simp] theorem State.setPhase_coreInit (p : Phase) (s : State) : (State.setPhase p s).coreInit = s.coreInit := rfl
@[simp] theorem State.setPhase_busResp (p : Phase) (s : State) : (State.setPhase p s).busResp = s.busResp := rfl
@[simp] theorem State.setPhase_events (p : Phase) (s : State) : (State.setPhase p s).events = s.events := rfl
@[simp] theorem State.setPhase_program (p : Phase) (s : State) : (State.setPhase p s).program = s.program := rfl
@[simp] theorem State.setPhase_bound (p : Phase) (s : State) : (State.setPhase p s).bound = s.bound := rfl
@[simp] theorem State.setPhase_asExpected (p : Phase) (s : State) : (State.setPhase p s).asExpected = s.asExpected := rfl

@[simp] theorem State.withEvents_phase (es : List Event) (s : State) : (State.withEvents es s).phase = s.phase := rfl
@[simp] theorem State.withEvents_done (es : List Event) (s : State) : (State.withEvents es s).done = s.done := rfl
@[simp] theorem State.withEvents_error (es : List Event) (s : State) : (State.withEvents es s).error = s.error := rfl
@[simp] theorem State.withEvents_errCode (es : List Event) (s : State) : (State.withEvents es s).errCode = s.errCode := rfl
@[simp] theorem State.withEvents_doneIE (es : List Event) (s : State) : (State.withEvents es s).doneIE = s.doneIE := rfl
@[simp] theorem State.withEvents_keyLen (es : List Event) (s : State) : (State.withEvents es s).keyLen = s.keyLen := rfl
@[simp] theorem State.withEvents_nonceLen (es : List Event) (s : State) : (State.withEvents es s).nonceLen = s.nonceLen := rfl
@[simp] theorem State.withEvents_inLen (es : List Event) (s : State) : (State.withEvents es s).inLen = s.inLen := rfl
@[simp] theorem State.withEvents_outLen (es : List Event) (s : State) : (State.withEvents es s).outLen = s.outLen := rfl
@[simp] theorem State.withEvents_key (es : List Event) (s : State) : (State.withEvents es s).key = s.key := rfl
@[simp] theorem State.withEvents_nonce (es : List Event) (s : State) : (State.withEvents es s).nonce = s.nonce := rfl
@[simp] theorem State.withEvents_bufBytes (es : List Event) (s : State) : (State.withEvents es s).bufBytes = s.bufBytes := rfl
@[simp] theorem State.withEvents_inBuf (es : List Event) (s : State) : (State.withEvents es s).inBuf = s.inBuf := rfl
@[simp] theorem State.withEvents_outBuf (es : List Event) (s : State) : (State.withEvents es s).outBuf = s.outBuf := rfl
@[simp] theorem State.withEvents_expTag (es : List Event) (s : State) : (State.withEvents es s).expTag = s.expTag := rfl
@[simp] theorem State.withEvents_rxTag (es : List Event) (s : State) : (State.withEvents es s).rxTag = s.rxTag := rfl
@[simp] theorem State.withEvents_diff (es : List Event) (s : State) : (State.withEvents es s).diff = s.diff := rfl
@[simp] theorem State.withEvents_tagMatch (es : List Event) (s : State) : (State.withEvents es s).tagMatch = s.tagMatch := rfl
@[simp] theorem State.withEvents_workPlain (es : List Event) (s : State) : (State.withEvents es s).workPlain = s.workPlain := rfl
@[simp] theorem State.withEvents_workCipher (es : List Event) (s : State) : (State.withEvents es s).workCipher = s.workCipher := rfl
@[simp] theorem State.withEvents_workTag (es : List Event) (s : State) : (State.withEvents es s).workTag = s.workTag := rfl
@[simp] theorem State.withEvents_entropyOffer (es : List Event) (s : State) : (State.withEvents es s).entropyOffer = s.entropyOffer := rfl
@[simp] theorem State.withEvents_coreInit (es : List Event) (s : State) : (State.withEvents es s).coreInit = s.coreInit := rfl
@[simp] theorem State.withEvents_busResp (es : List Event) (s : State) : (State.withEvents es s).busResp = s.busResp := rfl
@[simp] theorem State.withEvents_events (es : List Event) (s : State) : (State.withEvents es s).events = es := rfl
@[simp] theorem State.withEvents_program (es : List Event) (s : State) : (State.withEvents es s).program = s.program := rfl
@[simp] theorem State.withEvents_bound (es : List Event) (s : State) : (State.withEvents es s).bound = s.bound := rfl
@[simp] theorem State.withEvents_asExpected (es : List Event) (s : State) : (State.withEvents es s).asExpected = s.asExpected := rfl

@[simp] theorem State.setStatus_phase (d : Bool) (c : ErrCode) (s : State) : (State.setStatus d c s).phase = s.phase := rfl
@[simp] theorem State.setStatus_done (d : Bool) (c : ErrCode) (s : State) : (State.setStatus d c s).done = d := rfl
@[simp] theorem State.setStatus_error (d : Bool) (c : ErrCode) (s : State) : (State.setStatus d c s).error = (c != .none) := rfl
@[simp] theorem State.setStatus_errCode (d : Bool) (c : ErrCode) (s : State) : (State.setStatus d c s).errCode = c.bits := rfl
@[simp] theorem State.setStatus_doneIE (d : Bool) (c : ErrCode) (s : State) : (State.setStatus d c s).doneIE = s.doneIE := rfl
@[simp] theorem State.setStatus_keyLen (d : Bool) (c : ErrCode) (s : State) : (State.setStatus d c s).keyLen = s.keyLen := rfl
@[simp] theorem State.setStatus_nonceLen (d : Bool) (c : ErrCode) (s : State) : (State.setStatus d c s).nonceLen = s.nonceLen := rfl
@[simp] theorem State.setStatus_inLen (d : Bool) (c : ErrCode) (s : State) : (State.setStatus d c s).inLen = s.inLen := rfl
@[simp] theorem State.setStatus_outLen (d : Bool) (c : ErrCode) (s : State) : (State.setStatus d c s).outLen = s.outLen := rfl
@[simp] theorem State.setStatus_key (d : Bool) (c : ErrCode) (s : State) : (State.setStatus d c s).key = s.key := rfl
@[simp] theorem State.setStatus_nonce (d : Bool) (c : ErrCode) (s : State) : (State.setStatus d c s).nonce = s.nonce := rfl
@[simp] theorem State.setStatus_bufBytes (d : Bool) (c : ErrCode) (s : State) : (State.setStatus d c s).bufBytes = s.bufBytes := rfl
@[simp] theorem State.setStatus_inBuf (d : Bool) (c : ErrCode) (s : State) : (State.setStatus d c s).inBuf = s.inBuf := rfl
@[simp] theorem State.setStatus_outBuf (d : Bool) (c : ErrCode) (s : State) : (State.setStatus d c s).outBuf = s.outBuf := rfl
@[simp] theorem State.setStatus_expTag (d : Bool) (c : ErrCode) (s : State) : (State.setStatus d c s).expTag = s.expTag := rfl
@[simp] theorem State.setStatus_rxTag (d : Bool) (c : ErrCode) (s : State) : (State.setStatus d c s).rxTag = s.rxTag := rfl
@[simp] theorem State.setStatus_diff (d : Bool) (c : ErrCode) (s : State) : (State.setStatus d c s).diff = s.diff := rfl
@[simp] theorem State.setStatus_tagMatch (d : Bool) (c : ErrCode) (s : State) : (State.setStatus d c s).tagMatch = s.tagMatch := rfl
@[simp] theorem State.setStatus_workPlain (d : Bool) (c : ErrCode) (s : State) : (State.setStatus d c s).workPlain = s.workPlain := rfl
@[simp] theorem State.setStatus_workCipher (d : Bool) (c : ErrCode) (s : State) : (State.setStatus d c s).workCipher = s.workCipher := rfl
@[simp] theorem State.setStatus_workTag (d : Bool) (c : ErrCode) (s : State) : (State.setStatus d c s).workTag = s.workTag := rfl
@[simp] theorem State.setStatus_entropyOffer (d : Bool) (c : ErrCode) (s : State) : (State.setStatus d c s).entropyOffer = s.entropyOffer := rfl
@[simp] theorem State.setStatus_coreInit (d : Bool) (c : ErrCode) (s : State) : (State.setStatus d c s).coreInit = s.coreInit := rfl
@[simp] theorem State.setStatus_busResp (d : Bool) (c : ErrCode) (s : State) : (State.setStatus d c s).busResp = s.busResp := rfl
@[simp] theorem State.setStatus_events (d : Bool) (c : ErrCode) (s : State) : (State.setStatus d c s).events = s.events := rfl
@[simp] theorem State.setStatus_program (d : Bool) (c : ErrCode) (s : State) : (State.setStatus d c s).program = s.program := rfl
@[simp] theorem State.setStatus_bound (d : Bool) (c : ErrCode) (s : State) : (State.setStatus d c s).bound = s.bound := rfl
@[simp] theorem State.setStatus_asExpected (d : Bool) (c : ErrCode) (s : State) : (State.setStatus d c s).asExpected = s.asExpected := rfl

@[simp] theorem State.ackDone_phase (v : Word) (s : State) : (State.ackDone v s).phase = s.phase := rfl
@[simp] theorem State.ackDone_done (v : Word) (s : State) : (State.ackDone v s).done = (s.done && !v.getLsbD 1) := rfl
@[simp] theorem State.ackDone_error (v : Word) (s : State) : (State.ackDone v s).error = s.error := rfl
@[simp] theorem State.ackDone_errCode (v : Word) (s : State) : (State.ackDone v s).errCode = s.errCode := rfl
@[simp] theorem State.ackDone_doneIE (v : Word) (s : State) : (State.ackDone v s).doneIE = s.doneIE := rfl
@[simp] theorem State.ackDone_keyLen (v : Word) (s : State) : (State.ackDone v s).keyLen = s.keyLen := rfl
@[simp] theorem State.ackDone_nonceLen (v : Word) (s : State) : (State.ackDone v s).nonceLen = s.nonceLen := rfl
@[simp] theorem State.ackDone_inLen (v : Word) (s : State) : (State.ackDone v s).inLen = s.inLen := rfl
@[simp] theorem State.ackDone_outLen (v : Word) (s : State) : (State.ackDone v s).outLen = s.outLen := rfl
@[simp] theorem State.ackDone_key (v : Word) (s : State) : (State.ackDone v s).key = s.key := rfl
@[simp] theorem State.ackDone_nonce (v : Word) (s : State) : (State.ackDone v s).nonce = s.nonce := rfl
@[simp] theorem State.ackDone_bufBytes (v : Word) (s : State) : (State.ackDone v s).bufBytes = s.bufBytes := rfl
@[simp] theorem State.ackDone_inBuf (v : Word) (s : State) : (State.ackDone v s).inBuf = s.inBuf := rfl
@[simp] theorem State.ackDone_outBuf (v : Word) (s : State) : (State.ackDone v s).outBuf = s.outBuf := rfl
@[simp] theorem State.ackDone_expTag (v : Word) (s : State) : (State.ackDone v s).expTag = s.expTag := rfl
@[simp] theorem State.ackDone_rxTag (v : Word) (s : State) : (State.ackDone v s).rxTag = s.rxTag := rfl
@[simp] theorem State.ackDone_diff (v : Word) (s : State) : (State.ackDone v s).diff = s.diff := rfl
@[simp] theorem State.ackDone_tagMatch (v : Word) (s : State) : (State.ackDone v s).tagMatch = s.tagMatch := rfl
@[simp] theorem State.ackDone_workPlain (v : Word) (s : State) : (State.ackDone v s).workPlain = s.workPlain := rfl
@[simp] theorem State.ackDone_workCipher (v : Word) (s : State) : (State.ackDone v s).workCipher = s.workCipher := rfl
@[simp] theorem State.ackDone_workTag (v : Word) (s : State) : (State.ackDone v s).workTag = s.workTag := rfl
@[simp] theorem State.ackDone_entropyOffer (v : Word) (s : State) : (State.ackDone v s).entropyOffer = s.entropyOffer := rfl
@[simp] theorem State.ackDone_coreInit (v : Word) (s : State) : (State.ackDone v s).coreInit = s.coreInit := rfl
@[simp] theorem State.ackDone_busResp (v : Word) (s : State) : (State.ackDone v s).busResp = s.busResp := rfl
@[simp] theorem State.ackDone_events (v : Word) (s : State) : (State.ackDone v s).events = s.events := rfl
@[simp] theorem State.ackDone_program (v : Word) (s : State) : (State.ackDone v s).program = s.program := rfl
@[simp] theorem State.ackDone_bound (v : Word) (s : State) : (State.ackDone v s).bound = s.bound := rfl
@[simp] theorem State.ackDone_asExpected (v : Word) (s : State) : (State.ackDone v s).asExpected = s.asExpected := rfl

@[simp] theorem State.zeroizeOperands_phase (s : State) : (State.zeroizeOperands s).phase = s.phase := rfl
@[simp] theorem State.zeroizeOperands_done (s : State) : (State.zeroizeOperands s).done = s.done := rfl
@[simp] theorem State.zeroizeOperands_error (s : State) : (State.zeroizeOperands s).error = s.error := rfl
@[simp] theorem State.zeroizeOperands_errCode (s : State) : (State.zeroizeOperands s).errCode = s.errCode := rfl
@[simp] theorem State.zeroizeOperands_doneIE (s : State) : (State.zeroizeOperands s).doneIE = s.doneIE := rfl
@[simp] theorem State.zeroizeOperands_keyLen (s : State) : (State.zeroizeOperands s).keyLen = 0#32 := rfl
@[simp] theorem State.zeroizeOperands_nonceLen (s : State) : (State.zeroizeOperands s).nonceLen = s.nonceLen := rfl
@[simp] theorem State.zeroizeOperands_inLen (s : State) : (State.zeroizeOperands s).inLen = 0#32 := rfl
@[simp] theorem State.zeroizeOperands_outLen (s : State) : (State.zeroizeOperands s).outLen = s.outLen := rfl
@[simp] theorem State.zeroizeOperands_key (s : State) : (State.zeroizeOperands s).key = zeroKey := rfl
@[simp] theorem State.zeroizeOperands_nonce (s : State) : (State.zeroizeOperands s).nonce = s.nonce := rfl
@[simp] theorem State.zeroizeOperands_bufBytes (s : State) : (State.zeroizeOperands s).bufBytes = s.bufBytes := rfl
@[simp] theorem State.zeroizeOperands_inBuf (s : State) : (State.zeroizeOperands s).inBuf = [] := rfl
@[simp] theorem State.zeroizeOperands_outBuf (s : State) : (State.zeroizeOperands s).outBuf = s.outBuf := rfl
@[simp] theorem State.zeroizeOperands_expTag (s : State) : (State.zeroizeOperands s).expTag = s.expTag := rfl
@[simp] theorem State.zeroizeOperands_rxTag (s : State) : (State.zeroizeOperands s).rxTag = s.rxTag := rfl
@[simp] theorem State.zeroizeOperands_diff (s : State) : (State.zeroizeOperands s).diff = s.diff := rfl
@[simp] theorem State.zeroizeOperands_tagMatch (s : State) : (State.zeroizeOperands s).tagMatch = s.tagMatch := rfl
@[simp] theorem State.zeroizeOperands_workPlain (s : State) : (State.zeroizeOperands s).workPlain = s.workPlain := rfl
@[simp] theorem State.zeroizeOperands_workCipher (s : State) : (State.zeroizeOperands s).workCipher = s.workCipher := rfl
@[simp] theorem State.zeroizeOperands_workTag (s : State) : (State.zeroizeOperands s).workTag = s.workTag := rfl
@[simp] theorem State.zeroizeOperands_entropyOffer (s : State) : (State.zeroizeOperands s).entropyOffer = s.entropyOffer := rfl
@[simp] theorem State.zeroizeOperands_coreInit (s : State) : (State.zeroizeOperands s).coreInit = s.coreInit := rfl
@[simp] theorem State.zeroizeOperands_busResp (s : State) : (State.zeroizeOperands s).busResp = s.busResp := rfl
@[simp] theorem State.zeroizeOperands_events (s : State) : (State.zeroizeOperands s).events = s.events := rfl
@[simp] theorem State.zeroizeOperands_program (s : State) : (State.zeroizeOperands s).program = s.program := rfl
@[simp] theorem State.zeroizeOperands_bound (s : State) : (State.zeroizeOperands s).bound = s.bound := rfl
@[simp] theorem State.zeroizeOperands_asExpected (s : State) : (State.zeroizeOperands s).asExpected = s.asExpected := rfl

@[simp] theorem State.setResult_phase (bs : List Byte) (s : State) : (State.setResult bs s).phase = s.phase := rfl
@[simp] theorem State.setResult_done (bs : List Byte) (s : State) : (State.setResult bs s).done = s.done := rfl
@[simp] theorem State.setResult_error (bs : List Byte) (s : State) : (State.setResult bs s).error = s.error := rfl
@[simp] theorem State.setResult_errCode (bs : List Byte) (s : State) : (State.setResult bs s).errCode = s.errCode := rfl
@[simp] theorem State.setResult_doneIE (bs : List Byte) (s : State) : (State.setResult bs s).doneIE = s.doneIE := rfl
@[simp] theorem State.setResult_keyLen (bs : List Byte) (s : State) : (State.setResult bs s).keyLen = s.keyLen := rfl
@[simp] theorem State.setResult_nonceLen (bs : List Byte) (s : State) : (State.setResult bs s).nonceLen = s.nonceLen := rfl
@[simp] theorem State.setResult_inLen (bs : List Byte) (s : State) : (State.setResult bs s).inLen = s.inLen := rfl
@[simp] theorem State.setResult_outLen (bs : List Byte) (s : State) : (State.setResult bs s).outLen = BitVec.ofNat 32 bs.length := rfl
@[simp] theorem State.setResult_key (bs : List Byte) (s : State) : (State.setResult bs s).key = s.key := rfl
@[simp] theorem State.setResult_nonce (bs : List Byte) (s : State) : (State.setResult bs s).nonce = s.nonce := rfl
@[simp] theorem State.setResult_bufBytes (bs : List Byte) (s : State) : (State.setResult bs s).bufBytes = s.bufBytes := rfl
@[simp] theorem State.setResult_inBuf (bs : List Byte) (s : State) : (State.setResult bs s).inBuf = s.inBuf := rfl
@[simp] theorem State.setResult_outBuf (bs : List Byte) (s : State) : (State.setResult bs s).outBuf = Memory.ofBytes bs := rfl
@[simp] theorem State.setResult_expTag (bs : List Byte) (s : State) : (State.setResult bs s).expTag = s.expTag := rfl
@[simp] theorem State.setResult_rxTag (bs : List Byte) (s : State) : (State.setResult bs s).rxTag = s.rxTag := rfl
@[simp] theorem State.setResult_diff (bs : List Byte) (s : State) : (State.setResult bs s).diff = s.diff := rfl
@[simp] theorem State.setResult_tagMatch (bs : List Byte) (s : State) : (State.setResult bs s).tagMatch = s.tagMatch := rfl
@[simp] theorem State.setResult_workPlain (bs : List Byte) (s : State) : (State.setResult bs s).workPlain = s.workPlain := rfl
@[simp] theorem State.setResult_workCipher (bs : List Byte) (s : State) : (State.setResult bs s).workCipher = s.workCipher := rfl
@[simp] theorem State.setResult_workTag (bs : List Byte) (s : State) : (State.setResult bs s).workTag = s.workTag := rfl
@[simp] theorem State.setResult_entropyOffer (bs : List Byte) (s : State) : (State.setResult bs s).entropyOffer = s.entropyOffer := rfl
@[simp] theorem State.setResult_coreInit (bs : List Byte) (s : State) : (State.setResult bs s).coreInit = s.coreInit := rfl
@[simp] theorem State.setResult_busResp (bs : List Byte) (s : State) : (State.setResult bs s).busResp = s.busResp := rfl
@[simp] theorem State.setResult_events (bs : List Byte) (s : State) : (State.setResult bs s).events = s.events := rfl
@[simp] theorem State.setResult_program (bs : List Byte) (s : State) : (State.setResult bs s).program = s.program := rfl
@[simp] theorem State.setResult_bound (bs : List Byte) (s : State) : (State.setResult bs s).bound = s.bound := rfl
@[simp] theorem State.setResult_asExpected (bs : List Byte) (s : State) : (State.setResult bs s).asExpected = s.asExpected := rfl

@[simp] theorem State.setNonce_phase (ws : Vector Word 3) (len : Word) (s : State) : (State.setNonce ws len s).phase = s.phase := rfl
@[simp] theorem State.setNonce_done (ws : Vector Word 3) (len : Word) (s : State) : (State.setNonce ws len s).done = s.done := rfl
@[simp] theorem State.setNonce_error (ws : Vector Word 3) (len : Word) (s : State) : (State.setNonce ws len s).error = s.error := rfl
@[simp] theorem State.setNonce_errCode (ws : Vector Word 3) (len : Word) (s : State) : (State.setNonce ws len s).errCode = s.errCode := rfl
@[simp] theorem State.setNonce_doneIE (ws : Vector Word 3) (len : Word) (s : State) : (State.setNonce ws len s).doneIE = s.doneIE := rfl
@[simp] theorem State.setNonce_keyLen (ws : Vector Word 3) (len : Word) (s : State) : (State.setNonce ws len s).keyLen = s.keyLen := rfl
@[simp] theorem State.setNonce_nonceLen (ws : Vector Word 3) (len : Word) (s : State) : (State.setNonce ws len s).nonceLen = len := rfl
@[simp] theorem State.setNonce_inLen (ws : Vector Word 3) (len : Word) (s : State) : (State.setNonce ws len s).inLen = s.inLen := rfl
@[simp] theorem State.setNonce_outLen (ws : Vector Word 3) (len : Word) (s : State) : (State.setNonce ws len s).outLen = s.outLen := rfl
@[simp] theorem State.setNonce_key (ws : Vector Word 3) (len : Word) (s : State) : (State.setNonce ws len s).key = s.key := rfl
@[simp] theorem State.setNonce_nonce (ws : Vector Word 3) (len : Word) (s : State) : (State.setNonce ws len s).nonce = ws := rfl
@[simp] theorem State.setNonce_bufBytes (ws : Vector Word 3) (len : Word) (s : State) : (State.setNonce ws len s).bufBytes = s.bufBytes := rfl
@[simp] theorem State.setNonce_inBuf (ws : Vector Word 3) (len : Word) (s : State) : (State.setNonce ws len s).inBuf = s.inBuf := rfl
@[simp] theorem State.setNonce_outBuf (ws : Vector Word 3) (len : Word) (s : State) : (State.setNonce ws len s).outBuf = s.outBuf := rfl
@[simp] theorem State.setNonce_expTag (ws : Vector Word 3) (len : Word) (s : State) : (State.setNonce ws len s).expTag = s.expTag := rfl
@[simp] theorem State.setNonce_rxTag (ws : Vector Word 3) (len : Word) (s : State) : (State.setNonce ws len s).rxTag = s.rxTag := rfl
@[simp] theorem State.setNonce_diff (ws : Vector Word 3) (len : Word) (s : State) : (State.setNonce ws len s).diff = s.diff := rfl
@[simp] theorem State.setNonce_tagMatch (ws : Vector Word 3) (len : Word) (s : State) : (State.setNonce ws len s).tagMatch = s.tagMatch := rfl
@[simp] theorem State.setNonce_workPlain (ws : Vector Word 3) (len : Word) (s : State) : (State.setNonce ws len s).workPlain = s.workPlain := rfl
@[simp] theorem State.setNonce_workCipher (ws : Vector Word 3) (len : Word) (s : State) : (State.setNonce ws len s).workCipher = s.workCipher := rfl
@[simp] theorem State.setNonce_workTag (ws : Vector Word 3) (len : Word) (s : State) : (State.setNonce ws len s).workTag = s.workTag := rfl
@[simp] theorem State.setNonce_entropyOffer (ws : Vector Word 3) (len : Word) (s : State) : (State.setNonce ws len s).entropyOffer = s.entropyOffer := rfl
@[simp] theorem State.setNonce_coreInit (ws : Vector Word 3) (len : Word) (s : State) : (State.setNonce ws len s).coreInit = s.coreInit := rfl
@[simp] theorem State.setNonce_busResp (ws : Vector Word 3) (len : Word) (s : State) : (State.setNonce ws len s).busResp = s.busResp := rfl
@[simp] theorem State.setNonce_events (ws : Vector Word 3) (len : Word) (s : State) : (State.setNonce ws len s).events = s.events := rfl
@[simp] theorem State.setNonce_program (ws : Vector Word 3) (len : Word) (s : State) : (State.setNonce ws len s).program = s.program := rfl
@[simp] theorem State.setNonce_bound (ws : Vector Word 3) (len : Word) (s : State) : (State.setNonce ws len s).bound = s.bound := rfl
@[simp] theorem State.setNonce_asExpected (ws : Vector Word 3) (len : Word) (s : State) : (State.setNonce ws len s).asExpected = s.asExpected := rfl

@[simp] theorem consumeEntropy_phase (s : State) : (consumeEntropy s).phase = s.phase := rfl
@[simp] theorem consumeEntropy_done (s : State) : (consumeEntropy s).done = s.done := rfl
@[simp] theorem consumeEntropy_error (s : State) : (consumeEntropy s).error = s.error := rfl
@[simp] theorem consumeEntropy_errCode (s : State) : (consumeEntropy s).errCode = s.errCode := rfl
@[simp] theorem consumeEntropy_doneIE (s : State) : (consumeEntropy s).doneIE = s.doneIE := rfl
@[simp] theorem consumeEntropy_keyLen (s : State) : (consumeEntropy s).keyLen = s.keyLen := rfl
@[simp] theorem consumeEntropy_nonceLen (s : State) : (consumeEntropy s).nonceLen = s.nonceLen := rfl
@[simp] theorem consumeEntropy_inLen (s : State) : (consumeEntropy s).inLen = s.inLen := rfl
@[simp] theorem consumeEntropy_outLen (s : State) : (consumeEntropy s).outLen = s.outLen := rfl
@[simp] theorem consumeEntropy_key (s : State) : (consumeEntropy s).key = s.key := rfl
@[simp] theorem consumeEntropy_nonce (s : State) : (consumeEntropy s).nonce = s.nonce := rfl
@[simp] theorem consumeEntropy_bufBytes (s : State) : (consumeEntropy s).bufBytes = s.bufBytes := rfl
@[simp] theorem consumeEntropy_inBuf (s : State) : (consumeEntropy s).inBuf = s.inBuf := rfl
@[simp] theorem consumeEntropy_outBuf (s : State) : (consumeEntropy s).outBuf = s.outBuf := rfl
@[simp] theorem consumeEntropy_expTag (s : State) : (consumeEntropy s).expTag = s.expTag := rfl
@[simp] theorem consumeEntropy_rxTag (s : State) : (consumeEntropy s).rxTag = s.rxTag := rfl
@[simp] theorem consumeEntropy_diff (s : State) : (consumeEntropy s).diff = s.diff := rfl
@[simp] theorem consumeEntropy_tagMatch (s : State) : (consumeEntropy s).tagMatch = s.tagMatch := rfl
@[simp] theorem consumeEntropy_workPlain (s : State) : (consumeEntropy s).workPlain = s.workPlain := rfl
@[simp] theorem consumeEntropy_workCipher (s : State) : (consumeEntropy s).workCipher = s.workCipher := rfl
@[simp] theorem consumeEntropy_workTag (s : State) : (consumeEntropy s).workTag = s.workTag := rfl
@[simp] theorem consumeEntropy_entropyOffer (s : State) : (consumeEntropy s).entropyOffer = none := rfl
@[simp] theorem consumeEntropy_coreInit (s : State) : (consumeEntropy s).coreInit = s.coreInit := rfl
@[simp] theorem consumeEntropy_busResp (s : State) : (consumeEntropy s).busResp = s.busResp := rfl
@[simp] theorem consumeEntropy_events (s : State) : (consumeEntropy s).events = s.events := rfl
@[simp] theorem consumeEntropy_program (s : State) : (consumeEntropy s).program = s.program := rfl
@[simp] theorem consumeEntropy_bound (s : State) : (consumeEntropy s).bound = s.bound := rfl
@[simp] theorem consumeEntropy_asExpected (s : State) : (consumeEntropy s).asExpected = s.asExpected := rfl

@[simp] theorem clearSeal_phase (s : State) : (clearSeal s).phase = s.phase := rfl
@[simp] theorem clearSeal_done (s : State) : (clearSeal s).done = s.done := rfl
@[simp] theorem clearSeal_error (s : State) : (clearSeal s).error = s.error := rfl
@[simp] theorem clearSeal_errCode (s : State) : (clearSeal s).errCode = s.errCode := rfl
@[simp] theorem clearSeal_doneIE (s : State) : (clearSeal s).doneIE = s.doneIE := rfl
@[simp] theorem clearSeal_keyLen (s : State) : (clearSeal s).keyLen = s.keyLen := rfl
@[simp] theorem clearSeal_nonceLen (s : State) : (clearSeal s).nonceLen = s.nonceLen := rfl
@[simp] theorem clearSeal_inLen (s : State) : (clearSeal s).inLen = s.inLen := rfl
@[simp] theorem clearSeal_outLen (s : State) : (clearSeal s).outLen = s.outLen := rfl
@[simp] theorem clearSeal_key (s : State) : (clearSeal s).key = s.key := rfl
@[simp] theorem clearSeal_nonce (s : State) : (clearSeal s).nonce = s.nonce := rfl
@[simp] theorem clearSeal_bufBytes (s : State) : (clearSeal s).bufBytes = s.bufBytes := rfl
@[simp] theorem clearSeal_inBuf (s : State) : (clearSeal s).inBuf = s.inBuf := rfl
@[simp] theorem clearSeal_outBuf (s : State) : (clearSeal s).outBuf = s.outBuf := rfl
@[simp] theorem clearSeal_expTag (s : State) : (clearSeal s).expTag = s.expTag := rfl
@[simp] theorem clearSeal_rxTag (s : State) : (clearSeal s).rxTag = s.rxTag := rfl
@[simp] theorem clearSeal_diff (s : State) : (clearSeal s).diff = s.diff := rfl
@[simp] theorem clearSeal_tagMatch (s : State) : (clearSeal s).tagMatch = s.tagMatch := rfl
@[simp] theorem clearSeal_workPlain (s : State) : (clearSeal s).workPlain = s.workPlain := rfl
@[simp] theorem clearSeal_workCipher (s : State) : (clearSeal s).workCipher = [] := rfl
@[simp] theorem clearSeal_workTag (s : State) : (clearSeal s).workTag = zeroTag := rfl
@[simp] theorem clearSeal_entropyOffer (s : State) : (clearSeal s).entropyOffer = s.entropyOffer := rfl
@[simp] theorem clearSeal_coreInit (s : State) : (clearSeal s).coreInit = s.coreInit := rfl
@[simp] theorem clearSeal_busResp (s : State) : (clearSeal s).busResp = s.busResp := rfl
@[simp] theorem clearSeal_events (s : State) : (clearSeal s).events = s.events := rfl
@[simp] theorem clearSeal_program (s : State) : (clearSeal s).program = s.program := rfl
@[simp] theorem clearSeal_bound (s : State) : (clearSeal s).bound = s.bound := rfl
@[simp] theorem clearSeal_asExpected (s : State) : (clearSeal s).asExpected = s.asExpected := rfl

@[simp] theorem clearDatapath_phase (s : State) : (clearDatapath s).phase = s.phase := rfl
@[simp] theorem clearDatapath_done (s : State) : (clearDatapath s).done = s.done := rfl
@[simp] theorem clearDatapath_error (s : State) : (clearDatapath s).error = s.error := rfl
@[simp] theorem clearDatapath_errCode (s : State) : (clearDatapath s).errCode = s.errCode := rfl
@[simp] theorem clearDatapath_doneIE (s : State) : (clearDatapath s).doneIE = s.doneIE := rfl
@[simp] theorem clearDatapath_keyLen (s : State) : (clearDatapath s).keyLen = s.keyLen := rfl
@[simp] theorem clearDatapath_nonceLen (s : State) : (clearDatapath s).nonceLen = s.nonceLen := rfl
@[simp] theorem clearDatapath_inLen (s : State) : (clearDatapath s).inLen = s.inLen := rfl
@[simp] theorem clearDatapath_outLen (s : State) : (clearDatapath s).outLen = s.outLen := rfl
@[simp] theorem clearDatapath_key (s : State) : (clearDatapath s).key = s.key := rfl
@[simp] theorem clearDatapath_nonce (s : State) : (clearDatapath s).nonce = s.nonce := rfl
@[simp] theorem clearDatapath_bufBytes (s : State) : (clearDatapath s).bufBytes = s.bufBytes := rfl
@[simp] theorem clearDatapath_inBuf (s : State) : (clearDatapath s).inBuf = s.inBuf := rfl
@[simp] theorem clearDatapath_outBuf (s : State) : (clearDatapath s).outBuf = s.outBuf := rfl
@[simp] theorem clearDatapath_expTag (s : State) : (clearDatapath s).expTag = zeroTag := rfl
@[simp] theorem clearDatapath_rxTag (s : State) : (clearDatapath s).rxTag = zeroTag := rfl
@[simp] theorem clearDatapath_diff (s : State) : (clearDatapath s).diff = 0#8 := rfl
@[simp] theorem clearDatapath_tagMatch (s : State) : (clearDatapath s).tagMatch = false := rfl
@[simp] theorem clearDatapath_workPlain (s : State) : (clearDatapath s).workPlain = [] := rfl
@[simp] theorem clearDatapath_workCipher (s : State) : (clearDatapath s).workCipher = s.workCipher := rfl
@[simp] theorem clearDatapath_workTag (s : State) : (clearDatapath s).workTag = s.workTag := rfl
@[simp] theorem clearDatapath_entropyOffer (s : State) : (clearDatapath s).entropyOffer = s.entropyOffer := rfl
@[simp] theorem clearDatapath_coreInit (s : State) : (clearDatapath s).coreInit = s.coreInit := rfl
@[simp] theorem clearDatapath_busResp (s : State) : (clearDatapath s).busResp = s.busResp := rfl
@[simp] theorem clearDatapath_events (s : State) : (clearDatapath s).events = s.events := rfl
@[simp] theorem clearDatapath_program (s : State) : (clearDatapath s).program = s.program := rfl
@[simp] theorem clearDatapath_bound (s : State) : (clearDatapath s).bound = s.bound := rfl
@[simp] theorem clearDatapath_asExpected (s : State) : (clearDatapath s).asExpected = s.asExpected := rfl

@[simp] theorem settle_phase (op : HostOp) (p : List HostOp) (s : State) : (settle op p s).phase = s.phase := rfl
@[simp] theorem settle_done (op : HostOp) (p : List HostOp) (s : State) : (settle op p s).done = s.done := rfl
@[simp] theorem settle_error (op : HostOp) (p : List HostOp) (s : State) : (settle op p s).error = s.error := rfl
@[simp] theorem settle_errCode (op : HostOp) (p : List HostOp) (s : State) : (settle op p s).errCode = s.errCode := rfl
@[simp] theorem settle_doneIE (op : HostOp) (p : List HostOp) (s : State) : (settle op p s).doneIE = s.doneIE := rfl
@[simp] theorem settle_keyLen (op : HostOp) (p : List HostOp) (s : State) : (settle op p s).keyLen = s.keyLen := rfl
@[simp] theorem settle_nonceLen (op : HostOp) (p : List HostOp) (s : State) : (settle op p s).nonceLen = s.nonceLen := rfl
@[simp] theorem settle_inLen (op : HostOp) (p : List HostOp) (s : State) : (settle op p s).inLen = s.inLen := rfl
@[simp] theorem settle_outLen (op : HostOp) (p : List HostOp) (s : State) : (settle op p s).outLen = s.outLen := rfl
@[simp] theorem settle_key (op : HostOp) (p : List HostOp) (s : State) : (settle op p s).key = s.key := rfl
@[simp] theorem settle_nonce (op : HostOp) (p : List HostOp) (s : State) : (settle op p s).nonce = s.nonce := rfl
@[simp] theorem settle_bufBytes (op : HostOp) (p : List HostOp) (s : State) : (settle op p s).bufBytes = s.bufBytes := rfl
@[simp] theorem settle_inBuf (op : HostOp) (p : List HostOp) (s : State) : (settle op p s).inBuf = s.inBuf := rfl
@[simp] theorem settle_outBuf (op : HostOp) (p : List HostOp) (s : State) : (settle op p s).outBuf = s.outBuf := rfl
@[simp] theorem settle_expTag (op : HostOp) (p : List HostOp) (s : State) : (settle op p s).expTag = s.expTag := rfl
@[simp] theorem settle_rxTag (op : HostOp) (p : List HostOp) (s : State) : (settle op p s).rxTag = s.rxTag := rfl
@[simp] theorem settle_diff (op : HostOp) (p : List HostOp) (s : State) : (settle op p s).diff = s.diff := rfl
@[simp] theorem settle_tagMatch (op : HostOp) (p : List HostOp) (s : State) : (settle op p s).tagMatch = s.tagMatch := rfl
@[simp] theorem settle_workPlain (op : HostOp) (p : List HostOp) (s : State) : (settle op p s).workPlain = s.workPlain := rfl
@[simp] theorem settle_workCipher (op : HostOp) (p : List HostOp) (s : State) : (settle op p s).workCipher = s.workCipher := rfl
@[simp] theorem settle_workTag (op : HostOp) (p : List HostOp) (s : State) : (settle op p s).workTag = s.workTag := rfl
@[simp] theorem settle_entropyOffer (op : HostOp) (p : List HostOp) (s : State) : (settle op p s).entropyOffer = s.entropyOffer := rfl
@[simp] theorem settle_coreInit (op : HostOp) (p : List HostOp) (s : State) : (settle op p s).coreInit = s.coreInit := rfl
@[simp] theorem settle_busResp (op : HostOp) (p : List HostOp) (s : State) : (settle op p s).busResp = s.busResp := rfl
@[simp] theorem settle_events (op : HostOp) (p : List HostOp) (s : State) : (settle op p s).events = s.events := rfl

end Sys2Proof.Machine
end

