-- ==== Sys2Proof/Laws/Ops.lean ====
section
/-! SUPPORT. One lemma per shared operation that says once everything it does: the accept, the completions, reset, and the two halves
of the tag comparison. -/

namespace Sys2Proof.Machine

/-- Everything an accept does (R101). -/
theorem accept_eq (op : Op) (s : State) :
    accept op s = { s with done := false, error := false, errCode := 0#4, phase := .pending op } := rfl

/-- Everything a successful completion does (R196, R198). -/
theorem completeOk_eq (S : List Byte) (s : State) :
    completeOk S s = { s with
      outBuf := Memory.ofBytes S, outLen := BitVec.ofNat 32 S.length
      key := zeroKey, keyLen := 0#32, inBuf := [], inLen := 0#32
      done := true, error := false, errCode := 0#4, phase := .idle } := rfl

/-- Everything an error completion does (R197, R198, R136, R168). -/
theorem completeErr_eq (op : Op) (c : ErrCode) (s : State) :
    completeErr op c s = { s with
      outBuf := [], outLen := 0#32
      nonce := if op = .encrypt then zeroNonce else s.nonce
      nonceLen := if op = .encrypt then 0#32 else s.nonceLen
      key := zeroKey, keyLen := 0#32, inBuf := [], inLen := 0#32
      done := true, error := c != .none, errCode := c.bits, phase := .idle } := by
  cases op <;> rfl

/-- Everything an illegal command does (R183). -/
theorem illegalCommand_eq (s : State) : illegalCommand s = { s with done := true, error := true, errCode := 6#4 } := rfl

/-- The OR-fold of a list is zero exactly when its start and every member are. -/
theorem foldl_or_eq_zero (l : List Byte) (a : Byte) : l.foldl (· ||| ·) a = 0#8 ↔ a = 0#8 ∧ ∀ x ∈ l, x = 0#8 := by
  induction l generalizing a with
  | nil => simp
  | cons x l ih => simp [ih, and_assoc]

/-- DIFF is zero exactly when the two tags are equal (R154). -/
theorem tagDiff_eq_zero (e r : Tag) : tagDiff e r = 0#8 ↔ e = r := by
  have key : ∀ l l' : List Byte, l.length = l'.length → ((∀ x ∈ List.zipWith (· ^^^ ·) l l', x = 0#8) ↔ l = l') := by
    intro l
    induction l with
    | nil => intro l' h; cases l' <;> simp_all
    | cons a l ih =>
      intro l' h
      cases l' with
      | nil => simp at h
      | cons a' l' => simp [ih l' (by simpa using h)]
  rw [tagDiff, foldl_or_eq_zero, key _ _ (by simp), Vector.toList_inj]
  simp

end Sys2Proof.Machine
end

