-- ==== Sys2Proof/Laws/Commands.lean ====
section
/-! SUPPORT. What each command's step is, case by case, and the inversion of `exec`: everything a command can do. -/

namespace Sys2Proof.Machine

theorem encryptCheck_badKeyLen {p : Params} {s : State} (h : s.keyLen ≠ 32#32) :
    encryptCheck p s = completeErr .encrypt .invalidKeyLength s := by simp [encryptCheck, h]

theorem encryptCheck_tooLong {p : Params} {s : State} (h : s.keyLen = 32#32) (hl : encryptTooLong p s = true) :
    encryptCheck p s = completeErr .encrypt .lengthError s := by simp [encryptCheck, h, hl]

theorem encryptCheck_pass {p : Params} {s : State} (h : s.keyLen = 32#32) (hl : encryptTooLong p s = false) :
    encryptCheck p s = s.setPhase .waitRng := by simp [encryptCheck, h, hl]

theorem encryptTooLong_iff {p : Params} {s : State} :
    encryptTooLong p s = true ↔ s.bufBytes < s.inLen.toNat ∨ p.coreMaxPt < s.inLen.toNat := by simp [encryptTooLong]

theorem decryptTooLong_iff {p : Params} {s : State} : decryptTooLong p s = true ↔
    s.bufBytes < s.inLen.toNat ∨ (16 ≤ s.inLen.toNat ∧ p.coreMaxPt < s.inLen.toNat - 16) := by simp [decryptTooLong]

/-- The seal: the result is Seal(k, n, P) of the operands (R134). -/
theorem sealAndCommit_eq (p : Params) (n : Nonce) (s : State) :
    sealAndCommit p n s = completeOk (sealRef p.core s.keyBytes n s.plaintext) ((loadSeal p n s).setNonce (nonceWords n) 12#32) :=
  rfl

/-- The chip's CoreInit draw is the free verdict at the core's port (R116). -/
@[simp] theorem coreInitDraw_params (s : State) : coreInitDraw Config.params s = s.coreInit := rfl

@[simp] theorem params_coreMaxPt : Config.params.coreMaxPt = Config.coreMaxPt := rfl

/-- Tag verification in one line: equal tags commit, different tags fail (R154, R156, R157). -/
theorem verifyTag_eq (p : Params) (s : State) :
    verifyTag p s =
      if tagFor p.core s.keyBytes s.nonceBytes s.body = s.receivedTag then
        completeOk (dec p.core s.keyBytes s.nonceBytes s.body) (loadPlain p (compareTags (loadTags p s)))
      else completeErr .decrypt .authenticationFailure (compareTags (loadTags p s)) := by
  by_cases h : tagFor p.core s.keyBytes s.nonceBytes s.body = s.receivedTag
  · have : (compareTags (loadTags p s)).tagMatch = true := by
      simpa [compareTags, loadTags] using (tagDiff_eq_zero _ _).mpr h
    rw [if_pos h, verifyTag, commitOrFail, if_pos this]; rfl
  · have : (compareTags (loadTags p s)).tagMatch ≠ true := by
      simpa [compareTags, loadTags, tagDiff_eq_zero] using h
    rw [if_neg h, verifyTag, commitOrFail, if_neg this]

theorem encryptSeal_ok {p : Params} {n : Nonce} {s : State} (hv : coreInitDraw p s = .ok) :
    encryptSeal p n s = clearSeal (sealAndCommit p n (consumeEntropy s)) := by simp [encryptSeal, hv]

theorem encryptSeal_fail {p : Params} {n : Nonce} {s : State} (hv : coreInitDraw p s = .fail) :
    encryptSeal p n s = clearSeal (completeErr .encrypt .cipherInitError (consumeEntropy s)) := by simp [encryptSeal, hv]

theorem exec_encrypt_pending {s : State} (h : s.phase = .pending .encrypt) :
    exec .encrypt s = .next (encryptCheck Config.params s) := by simp [exec, execEncrypt, encryptCommand, h]

theorem exec_encrypt_waitRng {s : State} (h : s.phase = .waitRng) :
    exec .encrypt s = .next (encryptWait Config.params s) := by simp [exec, execEncrypt, encryptCommand, h]

theorem exec_encrypt_seal {s : State} {n : Nonce} (h : s.phase = .waitRng) (hn : s.entropyOffer = some n) :
    exec .encrypt s = .next (encryptSeal Config.params n s) := by simp [exec_encrypt_waitRng h, encryptWait, hn]

theorem exec_decrypt_pending {s : State} (h : s.phase = .pending .decrypt) :
    exec .decrypt s = .next (decryptStep Config.params s) := by simp [exec, execDecrypt, decryptCommand, h]

theorem exec_zeroize_pending {s : State} (h : s.phase = .pending .zeroize) :
    exec .zeroize s = .next (zeroizeStep s) := by simp [exec, execZeroize, zeroizeCommand, h]

/-! The DECRYPT checks in their order (R193). -/

theorem decryptChecks_badKeyLen {p : Params} {s : State} (h : s.keyLen ≠ 32#32) :
    decryptChecks p s = completeErr .decrypt .invalidKeyLength s := by simp [decryptChecks, h]

theorem decryptChecks_badNonceLen {p : Params} {s : State} (h : s.keyLen = 32#32) (hn : s.nonceLen ≠ 12#32) :
    decryptChecks p s = completeErr .decrypt .invalidNonceLength s := by simp [decryptChecks, h, hn]

theorem decryptChecks_tooLong {p : Params} {s : State} (h : s.keyLen = 32#32) (hn : s.nonceLen = 12#32)
    (hl : decryptTooLong p s = true) : decryptChecks p s = completeErr .decrypt .lengthError s := by
  simp [decryptChecks, h, hn, hl]

theorem decryptChecks_truncated {p : Params} {s : State} (h : s.keyLen = 32#32) (hn : s.nonceLen = 12#32)
    (hl : decryptTooLong p s = false) (ht : s.inLen.toNat < 16) :
    decryptChecks p s = completeErr .decrypt .authenticationFailure s := by simp [decryptChecks, h, hn, hl, ht]

theorem decryptChecks_coreFail {p : Params} {s : State} (h : s.keyLen = 32#32) (hn : s.nonceLen = 12#32)
    (hl : decryptTooLong p s = false) (ht : 16 ≤ s.inLen.toNat) (hv : coreInitDraw p s = .fail) :
    decryptChecks p s = completeErr .decrypt .cipherInitError s := by
  simp [decryptChecks, h, hn, hl, hv, show ¬ s.inLen.toNat < 16 by omega]

theorem decryptChecks_verify {p : Params} {s : State} (h : s.keyLen = 32#32) (hn : s.nonceLen = 12#32)
    (hl : decryptTooLong p s = false) (ht : 16 ≤ s.inLen.toNat) (hv : coreInitDraw p s = .ok) :
    decryptChecks p s = verifyTag p s := by
  simp [decryptChecks, h, hn, hl, hv, show ¬ s.inLen.toNat < 16 by omega]

/-- Every command answers a next state, in every state. -/
theorem exec_next (i : Instr) (s : State) : ∃ t, exec i s = .next t := by
  cases i
  · exact ⟨nopCommand s, rfl⟩
  · exact ⟨encryptCommand Config.params s, rfl⟩
  · exact ⟨decryptCommand Config.params s, rfl⟩
  · exact ⟨zeroizeCommand s, rfl⟩

/-- Everything a command's step can do: nothing, be turned away, be accepted, or take its own Engine step. -/
theorem exec_cases {i : Instr} {s t : State} (h : exec i s = .next t) :
    (i = .nop ∧ s.phase = .idle ∧ t = s) ∨ (s.phase ≠ .idle ∧ t = turnedAway s) ∨
    (∃ op, s.phase = .idle ∧ t = accept op s) ∨
    (i = .encrypt ∧ s.phase = .pending .encrypt ∧ t = encryptCheck Config.params s) ∨
    (i = .encrypt ∧ s.phase = .waitRng ∧ t = encryptWait Config.params s) ∨
    (i = .decrypt ∧ s.phase = .pending .decrypt ∧ t = decryptStep Config.params s) ∨
    (i = .zeroize ∧ s.phase = .pending .zeroize ∧ t = zeroizeStep s) := by
  cases i <;> simp only [exec, execNop, execEncrypt, execDecrypt, execZeroize, Host.Outcome.next.injEq] at h <;> subst h
  · unfold nopCommand; split <;> simp_all
  · unfold encryptCommand; split <;> simp_all
    exact ⟨.encrypt, rfl⟩
  · unfold decryptCommand; split <;> simp_all
    exact ⟨.decrypt, rfl⟩
  · unfold zeroizeCommand; split <;> simp_all
    exact ⟨.zeroize, rfl⟩

/-- Everything the check step can do (R131). -/
theorem encryptCheck_cases (p : Params) (s : State) :
    (∃ c, (c = .invalidKeyLength ∨ c = .lengthError) ∧ encryptCheck p s = completeErr .encrypt c s) ∨
    (s.keyLen = 32#32 ∧ s.inLen.toNat ≤ s.bufBytes ∧ s.inLen.toNat ≤ p.coreMaxPt ∧ encryptCheck p s = s.setPhase .waitRng) := by
  by_cases h : s.keyLen = 32#32
  · by_cases hl : encryptTooLong p s = true
    · exact .inl ⟨_, .inr rfl, encryptCheck_tooLong h hl⟩
    · have := mt encryptTooLong_iff.mpr hl
      exact .inr ⟨h, by omega, by omega, encryptCheck_pass h (by simpa using hl)⟩
  · exact .inl ⟨_, .inl rfl, encryptCheck_badKeyLen h⟩

/-- Everything the Engine can do in WAIT_RNG (R132, R213). -/
theorem encryptWait_cases (p : Params) (s : State) :
    (s.entropyOffer = none ∧ encryptWait p s = s) ∨
    (∃ n, s.entropyOffer = some n ∧ coreInitDraw p s = .fail ∧
      encryptWait p s = clearSeal (completeErr .encrypt .cipherInitError (consumeEntropy s))) ∨
    (∃ n, s.entropyOffer = some n ∧ coreInitDraw p s = .ok ∧ encryptWait p s = clearSeal (sealAndCommit p n (consumeEntropy s))) := by
  unfold encryptWait encryptSeal
  cases h : s.entropyOffer with
  | none => simp
  | some n => cases h' : coreInitDraw p s <;> simp

/-- Everything the DECRYPT step can do (R151). -/
theorem decryptStep_cases (p : Params) (s : State) :
    (∃ c, c ≠ .none ∧ c ≠ .illegalCommand ∧ decryptStep p s = clearDatapath (completeErr .decrypt c s)) ∨
    (s.keyLen = 32#32 ∧ s.nonceLen = 12#32 ∧ 16 ≤ s.inLen.toNat ∧ s.inLen.toNat ≤ s.bufBytes ∧
      s.inLen.toNat - 16 ≤ p.coreMaxPt ∧ coreInitDraw p s = .ok ∧
      tagFor p.core s.keyBytes s.nonceBytes s.body = s.receivedTag ∧
      decryptStep p s = clearDatapath (completeOk (dec p.core s.keyBytes s.nonceBytes s.body) s)) := by
  unfold decryptStep decryptChecks
  split_ifs with h1 h2 h3 h4
  · exact .inl ⟨_, by simp, by simp, rfl⟩
  · exact .inl ⟨_, by simp, by simp, rfl⟩
  · exact .inl ⟨_, by simp, by simp, rfl⟩
  · exact .inl ⟨_, by simp, by simp, rfl⟩
  · have := mt decryptTooLong_iff.mpr h3
    cases hv : coreInitDraw p s with
    | fail => exact .inl ⟨_, by simp, by simp, rfl⟩
    | ok =>
      simp only [verifyTag_eq]
      split_ifs with ht
      · exact .inr ⟨by simpa using h1, by simpa using h2, by omega, by omega, by omega, trivial, ht, rfl⟩
      · exact .inl ⟨.authenticationFailure, by simp, by simp, rfl⟩

end Sys2Proof.Machine
end

