-- ==== Sys2Proof/Laws/Step.lean ====
section
/-! SUPPORT. The bus interface case by case, and the inversion of `step`: everything one step of the machine can do. -/

namespace Sys2Proof.Machine

theorem locate_inBuf {buf a o : Nat} (h : locate buf a = .inBuf o) : a = 0x10000 + o ∧ o < buf := by
  unfold locate at h
  split_ifs at h with h1 h2
  simp only [Loc.inBuf.injEq] at h
  omega

theorem locate_outBuf {buf a o : Nat} (h : locate buf a = .outBuf o) : a = 0x20000 + o ∧ o < buf + 16 := by
  unfold locate at h
  split_ifs at h with h1 h2 h3
  simp only [Loc.outBuf.injEq] at h
  omega

theorem locate_reg {buf a : Nat} {r : Reg} (h : locate buf a = .reg r) : a < 0x100 ∧ r = regAt a := by
  unfold locate at h
  split_ifs at h with h1
  exact ⟨h1, by simpa using h.symm⟩

theorem regAt_cmd {off : Nat} (h : regAt off = .cmd) : off = 0x004 := by
  unfold regAt at h
  split_ifs at h with h0 h1
  exact h1

/-- A granted access is an aligned word access, and no write to a locked place while BUSY = 1 (R195). -/
theorem arbitrate_granted {w : Bool} {z : Size} {a : Addr} {s : State} {l : Loc} (h : arbitrate w z a s = .granted l) :
    l = locate s.bufBytes a.toNat ∧ z = .word ∧ a.toNat % 4 = 0 ∧ l ≠ .unmapped ∧ l ≠ .outside ∧
      (w = true → s.busy = true → l.writeLocked = false) := by
  unfold arbitrate at h
  dsimp only at h
  split_ifs at h with h1 h2
  simp only [Decision.granted.injEq] at h
  subst h
  push Not at h2
  obtain ⟨a1, a2, a3, a4⟩ := h2
  exact ⟨rfl, a1, a2, a3, h1, fun hw hb => by simpa using a4 hw hb⟩

@[simp] theorem busy_eq_false {s : State} : s.busy = false ↔ s.phase = .idle := by simp [State.busy]

@[simp] theorem busy_eq_true {s : State} : s.busy = true ↔ s.phase ≠ .idle := by simp [State.busy]

/-- Everything a bus read can do: answer (R68). -/
theorem busRead_cases (z : Size) (a : Addr) (s : State) : ∃ r, busRead z a s = s.respond r := by
  unfold busRead; split <;> exact ⟨_, rfl⟩

/-- Everything a Host transaction can do (R68-R71). -/
theorem hostAccess_cases {a : Access} {s t : State} (h : hostAccess a s = .next t) :
    (∃ r, t = s.respond r) ∨
    (∃ b v r, a = .write .word b v ∧ r = regAt b.toNat ∧ b.toNat < 0x100 ∧ r ≠ .cmd ∧
      (s.phase ≠ .idle → r.busyLocked = false) ∧ t = writeReg r v (s.respond .okayWrite)) ∨
    (∃ b v o, a = .write .word b v ∧ b.toNat = 0x10000 + o ∧ o < s.bufBytes ∧ o % 4 = 0 ∧ s.phase = .idle ∧
      t = { s.respond .okayWrite with inBuf := s.inBuf.writeWord o v }) ∨
    (∃ v, a = .write .word cmdAddr v ∧ s.phase = .idle ∧ issue v (s.respond .okayWrite) = .next t) := by
  cases a with
  | read z b =>
    obtain ⟨r, hr⟩ := busRead_cases z b s
    simp only [hostAccess, hr, Host.Outcome.next.injEq] at h
    exact .inl ⟨r, h.symm⟩
  | write z b v =>
    simp only [hostAccess, busWrite] at h
    split at h
    · exact .inl ⟨_, by simpa using h.symm⟩
    · exact .inl ⟨_, by simpa using h.symm⟩
    · rename_i l hl
      obtain ⟨hloc, rfl, hal, -, -, hlock⟩ := arbitrate_granted hl
      unfold writeLoc at h
      split at h
      · obtain ⟨hb, hc⟩ := locate_reg hloc.symm
        have hb4 := regAt_cmd hc.symm
        have hidle : s.phase = .idle := by
          by_contra hne
          simpa [Loc.writeLocked, Reg.busyLocked] using hlock rfl (busy_eq_true.mpr hne)
        have : b = cmdAddr := by
          apply BitVec.eq_of_toNat_eq; simpa [cmdAddr] using hb4
        exact .inr (.inr (.inr ⟨v, by rw [this], hidle, h⟩))
      · rename_i r hne
        obtain ⟨hb, hr⟩ := locate_reg hloc.symm
        exact .inr (.inl ⟨b, v, r, rfl, hr, hb, by rintro rfl; exact hne rfl,
          fun hp => by simpa [Loc.writeLocked] using hlock rfl (busy_eq_true.mpr hp), by simpa using h.symm⟩)
      · rename_i o
        obtain ⟨hb, ho⟩ := locate_inBuf hloc.symm
        have hidle : s.phase = .idle := by
          by_contra hne
          simpa [Loc.writeLocked] using hlock rfl (busy_eq_true.mpr hne)
        exact .inr (.inr (.inl ⟨b, v, o, rfl, hb, ho, by omega, hidle, by simpa using h.symm⟩))
      · exact .inl ⟨_, by simpa using h.symm⟩
      · exact .inl ⟨_, by simpa using h.symm⟩
      · exact .inl ⟨_, by simpa using h.symm⟩

/-- Issue: the decoded command runs, or the word completes at once as illegal (R101). -/
theorem issue_cases {v : Word} {s t : State} (h : issue v s = .next t) :
    (∃ i, decodeWord v = .ok i ∧ exec i s = .next t) ∨ ((∀ i, decodeWord v ≠ .ok i) ∧ t = illegalCommand s) := by
  unfold issue at h
  split at h
  · exact .inl ⟨_, by assumption, h⟩
  · rename_i e he
    exact .inr ⟨by simp [he], by simpa using h.symm⟩

/-- Everything the Engine's turn can do. -/
theorem engineTurn_cases {s t : State} (h : engineTurn s = .next t) :
    (s.phase = .idle ∧ t = s) ∨ (s.phase = .pending .encrypt ∧ t = encryptCheck Config.params s) ∨
    (s.phase = .waitRng ∧ t = encryptWait Config.params s) ∨ (s.phase = .pending .decrypt ∧ t = decryptStep Config.params s) ∨
    (s.phase = .pending .zeroize ∧ t = zeroizeStep s) := by
  unfold engineTurn at h
  split at h <;>
    simp_all [exec, execEncrypt, execDecrypt, execZeroize, encryptCommand, decryptCommand, zeroizeCommand]

/-- A run takes its first step, then the rest of it. -/
theorem run_next (M : Host.Core) {k : Nat} {s u : M.State} (h : M.step s = .next u) : M.run (k + 1) s = M.run k u := by
  simp [Host.Core.run, h]

/-- Everything the Host's turn at its program can do: nothing at its end, else the transaction of its head and what the Host makes of
the response (R97). -/
theorem programTurn_cases {s t : State} (h : programTurn s = .next t) :
    (s.program = [] ∧ t = s) ∨
    ∃ op p u, s.program = op :: p ∧ hostAccess op.tuple.access s = .next u ∧ t = settle op p u := by
  unfold programTurn at h
  split at h
  · exact .inl ⟨by assumption, by simpa using h.symm⟩
  · rename_i op p hp
    cases hu : hostAccess op.tuple.access s with
    | next u => rw [hu] at h; exact .inr ⟨op, p, u, hp, hu, by simpa using h.symm⟩
    | fault f => rw [hu] at h; cases h
    | refused r => rw [hu] at h; cases h

/-- A scheduled step is taken off the schedule and performed (R7). -/
theorem step_cons (s : State) (e : Event) (rest : List Event) :
    step { s with events := e :: rest } = takeEvent e { s with events := rest } := rfl

/-- A CMD write reaches `issue` when no command is in progress (R101). -/
theorem hostAccess_cmd (s : State) (v : Word) (h : s.phase = .idle) :
    hostAccess (.write .word cmdAddr v) s = issue v (s.respond .okayWrite) := by
  have hb : s.busy = false := busy_eq_false.mpr h
  have : arbitrate true .word cmdAddr s = .granted (.reg .cmd) := by
    simp [arbitrate, show locate s.bufBytes 4 = .reg .cmd from rfl, show cmdAddr.toNat = 4 from rfl, hb]
  simp [hostAccess, busWrite, this, writeLoc]

/-- Everything one step of the machine can do: take the head of the schedule, or, when it lists nothing more, the Engine's turn. -/
theorem step_cases {s t : State} (h : step s = .next t) :
    (∃ rest, (s.events = .engine :: rest ∨ (s.events = [] ∧ rest = [])) ∧ engineTurn (s.withEvents rest) = .next t) ∨
    (∃ a rest, s.events = .host a :: rest ∧ hostAccess a (s.withEvents rest) = .next t) ∨
    (∃ rest, s.events = .program :: rest ∧ programTurn (s.withEvents rest) = .next t) ∨
    (∃ o rest, s.events = .entropy o :: rest ∧ t = { s with events := rest, entropyOffer := o }) ∨
    (∃ v rest, s.events = .coreInit v :: rest ∧ t = { s with events := rest, coreInit := v }) ∨
    (∃ rest, s.events = .reset :: rest ∧ t = hardReset (s.withEvents rest)) := by
  unfold step nextStep at h
  cases hs : s.events with
  | nil =>
    rw [hs] at h
    refine .inl ⟨[], .inr ⟨rfl, rfl⟩, ?_⟩
    have : s.withEvents [] = s := by rw [← hs]; rfl
    rw [this]; exact h
  | cons e rest =>
    rw [hs] at h
    cases e with
    | engine => exact .inl ⟨rest, .inl rfl, h⟩
    | host a => exact .inr (.inl ⟨a, rest, rfl, h⟩)
    | program => exact .inr (.inr (.inl ⟨rest, rfl, h⟩))
    | entropy o => exact .inr (.inr (.inr (.inl ⟨o, rest, rfl, by simpa [takeEvent, State.withEvents] using h.symm⟩)))
    | coreInit v => exact .inr (.inr (.inr (.inr (.inl ⟨v, rest, rfl, by simpa [takeEvent, State.withEvents] using h.symm⟩))))
    | reset => exact .inr (.inr (.inr (.inr (.inr ⟨rest, rfl, by simpa [takeEvent] using h.symm⟩))))

end Sys2Proof.Machine
end

