-- ==== Sys2Proof/Laws/Bus.lean ====
section
/-! SUPPORT. The address map as equations, and what a granted, a refused and an undecoded transaction each do, and a turn at a program. -/

namespace Sys2Proof.Machine

theorem locate_of_lt {buf a : Nat} (h : a < 0x100) : locate buf a = .reg (regAt a) := by simp [locate, h]

theorem locate_in {buf o : Nat} (ho : o < buf) : locate buf (0x10000 + o) = .inBuf o := by
  unfold locate; rw [if_neg (by omega), if_pos (by omega)]; simp

theorem locate_out {buf o : Nat} (hb : buf ≤ 65520) (ho : o < buf + 16) : locate buf (0x20000 + o) = .outBuf o := by
  unfold locate; rw [if_neg (by omega), if_neg (by omega), if_pos (by omega)]; simp

theorem locate_eq_outside {buf a : Nat} (hb : buf ≤ 65520) : locate buf a = .outside ↔ 0x30000 ≤ a := by
  unfold locate; split_ifs <;> simp <;> omega

theorem locate_eq_unmapped {buf a : Nat} (hb : buf ≤ 65520) : locate buf a = .unmapped ↔
    (0x100 ≤ a ∧ a < 0x10000) ∨ (0x10000 + buf ≤ a ∧ a < 0x20000) ∨ (0x20000 + buf + 16 ≤ a ∧ a < 0x30000) := by
  unfold locate; split_ifs <;> simp <;> omega

/-- The parameter's constraint (R5), as numbers. -/
theorem bufBytesLegal_iff {b : Nat} : Config.bufBytesLegal b = true ↔ b % 4 = 0 ∧ 16 ≤ b ∧ b ≤ 65520 := by
  simp [Config.bufBytesLegal, and_assoc]

/-- A granted write has its effect and gets OKAY (R69). -/
theorem hostAccess_write_granted {s : State} {b : Addr} {v : Word} {l : Loc} (hl : locate s.bufBytes b.toNat = l)
    (h4 : b.toNat % 4 = 0) (hu : l ≠ .unmapped) (ho : l ≠ .outside) (hk : s.phase ≠ .idle → l.writeLocked = false) :
    hostAccess (.write .word b v) s = writeLoc l v (s.respond .okayWrite) := by
  have : arbitrate true .word b s = .granted l := by
    simp only [arbitrate, hl]
    rw [if_neg ho, if_neg]
    rintro (h | h | h | ⟨_, h, h'⟩)
    · exact h rfl
    · exact h h4
    · exact hu h
    · rw [hk (busy_eq_true.mp h)] at h'; cases h'
  simp only [hostAccess, busWrite, this]

/-- A granted read answers the word at its place, and changes nothing (R68). -/
theorem hostAccess_read_granted {s : State} {b : Addr} {l : Loc} (hl : locate s.bufBytes b.toNat = l)
    (h4 : b.toNat % 4 = 0) (hu : l ≠ .unmapped) (ho : l ≠ .outside) :
    hostAccess (.read .word b) s = .next (s.respond (.okayRead (readLoc s l))) := by
  have : arbitrate false .word b s = .granted l := by
    simp only [arbitrate, hl]
    rw [if_neg ho, if_neg]
    rintro (h | h | h | ⟨h, _⟩)
    · exact h rfl
    · exact h h4
    · exact hu h
    · cases h
  simp only [hostAccess, busRead, this]

/-- A write with one of the causes of R195 gets SLVERR and has no effect (R70). -/
theorem hostAccess_write_refused {s : State} {z : Size} {b : Addr} {v : Word} (ho : locate s.bufBytes b.toNat ≠ .outside)
    (h : z ≠ .word ∨ b.toNat % 4 ≠ 0 ∨ locate s.bufBytes b.toNat = .unmapped ∨
      (s.phase ≠ .idle ∧ (locate s.bufBytes b.toNat).writeLocked = true)) :
    hostAccess (.write z b v) s = .next (s.respond .slverr) := by
  have : arbitrate true z b s = .busError := by
    simp only [arbitrate]
    rw [if_neg ho, if_pos]
    simpa using h
  simp only [hostAccess, busWrite, this]

/-- A read with one of the causes of R195 gets SLVERR and has no effect (R70). -/
theorem hostAccess_read_refused {s : State} {z : Size} {b : Addr} (ho : locate s.bufBytes b.toNat ≠ .outside)
    (h : z ≠ .word ∨ b.toNat % 4 ≠ 0 ∨ locate s.bufBytes b.toNat = .unmapped) :
    hostAccess (.read z b) s = .next (s.respond .slverr) := by
  have : arbitrate false z b s = .busError := by
    simp only [arbitrate]
    rw [if_neg ho, if_pos]
    simpa using h
  simp only [hostAccess, busRead, this]

/-! A transaction does not depend on the program that makes it (R97), and always has a response. -/

theorem exec_idle_withProgram {i : Instr} {s t : State} (q : List HostOp) (hp : s.phase = .idle) (h : exec i s = .next t) :
    exec i { s with program := q } = .next { t with program := q } := by
  rcases exec_cases h with ⟨rfl, -, rfl⟩ | ⟨hh, -⟩ | ⟨op, -, rfl⟩ | ⟨-, hh, -⟩ | ⟨-, hh, -⟩ | ⟨-, hh, -⟩ | ⟨-, hh, -⟩
  · simp [exec, execNop, nopCommand, hp]
  · exact absurd hp hh
  · cases i <;> simp only [exec, execNop, execEncrypt, execDecrypt, execZeroize, nopCommand, encryptCommand, decryptCommand,
      zeroizeCommand, hp, Host.Outcome.next.injEq] at h ⊢ <;> first | (rw [← h]; rfl) | skip
    have h' := congrArg State.phase h
    rw [hp] at h'; cases h'
  all_goals (rw [hp] at hh; cases hh)

theorem hostAccess_withProgram {a : Access} {s t : State} (q : List HostOp) (h : hostAccess a s = .next t) :
    hostAccess a { s with program := q } = .next { t with program := q } := by
  cases a with
  | read z b =>
    have hr : ∀ l, readLoc { s with program := q } l = readLoc s l := by
      intro l; cases l with
      | reg r => cases r <;> rfl
      | _ => rfl
    simp only [hostAccess, busRead, show arbitrate false z b { s with program := q } = arbitrate false z b s from rfl, hr] at h ⊢
    split at h <;> simp only [Host.Outcome.next.injEq] at h ⊢ <;> subst h <;> rfl
  | write z b v =>
    simp only [hostAccess, busWrite, show arbitrate true z b { s with program := q } = arbitrate true z b s from rfl] at h ⊢
    cases ha : arbitrate true z b s with
    | granted l =>
      rw [ha] at h
      obtain ⟨-, -, -, -, -, hlock⟩ := arbitrate_granted ha
      cases l with
      | reg r =>
        cases r with
        | cmd =>
          have hp : s.phase = .idle := by
            by_contra hne; simpa [Loc.writeLocked, Reg.busyLocked] using hlock rfl (busy_eq_true.mpr hne)
          simp only [writeLoc] at h ⊢
          unfold issue at h ⊢
          split at h
          · exact exec_idle_withProgram (s := s.respond .okayWrite) q hp h
          · simp only [Host.Outcome.next.injEq] at h ⊢; subst h; rfl
        | _ => simp only [writeLoc, Host.Outcome.next.injEq] at h ⊢; subst h; rfl
      | _ => simp only [writeLoc, Host.Outcome.next.injEq] at h ⊢; subst h; rfl
    | _ => rw [ha] at h; simp only [Host.Outcome.next.injEq] at h ⊢; subst h; rfl

/-- Everything a transaction leaves to the Host, and that it gets a response. -/
theorem hostAccess_frame {a : Access} {s t : State} (h : hostAccess a s = .next t) :
    t.program = s.program ∧ t.bound = s.bound ∧ t.asExpected = s.asExpected ∧ t.events = s.events ∧
      t.entropyOffer = s.entropyOffer ∧ t.coreInit = s.coreInit ∧ ∃ r, t.busResp = some r := by
  rcases hostAccess_cases h with ⟨r, rfl⟩ | ⟨b, v, r, -, -, -, -, -, rfl⟩ | ⟨b, v, o, -, -, -, -, -, rfl⟩ | ⟨v, -, hp, h⟩
  · simp
  · cases r <;> simp [writeReg, acknowledge]
  · simp
  · rcases issue_cases h with ⟨i, -, h⟩ | ⟨-, rfl⟩
    · rcases exec_cases h with ⟨-, -, rfl⟩ | ⟨hh, -⟩ | ⟨op, -, rfl⟩ | ⟨-, hh, -⟩ | ⟨-, hh, -⟩ | ⟨-, hh, -⟩ | ⟨-, hh, -⟩
      · simp
      · exact absurd hp hh
      · simp [accept_eq]
      all_goals (rw [State.respond_phase, hp] at hh; cases hh)
    · simp [illegalCommand_eq]

/-- WAITDONE's condition on a read of STATUS is DONE (R98). -/
theorem pollHolds_done (s : State) : pollHolds 0x00000002#32 0x00000002#32 s.statusWord = s.done := by
  have hc : ∀ c : BitVec 4, ((c.setWidth 32 <<< 8 : Word) &&& 2#32) = 0#32 := by decide
  unfold State.statusWord pollHolds
  cases s.done <;> cases s.busy <;> cases s.error <;> cases s.rngWait <;> simp [bitAt, hc, BitVec.and_or_distrib_right]

/-- A turn at WAITDONE: the read of STATUS, and on it goes when DONE is 0 (R98). -/
theorem programTurn_waitDone {s : State} {p : List HostOp} (hp : s.program = Pseudo.expand .waitDone ++ p) :
    programTurn s = .next { s with
      busResp := some (.okayRead s.statusWord), program := if s.done = true then p else s.program } := by
  have hr : hostAccess (.read .word 0x008#18) s = .next (s.respond (.okayRead s.statusWord)) :=
    hostAccess_read_granted (l := .reg .status) rfl (by decide) (by decide) (by decide)
  have hd := pollHolds_done s
  simp only [Pseudo.expand, List.cons_append, List.nil_append] at hp
  simp only [programTurn, hp, HostOp.tuple, Transaction.access, hr, settle, HostOp.remaining, HostOp.bind, responseData,
    State.respond, Option.bind_some, Option.any_some, hd, Transaction.meets]
  simp

end Sys2Proof.Machine
end

