-- ==== Sys2Proof/Laws/PerInstr.lean ====
section
/-! SUPPORT. The facts that hold of every command as syntax, one lemma per constructor. -/

namespace Sys2Proof.Laws

/-- The family Encoding: the command is well formed, its word is well formed, and the word decodes to the command (R92, R100). -/
def Encoding.Statement (i : Instr) : Prop :=
  i.wf = true ∧ CommandWord.wf (encode i) = true ∧ decodeWord (encode i) = .ok i

theorem Encoding.nop : Encoding.Statement .nop := ⟨rfl, by decide, rfl⟩

theorem Encoding.encrypt : Encoding.Statement .encrypt := ⟨rfl, by decide, rfl⟩

theorem Encoding.decrypt : Encoding.Statement .decrypt := ⟨rfl, by decide, rfl⟩

theorem Encoding.zeroize : Encoding.Statement .zeroize := ⟨rfl, by decide, rfl⟩

end Sys2Proof.Laws
end

