-- ==== Sys2Proof/Tests/Slice0.lean ====
section
/-! SUPPORT. The model's own tests. Expected values are those of spec/95_test_vectors.md (its number is in each docstring) or are
written out from the rules; then one witness theorem for each obligation that has hypotheses. -/

namespace Sys2Proof.Tests

open Sys2Proof.Machine Sys2Proof.Claims

/-! ## Decoding: words written out from the fields RSVD (28 bits) and OP (4 bits) of R90, with OP of R92 -/

theorem test_decode_nop : decodeWord (0b0000000000000000000000000000#28 ++ 0b0000#4) = .ok .nop := by decide

theorem test_decode_encrypt : decodeWord (0b0000000000000000000000000000#28 ++ 0b0001#4) = .ok .encrypt := by decide

theorem test_decode_decrypt : decodeWord (0b0000000000000000000000000000#28 ++ 0b0010#4) = .ok .decrypt := by decide

theorem test_decode_zeroize : decodeWord (0b0000000000000000000000000000#28 ++ 0b0011#4) = .ok .zeroize := by decide

/-- The words of V-I1 and V-I2, rejected by name. -/
theorem test_decode_illegal :
    decodeWord 0x00000004#32 = .error (.illegalCommand 0x00000004#32) ∧
    decodeWord 0x0000000F#32 = .error (.illegalCommand 0x0000000F#32) ∧
    decodeWord 0x00000011#32 = .error (.illegalCommand 0x00000011#32) ∧
    decodeWord 0x80000001#32 = .error (.illegalCommand 0x80000001#32) ∧
    decodeWord 0xFFFFFFFF#32 = .error (.illegalCommand 0xFFFFFFFF#32) := by decide

theorem test_decode_truncated : decodeBytes [0x01#8, 0x00#8, 0x00#8] = .error .truncated := by decide

/-! ## WellFormed: one ill-formed term for each check -/

/-- RSVD ≠ 0 with a legal OP. -/
theorem test_wf_refuses_rsvd : CommandWord.wf 0x00000011#32 = false ∧ CommandWord.wf 0x80000001#32 = false := by decide

/-- OP above 0x3 with RSVD = 0. -/
theorem test_wf_refuses_op : CommandWord.wf 0x00000004#32 = false ∧ CommandWord.wf 0x0000000F#32 = false := by decide

/-- A key of 31 bytes, a nonce of 13, an input and a result longer than their buffers. -/
theorem test_wf_refuses_pseudo :
    Pseudo.wf 16 (.loadKey (List.replicate 31 0#8)) = false ∧ Pseudo.wf 16 (.loadNonce (List.replicate 13 0#8)) = false ∧
    Pseudo.wf 16 (.loadIn (List.replicate 17 0#8)) = false ∧ Pseudo.wf 16 (.readOut 33) = false := by decide

/-! ## The toy test core of spec/95_test_vectors.md 2.1 (not normative) -/

def toyByte (k : Key) (n : Nonce) (b : Byte) (i : Nat) : Byte :=
  b ^^^ k.toList.getD (i % 32) 0#8 ^^^ n.toList.getD (i % 12) 0#8

def toyEnc (k : Key) (n : Nonce) (len : Nat) (P : Vector Byte len) : Vector Byte len :=
  ⟨(P.toList.mapIdx fun i b => toyByte k n b i).toArray, by simp⟩

theorem toyEnc_involution (k : Key) (n : Nonce) (len : Nat) (P : Vector Byte len) : toyEnc k n len (toyEnc k n len P) = P := by
  apply Vector.toList_inj.mp
  have key : ∀ x y z : Byte, x ^^^ y ^^^ z ^^^ y ^^^ z = x := by
    intro x y z; apply BitVec.eq_of_getLsbD_eq; intro i _; simp; cases x.getLsbD i <;> cases y.getLsbD i <;> cases z.getLsbD i <;> rfl
  have run : ∀ Q : Vector Byte len, (toyEnc k n len Q).toList = Q.toList.mapIdx fun i b => toyByte k n b i := fun _ => rfl
  rw [run, run, List.mapIdx_mapIdx]
  apply List.ext_getElem
  · simp
  · intro i h1 h2; simp [toyByte, key]

def toyTag (k : Key) (n : Nonce) (_ad C : List Byte) : Tag :=
  bytesOfFn 16 fun j =>
    k.toList.getD j 0#8 ^^^ k.toList.getD (16 + j) 0#8 ^^^ n.toList.getD (j % 12) 0#8 ^^^
      (C.mapIdx fun i b => if i % 16 = j then b else 0#8).foldl (· ^^^ ·) 0#8 ^^^
      (if j = 0 then BitVec.ofNat 8 C.length else 0#8) ^^^ (if j = 1 then BitVec.ofNat 8 (C.length / 256) else 0#8)

def toyParams : Params where
  core :=
    { cipher := fun k n len => ⟨toyEnc k n len, toyEnc k n len, toyEnc_involution k n len, toyEnc_involution k n len⟩
      tagOf := toyTag }
  coreMaxPt := 4294967296
  initVerdict := none

/-- K of X1, as the eight words of R139. -/
def keyWords : Vector Word 8 :=
  #v[0x65206E61#32, 0x706D6178#32, 0x7620656C#32, 0x20797265#32, 0x79726576#32, 0x63657320#32, 0x20746572#32, 0x2E79656B#32]

/-- K of X1, "an example very very secret key.", as bytes. -/
def keyText : List Byte :=
  [0x61#8, 0x6E#8, 0x20#8, 0x65#8, 0x78#8, 0x61#8, 0x6D#8, 0x70#8, 0x6C#8, 0x65#8, 0x20#8, 0x76#8, 0x65#8, 0x72#8, 0x79#8, 0x20#8,
   0x76#8, 0x65#8, 0x72#8, 0x79#8, 0x20#8, 0x73#8, 0x65#8, 0x63#8, 0x72#8, 0x65#8, 0x74#8, 0x20#8, 0x6B#8, 0x65#8, 0x79#8, 0x2E#8]

/-- "hello world". -/
def helloWorld : List Byte := [0x68#8, 0x65#8, 0x6C#8, 0x6C#8, 0x6F#8, 0x20#8, 0x77#8, 0x6F#8, 0x72#8, 0x6C#8, 0x64#8]

/-- NA: the bytes 00 to 0B. -/
def nonceA : Nonce := #v[0x00#8, 0x01#8, 0x02#8, 0x03#8, 0x04#8, 0x05#8, 0x06#8, 0x07#8, 0x08#8, 0x09#8, 0x0A#8, 0x0B#8]

/-- The sealed buffer S of 2.1. -/
def sealedHello : List Byte :=
  [0x09#8, 0x0A#8, 0x4E#8, 0x0A#8, 0x13#8, 0x44#8, 0x1C#8, 0x18#8, 0x16#8, 0x00#8, 0x4E#8,
   0x15#8, 0x00#8, 0x1E#8, 0x15#8, 0x4F#8, 0x53#8, 0x12#8, 0x0C#8, 0x00#8, 0x09#8, 0x10#8, 0x5D#8, 0x0E#8, 0x16#8, 0x02#8, 0x0D#8]

/-- A state at the start of a command with the key K, an input and a phase. -/
def loaded (ph : Phase) (input : List Byte) : State :=
  { State.reset with
    phase := ph, key := keyWords, keyLen := 32#32, inBuf := Memory.ofBytes input, inLen := BitVec.ofNat 32 input.length }

/-- The start of the DECRYPT vectors: K, NA and an input. -/
def loadedDecrypt (input : List Byte) : State :=
  { loaded (.pending .decrypt) input with nonce := nonceWords nonceA, nonceLen := 12#32 }

/-! ## Commands -/

/-- V-E1: the seal step under NA. -/
theorem test_encrypt_seals :
    let t := encryptCommand toyParams { loaded .waitRng helloWorld with entropyOffer := some nonceA }
    t.statusWord = 0x00000002#32 ∧ t.outLen = 0x1B#32 ∧
      t.outBuf = Memory.ofBytes sealedHello ∧ t.nonce = #v[0x03020100#32, 0x07060504#32, 0x0B0A0908#32] ∧ t.nonceLen = 0x0C#32 := by
  decide +kernel

/-- V-E2 with KEY_LEN = 0x120: the check step. -/
theorem test_encrypt_key_length :
    let t := encryptCommand Config.params { loaded (.pending .encrypt) helloWorld with keyLen := 0x120#32 }
    t.statusWord = 0x00000106#32 ∧ t.outLen = 0#32 ∧ t.nonceLen = 0#32 ∧ t.keyLen = 0#32 := by decide +kernel

/-- V-D1: the round trip of V-E1. -/
theorem test_decrypt_round_trip :
    let t := decryptCommand toyParams (loadedDecrypt sealedHello)
    t.statusWord = 0x00000002#32 ∧ t.outLen = 0x0B#32 ∧ t.outBuf = Memory.ofBytes helloWorld ∧
      t.nonce = #v[0x03020100#32, 0x07060504#32, 0x0B0A0908#32] := by decide +kernel

/-- V-D8: bit 0 of byte 11, the first tag byte, is flipped. -/
theorem test_decrypt_tag_flip :
    let t := decryptCommand toyParams (loadedDecrypt (sealedHello.set 11 0x14#8))
    t.statusWord = 0x00000306#32 ∧ t.outLen = 0#32 ∧ t.outBuf = [] ∧ t.nonceLen = 12#32 := by decide +kernel

/-- V-N1: NOP after an error leaves STATUS = 0x00000106 and everything else. -/
theorem test_nop_keeps_status :
    nopCommand { State.reset with done := true, error := true, errCode := 1#4 } =
      { State.reset with done := true, error := true, errCode := 1#4 } := by decide

/-- V-Z1, the accept: STATUS = 0x00000001 and irq low. -/
theorem test_zeroize_accept :
    let t := zeroizeCommand { State.reset with done := true, doneIE := true, outLen := 0x1B#32 }
    t.statusWord = 0x00000001#32 ∧ t.irq = false ∧ t.outLen = 0x1B#32 := by decide

/-- V-Z1, the step: STATUS = 0x00000002, irq high, IRQ_EN kept, the result gone. -/
theorem test_zeroize_step :
    let t := zeroizeCommand
      { State.reset with phase := .pending .zeroize, doneIE := true, outLen := 0x1B#32, outBuf := [(0, 9#8)], nonceLen := 12#32 }
    t.statusWord = 0x00000002#32 ∧ t.irq = true ∧ t.doneIE = true ∧ t.outLen = 0#32 ∧ t.outBuf = [] ∧ t.nonceLen = 0#32 := by decide

/-- V-I1: an illegal word completes at once and zeroizes nothing. -/
theorem test_illegal_command :
    step { loaded .idle helloWorld with events := [issueEvent 0x00000004#32] } =
      .next { loaded .idle helloWorld with done := true, error := true, errCode := 6#4, busResp := some .okayWrite } := by rfl

/-! ## Bus accesses, on the reset state -/

/-- The response to one transaction. -/
def answer (a : Access) (s : State) : Option Response :=
  match hostAccess a s with
  | .next t => t.busResp
  | .fault _ => none
  | .refused _ => none

/-- V-B1, V-B2, V-B3, V-B5. -/
theorem test_reads_of_registers :
    answer (.read .word 0x000#18) State.reset = some (.okayRead 0xAEAD0001#32) ∧
    answer (.read .word 0x0F0#18) State.reset = some (.okayRead 0x00001000#32) ∧
    answer (.read .word 0x004#18) State.reset = some (.okayRead 0#32) ∧
    answer (.read .word 0x0FC#18) State.reset = some (.okayRead 0#32) := by decide +kernel

/-- V-B11 to V-B16. -/
theorem test_bus_errors_and_edges :
    answer (.read .word 0x002#18) State.reset = some .slverr ∧ answer (.write .word 0x012#18 1#32) State.reset = some .slverr ∧
    answer (.read .word 0x100#18) State.reset = some .slverr ∧
    answer (.read .word 0x10FFC#18) State.reset = some (.okayRead 0#32) ∧ answer (.read .word 0x11000#18) State.reset = some .slverr ∧
    answer (.read .word 0x2100C#18) State.reset = some (.okayRead 0#32) ∧ answer (.read .word 0x21010#18) State.reset = some .slverr ∧
    answer (.read .word 0x30000#18) State.reset = some .notDecoded ∧ answer (.read .byte 0x000#18) State.reset = some .slverr := by
  decide +kernel

/-- V-B4 and V-B9: KEY0 holds what was written and reads as 0; IRQ_EN keeps bit 0 alone. -/
theorem test_writes_of_registers :
    (∃ t, hostAccess (.write .word 0x020#18 0xDEADBEEF#32) State.reset = .next t ∧ t.key[0] = 0xDEADBEEF#32 ∧
      answer (.read .word 0x020#18) t = some (.okayRead 0#32)) ∧
    (∃ t, hostAccess (.write .word 0x00C#18 0xFFFFFFFF#32) State.reset = .next t ∧
      answer (.read .word 0x00C#18) t = some (.okayRead 1#32)) :=
  ⟨⟨_, rfl, by decide, by decide +kernel⟩, ⟨_, rfl, by decide +kernel⟩⟩

/-- V-B17 to V-B19, while an ENCRYPT is in progress. -/
theorem test_busy_lock :
    let s := loaded (.pending .encrypt) helloWorld
    answer (.write .word 0x010#18 0#32) s = some .slverr ∧ answer (.write .word 0x004#18 3#32) s = some .slverr ∧
    answer (.write .word 0x10000#18 0#32) s = some .slverr ∧ answer (.write .word 0x040#18 0#32) s = some .slverr ∧
    answer (.read .word 0x10000#18) s = some (.okayRead 0#32) ∧ answer (.read .word 0x010#18) s = some (.okayRead 0x20#32) := by
  decide +kernel

/-! ## Host programs -/

/-- LOADKEY K, as P1 writes it. -/
theorem test_expand_loadKey : Pseudo.expand (.loadKey keyText) =
    [.wr 0x020#18 0x65206E61#32, .wr 0x024#18 0x706D6178#32, .wr 0x028#18 0x7620656C#32, .wr 0x02C#18 0x20797265#32,
     .wr 0x030#18 0x79726576#32, .wr 0x034#18 0x63657320#32, .wr 0x038#18 0x20746572#32, .wr 0x03C#18 0x2E79656B#32,
     .wr 0x010#18 0x00000020#32] := by decide +kernel

/-- LOADIN "hello world", as P1 writes it. -/
theorem test_expand_loadIn : Pseudo.expand (.loadIn helloWorld) =
    [.wr 0x10000#18 0x6C6C6568#32, .wr 0x10004#18 0x6F77206F#32, .wr 0x10008#18 0x00646C72#32, .wr 0x018#18 0x0000000B#32] := by
  decide +kernel

/-- WAITDONE (R97, R98): the read is repeated while DONE = 0, and the POLL is done at the first read of DONE = 1. -/
theorem test_poll_repeats_until :
    (∃ t, step (running (loaded (.pending .zeroize) helloWorld) (Pseudo.expand .waitDone) 1 []) = .next t ∧
      t.program = [.poll 0x008#18 0x00000002#32 0x00000002#32] ∧ t.asExpected = true) ∧
    (∃ t, step (running { State.reset with done := true } (Pseudo.expand .waitDone) 1 []) = .next t ∧ t.program = []) :=
  ⟨⟨_, rfl, by decide +kernel, by decide +kernel⟩, ⟨_, rfl, by decide +kernel⟩⟩

/-- RD binds BUF_SIZE to its name (V-B2); a write to the unmapped 0x100 meets WRX and not WR (R63, R97). -/
theorem test_rd_binds_and_responses_are_held :
    (∃ t, step (running State.reset [.rd 0x0F0#18 "n"] 1 []) = .next t ∧ t.bound = [("n", 0x00001000#32)] ∧ t.program = []) ∧
    (∃ t, step (running State.reset [.wrx 0x100#18 0#32] 1 []) = .next t ∧ t.asExpected = true) ∧
    (∃ t, step (running State.reset [.wr 0x100#18 0#32] 1 []) = .next t ∧ t.asExpected = false) :=
  ⟨⟨_, rfl, by decide +kernel, by decide +kernel⟩, ⟨_, rfl, by decide +kernel⟩, ⟨_, rfl, by decide +kernel⟩⟩

/-- A POLL whose third read is the first that holds is three R tuples (R99); reads that never hold, none at all, and a read after
the one that holds have no encoding. -/
theorem test_poll_encodes_its_reads :
    encodeProgram (Pseudo.expand .waitDone) [1#32, 9#32, 2#32] = some (List.replicate 3 ⟨.R, 0x008#18, none, .okay⟩) ∧
    encodeProgram (Pseudo.expand .waitDone) [] = none ∧ encodeProgram (Pseudo.expand .waitDone) [1#32] = none ∧
    encodeProgram (Pseudo.expand .waitDone) [2#32, 2#32] = none := by decide +kernel

/-! ## Witnesses: a concrete state and operands that meet the hypotheses of each obligation -/

theorem witness_ResetAbandonsTheCommand :
    ∃ (s : State) (rest : List Event), s.events = .reset :: rest ∧ s.phase = .waitRng ∧ s.entropyOffer = some nonceA :=
  ⟨{ loaded .waitRng helloWorld with entropyOffer := some nonceA, events := [.reset] }, [], rfl, rfl, rfl⟩

theorem witness_StepRunsTheDecodedCommand : State.reset.phase = .idle ∧ decodeWord 0x00000002#32 = .ok .decrypt := by decide

theorem witness_EngineStepRunsTheCommandInProgress :
    (EngineNext { State.reset with phase := .pending .zeroize } [] ∧ EngineNext { State.reset with phase := .waitRng } []) ∧
    EngineNext { State.reset with events := [.engine, .reset] } [.reset] :=
  ⟨⟨.inr ⟨rfl, rfl⟩, .inr ⟨rfl, rfl⟩⟩, .inl rfl⟩

/-- One word for each clause; 4 is the least illegal word. -/
theorem witness_IssueActsByTheDecodedWord :
    State.reset.phase = .idle ∧ 3 < (4#32).toNat ∧ 3 < (0xFFFFFFFF#32).toNat ∧ ¬ 3 < (3#32).toNat ∧
    (loaded .waitRng helloWorld).phase ≠ .idle := by decide

theorem witness_AcceptSetsPendingAndClearsStatus : (loaded .idle helloWorld).phase = .idle := rfl

theorem witness_NopChangesNothing : State.reset.phase = .idle ∧ (loaded .waitRng helloWorld).phase ≠ .idle := by decide

theorem witness_OtherCommandIsTurnedAway :
    (let s := loaded (.pending .encrypt) helloWorld
     s.phase ≠ .idle ∧ (∀ op, s.phase = .pending op → Instr.zeroize ≠ opInstr op) ∧ (s.phase = .waitRng → Instr.zeroize ≠ .encrypt)) ∧
    (let s := loaded .waitRng helloWorld
     s.phase ≠ .idle ∧ (∀ op, s.phase = .pending op → Instr.nop ≠ opInstr op) ∧ (s.phase = .waitRng → Instr.nop ≠ .encrypt)) := by
  refine ⟨⟨by decide, ?_, by decide⟩, ⟨by decide, ?_, by decide⟩⟩
  · rintro op h; cases op <;> simp_all [loaded, opInstr]
  · rintro op h; cases op <;> simp_all [loaded]

/-- `CORE_MAX_PT` is positive and otherwise open, so an input of one byte passes under every value of it. -/
theorem one_le_coreMaxPt : 1 ≤ Config.coreMaxPt := Nat.succ_le_succ (Nat.zero_le _)

/-- Each clause: KEY_LEN = 33; IN_LEN = BUF_BYTES + 1; IN_LEN = 1. -/
theorem witness_EncryptCheckOutcomes :
    (let s := { loaded (.pending .encrypt) helloWorld with keyLen := 33#32 }
     s.phase = .pending .encrypt ∧ s.keyLen ≠ 32#32) ∧
    (let s := { loaded (.pending .encrypt) helloWorld with inLen := 0x1001#32 }
     s.phase = .pending .encrypt ∧ s.keyLen = 32#32 ∧ s.bufBytes < s.inLen.toNat) ∧
    (let s := loaded (.pending .encrypt) [0x68#8]
     s.phase = .pending .encrypt ∧ s.keyLen = 32#32 ∧ s.inLen.toNat ≤ s.bufBytes ∧ s.inLen.toNat ≤ Config.coreMaxPt) :=
  ⟨⟨rfl, by decide⟩, ⟨rfl, rfl, by decide⟩, ⟨rfl, rfl, by decide, one_le_coreMaxPt⟩⟩

/-- The start of a seal under every `CORE_MAX_PT`: one plaintext byte, NA offered. -/
def sealStart (v : Verdict) : State := { loaded .waitRng [0x68#8] with entropyOffer := some nonceA, coreInit := v }

theorem sealStart_ready (v : Verdict) : SealReady (sealStart v) nonceA := by cases v <;> exact ⟨rfl, rfl, by decide, one_le_coreMaxPt, by decide⟩

theorem witness_EncryptSealsUnderTheDrawnNonce :
    ((loaded .waitRng helloWorld).phase = .waitRng ∧ (loaded .waitRng helloWorld).entropyOffer = none) ∧
    (SealReady (sealStart .ok) nonceA ∧ (sealStart .ok).coreInit = .ok) ∧
    (SealReady (sealStart .fail) nonceA ∧ (sealStart .fail).coreInit = .fail) :=
  ⟨⟨rfl, rfl⟩, ⟨sealStart_ready .ok, rfl⟩, ⟨sealStart_ready .fail, rfl⟩⟩

theorem sealStart_completes (v : Verdict) :
    ∃ t, Completes .encrypt (sealStart v) t ∧ t.error = (v == .fail) ∧ (v = .ok → t.nonce = nonceWords nonceA) := by
  cases v
  · exact ⟨_, ⟨exec_encrypt_seal (n := nonceA) rfl rfl, by decide, rfl⟩, rfl, fun _ => rfl⟩
  · exact ⟨_, ⟨exec_encrypt_seal (n := nonceA) rfl rfl, by decide, rfl⟩, rfl, by decide⟩

theorem witness_EncryptIgnoresTheHostNonce :
    SealReady (sealStart .ok) nonceA ∧ (sealStart .ok).coreInit = .ok ∧ ∃ t, Completes .encrypt (sealStart .ok) t :=
  ⟨sealStart_ready .ok, rfl, (sealStart_completes .ok).imp fun _ h => h.1⟩

/-- NB: the bytes 10 to 1B. -/
def nonceB : Nonce := #v[0x10#8, 0x11#8, 0x12#8, 0x13#8, 0x14#8, 0x15#8, 0x16#8, 0x17#8, 0x18#8, 0x19#8, 0x1A#8, 0x1B#8]

theorem witness_FreshDrawsGiveDistinctNonces :
    let h := [(sealStart .ok, nonceA), ({ sealStart .ok with entropyOffer := some nonceB }, nonceB)]
    EntropyFresh (h.map Prod.snd) ∧ ∀ x ∈ h, SealReady x.1 x.2 ∧ x.1.coreInit = .ok := by
  refine ⟨by unfold EntropyFresh; decide, ?_⟩
  intro x hx
  simp only [List.mem_cons, List.not_mem_nil, or_false] at hx
  rcases hx with rfl | rfl
  · exact ⟨sealStart_ready .ok, rfl⟩
  · exact ⟨⟨rfl, rfl, by decide, one_le_coreMaxPt, by decide⟩, rfl⟩

theorem witness_EncryptErrorLeavesNoOutput : ∃ t, Completes .encrypt (sealStart .fail) t ∧ t.error = true :=
  (sealStart_completes .fail).imp fun _ h => ⟨h.1, h.2.1⟩

theorem witness_EncryptHoldsWithoutEntropy :
    (loaded .waitRng helloWorld).phase = .waitRng ∧ (loaded .waitRng helloWorld).entropyOffer = none := by decide

/-- The check step of one plaintext byte passes, under every `CORE_MAX_PT`. -/
theorem pass_step : step (loaded (.pending .encrypt) [0x68#8]) = .next ((loaded (.pending .encrypt) [0x68#8]).setPhase .waitRng) := by
  have hl : encryptTooLong Config.params (loaded (.pending .encrypt) [0x68#8]) = false := by
    rw [← Bool.not_eq_true, encryptTooLong_iff]
    have := one_le_coreMaxPt
    simp [loaded, State.reset, Config.defaultBufBytes]
    omega
  rw [← encryptCheck_pass (p := Config.params) rfl hl]
  exact exec_encrypt_pending rfl

/-- A step for each case of the conclusion: the check step that passes, a bus read, a withdrawn offer, a seal step. -/
theorem witness_EntropyIsConsumedOnlyBySealing :
    (∃ t, step (loaded (.pending .encrypt) [0x68#8]) = .next t ∧ t.phase = .waitRng) ∧
    (∃ t, step (scheduled (sealStart .ok) [.host (.read .word 0x008#18)]) = .next t ∧ t.entropyOffer = some nonceA) ∧
    (∃ t, step (scheduled (sealStart .ok) [.entropy none]) = .next t ∧ t.entropyOffer = none) ∧
    (∃ t, step (scheduled (sealStart .fail) [.engine]) = .next t ∧ t.entropyOffer = none ∧ t.phase = .idle) :=
  ⟨⟨_, pass_step, rfl⟩, ⟨_, rfl, rfl⟩, ⟨_, rfl, rfl⟩, ⟨_, rfl, rfl, rfl⟩⟩

/-- The chip's tag of the empty body under K and NA: an opaque value. -/
def chipTag : Tag := tagFor chip (loadedDecrypt []).keyBytes nonceA []

/-- A DECRYPT whose input is a 16-byte tag alone (L = 16, R166), under every `CORE_MAX_PT`. -/
def openStart (T : Tag) : State := loadedDecrypt T.toList

theorem openStart_inLen (T : Tag) : (openStart T).inLen = 16#32 := by simp [openStart, loadedDecrypt, loaded]

theorem openStart_ready (T : Tag) : DecryptReady (openStart T) := by
  refine ⟨rfl, rfl, rfl, ?_, ?_, ?_⟩ <;> rw [openStart_inLen] <;> simp [openStart, loadedDecrypt, loaded, State.reset, Config.defaultBufBytes]

theorem openStart_receivedTag (T : Tag) : (openStart T).receivedTag = T := by
  apply Vector.toList_inj.mp
  rw [State.receivedTag, openStart_inLen, toList_bytesOfFn]
  have : (openStart T).inBuf = Memory.ofBytes T.toList := rfl
  rw [this]
  apply List.ext_getElem
  · simp
  · intro i h1 h2; simp [Memory.read_ofBytes]; simp at h2; simp [h2]

theorem openStart_body (T : Tag) : (openStart T).body = [] := by
  simp [State.body, openStart_inLen, Memory.slice]

theorem openStart_keyBytes (T : Tag) : (openStart T).keyBytes = (loadedDecrypt []).keyBytes := rfl

theorem openStart_nonceBytes (T : Tag) : (openStart T).nonceBytes = nonceA := nonceBytes_of_nonceWords rfl

theorem openStart_tag (T : Tag) :
    tagFor chip (openStart T).keyBytes (openStart T).nonceBytes (openStart T).body = chipTag := by
  rw [openStart_body, openStart_nonceBytes, openStart_keyBytes]; rfl

/-- A tag that differs from the chip's. -/
def wrongTag : Tag := chipTag.set 0 (chipTag[0] ^^^ 1#8)

theorem wrongTag_ne : chipTag ≠ wrongTag := by
  intro h
  have h0 := congrArg (fun v : Tag => v[0]) h
  simp only [wrongTag, Vector.getElem_set_self] at h0
  have : ∀ b : Byte, b ≠ b ^^^ 1#8 := by decide
  exact this _ h0

/-- Each clause in its order, at a boundary value of what it checks. -/
theorem witness_DecryptReportsTheFirstError :
    (let s := { loadedDecrypt sealedHello with keyLen := 33#32 }
     s.phase = .pending .decrypt ∧ s.keyLen ≠ 32#32) ∧
    (let s := { loadedDecrypt sealedHello with nonceLen := 13#32 }
     s.phase = .pending .decrypt ∧ s.keyLen = 32#32 ∧ s.nonceLen ≠ 12#32) ∧
    (let s := { loadedDecrypt sealedHello with inLen := 0x1001#32 }
     s.phase = .pending .decrypt ∧ s.keyLen = 32#32 ∧ s.nonceLen = 12#32 ∧ s.bufBytes < s.inLen.toNat) ∧
    (let s := { loadedDecrypt sealedHello with inLen := 15#32 }
     s.phase = .pending .decrypt ∧ s.keyLen = 32#32 ∧ s.nonceLen = 12#32 ∧
       ¬ (s.bufBytes < s.inLen.toNat ∨ (16 ≤ s.inLen.toNat ∧ Config.coreMaxPt < s.inLen.toNat - 16)) ∧ s.inLen.toNat < 16) ∧
    (DecryptReady { openStart chipTag with coreInit := .fail } ∧ ({ openStart chipTag with coreInit := .fail } : State).coreInit = .fail) ∧
    (DecryptReady (openStart wrongTag) ∧ (openStart wrongTag).coreInit = .ok ∧
      tagFor chip (openStart wrongTag).keyBytes (openStart wrongTag).nonceBytes (openStart wrongTag).body ≠
        (openStart wrongTag).receivedTag) := by
  refine ⟨⟨rfl, by decide⟩, ⟨rfl, rfl, by decide⟩, ⟨rfl, rfl, rfl, by decide⟩, ⟨rfl, rfl, rfl, ?_, by decide⟩,
    ⟨openStart_ready chipTag, rfl⟩, ⟨openStart_ready wrongTag, rfl, ?_⟩⟩
  · simp [loadedDecrypt, loaded, State.reset, Config.defaultBufBytes]
  · rw [openStart_tag, openStart_receivedTag]; exact wrongTag_ne

theorem openStart_commits :
    exec .decrypt (openStart chipTag) = .next (clearDatapath (completeOk (dec chip (openStart chipTag).keyBytes
      (openStart chipTag).nonceBytes (openStart chipTag).body) (openStart chipTag))) := by
  rw [exec_decrypt_pending rfl]
  have hl : decryptTooLong Config.params (openStart chipTag) = false := by
    rw [← Bool.not_eq_true, decryptTooLong_iff]
    have := openStart_ready chipTag
    obtain ⟨-, -, -, h1, h2, h3⟩ := this
    simp only [params_coreMaxPt]
    omega
  rw [decryptStep, decryptChecks_verify rfl rfl hl (openStart_ready chipTag).2.2.2.1 rfl, verifyTag_eq, if_pos]
  · rfl
  · exact (openStart_tag chipTag).trans (openStart_receivedTag chipTag).symm

theorem witness_DecryptCommitsOnMatch :
    (∃ t, (openStart chipTag).phase = .pending .decrypt ∧ exec .decrypt (openStart chipTag) = .next t ∧ t.error = false) ∧
    DecryptReady (openStart chipTag) ∧ (openStart chipTag).coreInit = .ok ∧
    tagFor chip (openStart chipTag).keyBytes (openStart chipTag).nonceBytes (openStart chipTag).body =
      (openStart chipTag).receivedTag :=
  ⟨⟨_, rfl, openStart_commits, rfl⟩, openStart_ready chipTag, rfl, by rw [openStart_tag, openStart_receivedTag]⟩

/-- Both sides of the reference open: a tag that verifies and one that does not. -/
theorem witness_DecryptImplementsReferenceOpen :
    (DecryptReady (openStart chipTag) ∧ (openStart chipTag).coreInit = .ok) ∧
    (DecryptReady (openStart wrongTag) ∧ (openStart wrongTag).coreInit = .ok) :=
  ⟨⟨openStart_ready chipTag, rfl⟩, ⟨openStart_ready wrongTag, rfl⟩⟩

theorem witness_SealedPlaintextDecryptsBack :
    SealReady (sealStart .ok) nonceA ∧ (sealStart .ok).inLen.toNat + 16 ≤ (sealStart .ok).bufBytes ∧ (sealStart .ok).coreInit = .ok ∧
    ∃ t u : State, exec .encrypt (sealStart .ok) = .next t ∧ u.phase = .pending .decrypt ∧ u.key = (sealStart .ok).key ∧
      u.keyLen = 32#32 ∧ u.nonce = t.nonce ∧ u.nonceLen = 12#32 ∧
      u.inBuf.slice 0 t.outLen.toNat = t.outBuf.slice 0 t.outLen.toNat ∧ u.inLen = t.outLen ∧
      u.bufBytes = (sealStart .ok).bufBytes ∧ u.coreInit = .ok := by
  obtain ⟨t, ht, -, -⟩ := sealStart_completes .ok
  refine ⟨sealStart_ready .ok, by decide, rfl, t, { loaded (.pending .decrypt) [] with
    nonce := t.nonce, nonceLen := 12#32, inBuf := t.outBuf, inLen := t.outLen }, ht.1, rfl, rfl, rfl, rfl, rfl, rfl, rfl, rfl, rfl⟩

/-- The first and the last bit of the tag. -/
theorem witness_TagBitFlipIsAlwaysRejected :
    DecryptReady (openStart chipTag) ∧ (openStart chipTag).inBuf.wf = true ∧ (openStart chipTag).coreInit = .ok ∧
    tagFor chip (openStart chipTag).keyBytes (openStart chipTag).nonceBytes (openStart chipTag).body =
      (openStart chipTag).receivedTag ∧ (0 < 16 ∧ 0 < 8) ∧ (15 < 16 ∧ 7 < 8) :=
  ⟨openStart_ready chipTag, Memory.wf_ofBytes _, rfl, by rw [openStart_tag, openStart_receivedTag], by decide, by decide⟩

/-! A core with the three named properties of R120: byte 0 of its tag is the XOR of every byte of its arguments. -/

def xorAll (l : List Byte) : Byte := l.foldl (· ^^^ ·) 0#8

theorem foldl_xor_start (l : List Byte) (a : Byte) : l.foldl (· ^^^ ·) a = a ^^^ l.foldl (· ^^^ ·) 0#8 := by
  induction l generalizing a with
  | nil => simp
  | cons x l ih => rw [List.foldl_cons, List.foldl_cons, ih (a ^^^ x), ih (0#8 ^^^ x)]; simp [BitVec.xor_assoc]

theorem xorAll_cons (x : Byte) (l : List Byte) : xorAll (x :: l) = x ^^^ xorAll l := by
  rw [xorAll, List.foldl_cons, foldl_xor_start]; simp [xorAll]

theorem xorAll_set (l : List Byte) (i : Nat) (h : i < l.length) (d : Byte) : xorAll (l.set i (l[i] ^^^ d)) = xorAll l ^^^ d := by
  induction l generalizing i with
  | nil => simp at h
  | cons x l ih =>
    cases i with
    | zero => simp [xorAll_cons, BitVec.xor_assoc, BitVec.xor_comm d]
    | succ i => simp only [List.set_cons_succ, List.getElem_cons_succ, xorAll_cons, ih i (by simpa using h), BitVec.xor_assoc]

theorem xorAll_flip {l l' : List Byte} (h : FlipsOneBit l l') : xorAll l' ≠ xorAll l := by
  obtain ⟨i, j, hi, hj, rfl⟩ := h
  rw [xorAll_set]
  have : ∀ (b : Byte) (j : Fin 8), b ^^^ (1#8 <<< j.val) ≠ b := by decide +kernel
  exact this _ ⟨j, hj⟩

def foldTag (k : Key) (n : Nonce) (C : List Byte) : Tag :=
  zeroTag.set 0 (xorAll k.toList ^^^ xorAll n.toList ^^^ xorAll C)

def foldParams : Params where
  core := { cipher := fun _ _ _ => Equiv.refl _, tagOf := fun k n _ C => foldTag k n C }
  coreMaxPt := 64
  initVerdict := none

theorem foldTag_first (k : Key) (n : Nonce) (C : List Byte) :
    (foldTag k n C)[0] = xorAll k.toList ^^^ xorAll n.toList ^^^ xorAll C := by simp [foldTag]

theorem fold_sensitive (k : Key) (n : Nonce) (C : List Byte) :
    TagSensitiveC foldParams.core k n ∧ TagSensitiveN foldParams.core k C ∧ TagSensitiveK foldParams.core n C := by
  refine ⟨fun C C' h he => xorAll_flip h ?_, fun n n' h he => xorAll_flip h ?_, fun k k' h he => xorAll_flip h ?_⟩ <;>
    have h0 := congrArg (fun v : Tag => v[0]) he <;>
    simp only [tagFor, foldParams, foldTag_first] at h0 <;>
    simpa using h0

/-- A DECRYPT of the body [0x01] that verifies under the fold core: the fold of K is 0x6D, of NA 0x00. -/
def foldStart : State := loadedDecrypt (0x01#8 :: (foldTag (loadedDecrypt []).keyBytes nonceA [0x01#8]).toList)

theorem witness_SensitiveCoresRejectOneBitChanges :
    foldStart.phase = .pending .decrypt ∧ foldStart.keyLen = 32#32 ∧ foldStart.nonceLen = 12#32 ∧ 16 ≤ foldStart.inLen.toNat ∧
    foldStart.inLen.toNat ≤ foldStart.bufBytes ∧ foldStart.inLen.toNat - 16 ≤ foldParams.coreMaxPt ∧
    tagFor foldParams.core foldStart.keyBytes foldStart.nonceBytes foldStart.body = foldStart.receivedTag ∧
    (∃ s', s' = { foldStart with key := s'.key, nonce := s'.nonce, inBuf := s'.inBuf } ∧ s'.receivedTag = foldStart.receivedTag ∧
      coreInitDraw foldParams s' = .ok ∧ TagSensitiveC foldParams.core foldStart.keyBytes foldStart.nonceBytes ∧
      FlipsOneBit foldStart.body s'.body ∧ s'.nonce = foldStart.nonce ∧ s'.key = foldStart.key) ∧
    (∃ s', s' = { foldStart with key := s'.key, nonce := s'.nonce, inBuf := s'.inBuf } ∧ s'.receivedTag = foldStart.receivedTag ∧
      coreInitDraw foldParams s' = .ok ∧ TagSensitiveN foldParams.core foldStart.keyBytes foldStart.body ∧
      s'.body = foldStart.body ∧ FlipsOneBit foldStart.nonceBytes.toList s'.nonceBytes.toList ∧ s'.key = foldStart.key) ∧
    (∃ s', s' = { foldStart with key := s'.key, nonce := s'.nonce, inBuf := s'.inBuf } ∧ s'.receivedTag = foldStart.receivedTag ∧
      coreInitDraw foldParams s' = .ok ∧ TagSensitiveK foldParams.core foldStart.nonceBytes foldStart.body ∧
      s'.body = foldStart.body ∧ s'.nonce = foldStart.nonce ∧ FlipsOneBit foldStart.keyBytes.toList s'.keyBytes.toList) := by
  refine ⟨rfl, rfl, rfl, by decide +kernel, by decide +kernel, by decide +kernel, by decide +kernel, ?_, ?_, ?_⟩
  · exact ⟨{ foldStart with inBuf := foldStart.inBuf.write 0 0x81#8 }, rfl, by decide +kernel, rfl, (fold_sensitive _ _ []).1,
      ⟨0, 7, by decide +kernel, by decide, by decide +kernel⟩, rfl, rfl⟩
  · exact ⟨{ foldStart with nonce := foldStart.nonce.set 0 0x03020101#32 }, rfl, rfl, rfl, (fold_sensitive _ nonceA _).2.1, rfl,
      ⟨0, 0, by decide +kernel, by decide, by decide +kernel⟩, rfl⟩
  · exact ⟨{ foldStart with key := foldStart.key.set 7 0x2F79656B#32 }, rfl, rfl, rfl,
      (fold_sensitive (loadedDecrypt []).keyBytes _ _).2.2, rfl, rfl, ⟨31, 0, by decide +kernel, by decide, by decide +kernel⟩⟩

/-- A DECRYPT whose error needs no value of the core: KEY_LEN = 33. -/
def badKey (ks : Vector Word 8) : State := { loadedDecrypt sealedHello with keyLen := 33#32, key := ks }

theorem badKey_completes (ks : Vector Word 8) : ∃ t, Completes .decrypt (badKey ks) t ∧ t.error = true ∧ t.errCode = 1#4 :=
  ⟨_, ⟨rfl, nofun, rfl⟩, rfl, rfl⟩

theorem witness_ErrorsRevealOnlyTheirCode :
    ∃ s₁ s₂ t₁ t₂ : State, SameButOperands s₁ s₂ ∧ s₁.key ≠ s₂.key ∧ Completes .decrypt s₁ t₁ ∧ Completes .decrypt s₂ t₂ ∧
      t₁.error = true ∧ t₂.error = true ∧ t₁.errCode = t₂.errCode := by
  obtain ⟨t₁, h₁, e₁, c₁⟩ := badKey_completes keyWords
  obtain ⟨t₂, h₂, e₂, c₂⟩ := badKey_completes zeroKey
  exact ⟨badKey keyWords, badKey zeroKey, t₁, t₂, rfl, by decide, h₁, h₂, e₁, e₂, by rw [c₁, c₂]⟩

/-- A completion of each of the two commands. -/
theorem witness_CompletionZeroizesTheOperands :
    (∃ t, Completes .encrypt (sealStart .ok) t) ∧ ∃ s t, Completes .decrypt s t :=
  ⟨witness_EncryptIgnoresTheHostNonce.2.2, _, (badKey_completes keyWords).imp fun _ h => h.1⟩

theorem witness_ZeroizeEqualsResetButIrqEnAndDone : (loaded (.pending .zeroize) helloWorld).phase = .pending .zeroize := rfl

/-- A state of the invariant in each busy phase. -/
theorem busy_inv (ph : Phase) (h : ph ≠ .waitRng) : ({ State.reset with phase := ph } : State).Inv :=
  ⟨⟨nofun, (show (false = true ↔ 0#4 ≠ 0#4) by decide), (show (0#4).toNat ≤ 6 by decide), fun _ => rfl⟩,
    ⟨(show Config.bufBytesLegal 4096 = true by decide), rfl, rfl, rfl, rfl, Nat.zero_le _⟩,
    ⟨rfl, rfl, rfl, rfl, rfl, rfl, rfl⟩, fun hw => absurd hw h⟩

theorem waiting_inv : ({ State.reset with phase := .waitRng, keyLen := 32#32 } : State).Inv :=
  ⟨⟨nofun, by decide, by decide, fun _ => rfl⟩, ⟨by decide, rfl, rfl, rfl, rfl, by decide⟩,
    ⟨rfl, rfl, rfl, rfl, rfl, rfl, rfl⟩, fun _ => ⟨rfl, by decide, Nat.zero_le _⟩⟩

theorem witness_StatusWordsOfTheOutcomes :
    (∃ s t, Completes .decrypt s t) ∧ (∃ s : State, s.Inv ∧ s.phase = .pending .decrypt) ∧ (∃ s : State, s.Inv ∧ s.phase = .waitRng) ∧
    State.reset.phase = .idle ∧ 3 < (0x00000011#32).toNat ∧ (0x00000002#32).getLsbD 1 = true :=
  ⟨witness_CompletionZeroizesTheOperands.2, ⟨_, busy_inv (.pending .decrypt) (by decide), rfl⟩, ⟨_, waiting_inv, rfl⟩, by decide⟩

theorem witness_InterruptFollowsDoneAndEnable :
    (∃ s t, Completes .decrypt s t) ∧ (0x00000002#32).getLsbD 1 = true ∧ State.reset.phase = .idle ∧ 3 < (4#32).toNat :=
  ⟨witness_CompletionZeroizesTheOperands.2, by decide, rfl, by decide⟩

theorem witness_CommandsCompleteWithinTwoTurns :
    (let s := { loaded (.pending .encrypt) helloWorld with entropyOffer := some nonceA }
     s.phase = .pending .encrypt ∧ s.events = [] ∧ s.entropyOffer.isSome = true) ∧
    (let s := loadedDecrypt sealedHello
     s.phase = .pending .decrypt ∧ s.events = []) := by decide

/-- The default, the least and the greatest legal BUF_BYTES; the edges of each range of offsets. -/
theorem witness_ReadsReturnTheMappedWord :
    (Config.bufBytesLegal State.reset.bufBytes = true ∧ Config.bufBytesLegal 16 = true ∧ Config.bufBytesLegal 65520 = true) ∧
    (ReservedOffset 0x04C ∧ ReservedOffset 0x0EC ∧ ReservedOffset 0x0F4 ∧ ReservedOffset 0x0FC) ∧
    (Unmapped 4096 (0x00100#18).toNat ∧ Unmapped 4096 (0x2FFFC#18).toNat) ∧ (4092 % 4 = 0 ∧ 4092 < State.reset.bufBytes) ∧ 4108 % 4 = 0 ∧ 4108 < State.reset.bufBytes + 16 := by
  refine ⟨by decide, ?_, ?_, by decide, by decide, by decide⟩
  · simp [ReservedOffset]
  · simp [Unmapped]

theorem witness_WritesChangeOneRegister :
    Config.bufBytesLegal State.reset.bufBytes = true ∧ State.reset.phase = .idle ∧ ReservedOffset 0x04C ∧ ReservedOffset 0x0FC ∧
    4108 < State.reset.bufBytes + 16 := ⟨by decide, rfl, by simp [ReservedOffset], by simp [ReservedOffset], by decide⟩

theorem witness_InWordWriteStoresFourBytes :
    Config.bufBytesLegal State.reset.bufBytes = true ∧ State.reset.inBuf.wf = true ∧ State.reset.phase = .idle ∧ 4092 % 4 = 0 ∧
    4092 < State.reset.bufBytes := by decide

/-- Each cause at an edge of its range, and an access with none. -/
theorem witness_BusErrorExactlyOnTheFourCauses :
    Config.bufBytesLegal State.reset.bufBytes = true ∧
    (Unmapped 4096 0x00100 ∧ Unmapped 4096 0x0FFFC ∧ Unmapped 4096 0x11000 ∧ Unmapped 4096 0x21010 ∧ Unmapped 4096 0x2FFFC) ∧
    (accessSize (.read .half 0#18) ≠ .word ∧ accessAddr (.read .word 0x2FFFF#18) % 4 ≠ 0 ∧
      accessAddr (.read .word 0x2FFFF#18) < 0x30000) ∧
    ((loaded .waitRng helloWorld).phase ≠ .idle ∧ LockedOffset 4096 0x10FFC ∧ LockedOffset 4096 0x048) ∧
    ¬ (Unmapped 4096 0x2100C ∨ Size.word ≠ .word ∨ 0x2100C % 4 ≠ 0 ∨ LockedOffset 4096 0x2100C) := by
  refine ⟨by decide, ?_, by decide, ⟨by decide, ?_, ?_⟩, ?_⟩ <;> simp [Unmapped, LockedOffset]

theorem witness_AddressesBeyondTheMap :
    Config.bufBytesLegal State.reset.bufBytes = true ∧ Unmapped State.reset.bufBytes (accessAddr (.read .word 0x0FFFC#18)) ∧
    0x30000 ≤ accessAddr (.read .word 0x30000#18) ∧ 0x30000 ≤ accessAddr (.write .byte 0x3FFFF#18 0#32) :=
  ⟨by decide, by simp [Unmapped, accessAddr], by decide, by decide⟩

theorem witness_BusyLocksOperandsAndHidesBuffers :
    Config.bufBytesLegal (loaded .waitRng helloWorld).bufBytes = true ∧ (loaded .waitRng helloWorld).phase ≠ .idle ∧
    (0x10FFC#18).toNat % 4 = 0 ∧ LockedOffset (loaded .waitRng helloWorld).bufBytes (0x10FFC#18).toNat ∧
    (0x2100C#18).toNat % 4 = 0 ∧ (0x2100C#18).toNat < 0x20000 + (loaded .waitRng helloWorld).bufBytes + 16 :=
  ⟨by decide, by decide, by decide, by simp [LockedOffset, loaded, State.reset, Config.defaultBufBytes], by decide, by decide⟩

theorem witness_ReservedOffsetsReadZeroIgnoreWrites :
    (0x04C % 4 = 0 ∧ ReservedOffset 0x04C) ∧ (0x0EC % 4 = 0 ∧ ReservedOffset 0x0EC) ∧ (0x0F4 % 4 = 0 ∧ ReservedOffset 0x0F4) ∧
    0x0FC % 4 = 0 ∧ ReservedOffset 0x0FC := by simp [ReservedOffset]

theorem witness_LoadKeyLoadsTheKey : State.reset.phase = .idle ∧ keyText.length = 32 := by decide

theorem witness_LoadNonceLoadsTheNonce : State.reset.phase = .idle ∧ nonceA.toList.length = 12 := by decide

/-- Also the empty input and one of odd length. -/
theorem witness_LoadInLoadsTheInput :
    Config.bufBytesLegal State.reset.bufBytes = true ∧ State.reset.inBuf.wf = true ∧ State.reset.phase = .idle ∧
    helloWorld.length ≤ State.reset.bufBytes ∧ ([] : List Byte).length ≤ State.reset.bufBytes := by decide

/-- A read that gets SLVERR, one that gets OKAY, and one that gives no data. -/
theorem witness_HostProgramRunsItsOperations :
    (∃ t, step (scheduled State.reset [.host (.read .word 0x3#18)]) = .next t ∧ t.busResp = some .slverr ∧
      responseData (.read .word 0x3#18) .slverr = some 0#32) ∧
    (∃ t, step (scheduled State.reset [.host (.read .word 0x0F0#18)]) = .next t ∧ t.busResp = some (.okayRead 0x00001000#32) ∧
      responseData (.read .word 0x0F0#18) (.okayRead 0x00001000#32) = some 0x00001000#32) ∧
    (∃ t, step (scheduled State.reset [.host (.read .word 0x30000#18)]) = .next t ∧ t.busResp = some .notDecoded ∧
      responseData (.read .word 0x30000#18) .notDecoded = none) :=
  ⟨⟨_, rfl, by decide +kernel, rfl⟩, ⟨_, rfl, by decide +kernel, rfl⟩, ⟨_, rfl, by decide +kernel, rfl⟩⟩

/-- A POLL that ends at its first read and one that ends at its third, before another operation. -/
theorem witness_ProgramEncodesAsItsTransactions :
    (∃ ts, encodeProgram [.poll 0x008#18 2#32 2#32] [3#32] = some ts) ∧
    (∃ ts, encodeProgram [.poll 0x008#18 2#32 2#32] [1#32, 9#32, 2#32] = some ts) ∧
    (∃ us, encodeProgram [.wr 0x008#18 2#32, .rd 0x01C#18 "len"] [] = some us) :=
  ⟨⟨_, rfl⟩, ⟨_, rfl⟩, ⟨_, rfl⟩⟩

/-- A ZEROIZE in progress, and an ENCRYPT with a value offered. -/
theorem witness_WaitDoneEndsAtTheCompletion :
    (∃ s : State, s.Inv ∧ s.phase = .pending .zeroize) ∧
    (∃ s : State, s.Inv ∧ s.phase = .pending .encrypt ∧ s.entropyOffer.isSome = true) :=
  ⟨⟨_, busy_inv (.pending .zeroize) (by decide), rfl⟩,
    ⟨{ State.reset with phase := .pending .encrypt, entropyOffer := some nonceA },
      (let h := busy_inv (.pending .encrypt) (by decide); ⟨h.1, h.2, h.3, h.4⟩), rfl, rfl⟩⟩

theorem witness_EveryStepKeepsTheInvariant :
    ∃ s t : State, s.Inv ∧ s.phase = .pending .zeroize ∧ step s = .next t :=
  ⟨_, _, busy_inv (.pending .zeroize) (by decide), rfl, rfl⟩

/-- A step for each cause of a phase change. -/
theorem witness_PhaseFollowsItsTransitions :
    (∃ t, step (scheduled (loaded .waitRng helloWorld) [.reset]) = .next t ∧ t.phase = .idle) ∧
    (∃ t, step (scheduled (loaded .idle helloWorld) [issueEvent (encode .decrypt)]) = .next t ∧ t.phase = .pending .decrypt) ∧
    (∃ t, step (running (loaded .idle helloWorld) (Pseudo.expand .zeroize) 1 []) = .next t ∧ t.phase = .pending .zeroize) ∧
    (∃ t, step (loaded (.pending .zeroize) helloWorld) = .next t ∧ t.phase = .idle) :=
  ⟨⟨_, rfl, rfl⟩, ⟨_, rfl, rfl⟩, ⟨_, rfl, rfl⟩, ⟨_, rfl, rfl⟩⟩

/-- A refused write while busy, and a step that waits for entropy. -/
theorem witness_OperandsAreFixedWhileBusy :
    (∃ t, step (scheduled (loaded (.pending .encrypt) helloWorld) [.host (.write .word 0x00010#18 0#32)]) = .next t ∧
      (loaded (.pending .encrypt) helloWorld).phase ≠ .idle ∧ t.phase ≠ .idle) ∧
    (∃ t, step (loaded .waitRng helloWorld) = .next t ∧ t.phase ≠ .idle) :=
  ⟨⟨_, rfl, by decide, by decide⟩, ⟨_, rfl, by decide⟩⟩

/-- A Host write to NONCE0 and an illegal command, from an idle state. -/
theorem witness_ResultsChangeOnlyAtCompletionOrReset :
    (let s := scheduled (loaded .idle helloWorld) [.host (.write .word 0x00040#18 7#32)]
     ∃ t, step s = .next t ∧ (¬ ∃ rest, s.events = .reset :: rest) ∧ ¬ (s.phase ≠ .idle ∧ t.phase = .idle) ∧ t.nonce ≠ s.nonce) ∧
    (let s := scheduled (loaded .idle helloWorld) [issueEvent 0x0000000F#32]
     ∃ t, step s = .next t ∧ (¬ ∃ rest, s.events = .reset :: rest) ∧ ¬ (s.phase ≠ .idle ∧ t.phase = .idle) ∧
       t.errCode ≠ s.errCode) := by
  refine ⟨⟨_, rfl, ?_, by decide, by decide⟩, ⟨_, rfl, ?_, by decide, by decide⟩⟩ <;> simp [scheduled, issueEvent]

/-- A Host read, and the ENCRYPT check step. -/
theorem witness_KeyFlowsOnlyThroughTheCore :
    (let s := scheduled (loaded .idle helloWorld) [.host (.read .word 0x00020#18)]
     (∃ t, step s = .next t) ∧ ¬ ((∃ rest, EngineNext s rest) ∧ (s.phase = .waitRng ∨ s.phase = .pending .decrypt))) ∧
    (let s := { loaded (.pending .encrypt) helloWorld with keyLen := 33#32 }
     (∃ t, step s = .next t) ∧ ¬ ((∃ rest, EngineNext s rest) ∧ (s.phase = .waitRng ∨ s.phase = .pending .decrypt))) := by
  refine ⟨⟨⟨_, rfl⟩, ?_⟩, ⟨⟨_, rfl⟩, ?_⟩⟩
  · rintro ⟨-, h | h⟩ <;> cases h
  · rintro ⟨-, h | h⟩ <;> cases h

theorem witness_BytesPastTheLengthDoNotMatter :
    ∃ (s t : State) (m : Memory), Completes .encrypt s t ∧ s.Inv ∧ (∀ a, a < s.inLen.toNat → m.read a = s.inBuf.read a) ∧
      m ≠ s.inBuf ∧ t.outLen.toNat ≤ 0 :=
  ⟨{ State.reset with phase := .pending .encrypt }, _, [(5, 1#8)], ⟨rfl, by decide, rfl⟩, busy_inv (.pending .encrypt) (by decide),
    by intro a h; exact absurd h (Nat.not_lt_zero a), by decide, by decide⟩

end Sys2Proof.Tests
end

section
/-! The state family: the reset values (R46), the STATUS word field by field (R24-R29), and the operands held while a command is in
progress (R42). -/

namespace Sys2Proof.Machine

open Sys2Proof.Claims

/-! ## The STATUS word, bit by bit -/

theorem getLsbD_bitAt (b : Nat) (v : Bool) (i : Nat) : (bitAt b v).getLsbD i = (decide (i = b ∧ i < 32) && v) := by
  rw [Bool.eq_iff_iff]
  cases v with
  | false => simp [bitAt]
  | true => simp [bitAt]; omega

/-- Each bit of STATUS is a bit of one field, or reserved and zero (R24-R29). -/
theorem getLsbD_statusWord (s : State) (i : Nat) : s.statusWord.getLsbD i =
    if 8 ≤ i ∧ i < 12 then s.errCode.getLsbD (i - 8)
    else if i = 3 then s.rngWait else if i = 2 then s.error else if i = 1 then s.done else if i = 0 then s.busy
    else false := by
  simp only [State.statusWord, BitVec.getLsbD_or, BitVec.getLsbD_shiftLeft, BitVec.getLsbD_setWidth, getLsbD_bitAt]
  split_ifs with hc h3 h2 h1 h0
  · simp [show i < 32 by omega, show i - 8 < 32 by omega, show ¬ i < 8 by omega, show i ≠ 3 by omega,
      show i ≠ 2 by omega, show i ≠ 1 by omega, show i ≠ 0 by omega]
  · simp [h3]
  · simp [h2]
  · simp [h1]
  · simp [h0]
  · by_cases h8 : 8 ≤ i
    · simp [h3, h2, h1, h0, BitVec.getLsbD_of_ge s.errCode (i - 8) (by omega)]
    · simp [h3, h2, h1, h0, show i < 8 by omega]

/-- STATUS bits 11:8 are ERR_CODE (R28). -/
theorem extractLsb'_statusWord_errCode (s : State) : s.statusWord.extractLsb' 8 4 = s.errCode := by
  apply BitVec.eq_of_getLsbD_eq
  intro i hi
  simp [getLsbD_statusWord, hi, show 8 + i < 12 by omega]

/-- STATUS bits 7:4 and 31:12 are reserved and read 0 (R29). -/
theorem getLsbD_statusWord_reserved (s : State) {b : Nat} (hb : 4 ≤ b ∧ b ≤ 7 ∨ 12 ≤ b) : s.statusWord.getLsbD b = false := by
  rw [getLsbD_statusWord, if_neg (by omega), if_neg (by omega), if_neg (by omega), if_neg (by omega), if_neg (by omega)]

theorem rngWait_eq_true {s : State} : s.rngWait = true ↔ s.phase = .waitRng := by simp [State.rngWait]

/-! ## Word accesses to STATUS, in every state -/

/-- STATUS is no BUSY-locked register (R21): its write is granted in every phase and clears DONE at most (R25, R29). -/
theorem hostAccess_write_status (s : State) (v : Word) :
    hostAccess (.write .word 0x008#18 v) s = .next (acknowledge v (s.respond .okayWrite)) :=
  hostAccess_write_granted (l := .reg .status) rfl (by decide) (by decide) (by decide) fun _ => rfl

theorem hostAccess_read_status (s : State) :
    hostAccess (.read .word 0x008#18) s = .next (s.respond (.okayRead s.statusWord)) :=
  hostAccess_read_granted (l := .reg .status) rfl (by decide) (by decide) (by decide)

theorem status_writeDoes (s : State) (v : Word) : WriteDoes s 0x008 v (State.ackDone v) := fun rest =>
  hostAccess_write_status { s with events := rest } v

theorem status_readsAs (s : State) : ReadsAs s 0x008 s.statusWord := fun rest =>
  hostAccess_read_status { s with events := rest }

/-! ## What a step in progress leaves alone -/

/-- `t` holds the operands, OUT and OUT_LEN of `s`. -/
def HoldsOperandsOf (s t : State) : Prop :=
  t.key = s.key ∧ t.keyLen = s.keyLen ∧ t.nonce = s.nonce ∧ t.nonceLen = s.nonceLen ∧ t.inLen = s.inLen ∧ t.inBuf = s.inBuf ∧
    t.outBuf = s.outBuf ∧ t.outLen = s.outLen

theorem HoldsOperandsOf.refl (s : State) : HoldsOperandsOf s s := ⟨rfl, rfl, rfl, rfl, rfl, rfl, rfl, rfl⟩

theorem HoldsOperandsOf.respond (r : Response) (s : State) : HoldsOperandsOf s (s.respond r) := HoldsOperandsOf.refl s

theorem HoldsOperandsOf.settle {s u : State} (op : HostOp) (p : List HostOp) (h : HoldsOperandsOf s u) :
    HoldsOperandsOf s (settle op p u) := h

/-- A register without the BUSY lock holds no operand (R21, R71). -/
theorem HoldsOperandsOf.writeReg {r : Reg} (hr : r.busyLocked = false) (v : Word) (s : State) :
    HoldsOperandsOf s (writeReg r v s) := by
  cases r with
  | cmd | keyLen | nonceLen | inLen | key | nonce => cases hr
  | id | status | irqEn | outLen | bufSize | reserved => exact HoldsOperandsOf.refl s

/-- While a command is in progress no Host transaction reaches an operand: the places that could are BUSY-locked (R71). -/
theorem hostAccess_holdsOperands {a : Access} {s t : State} (h : hostAccess a s = .next t) (hs : s.phase ≠ .idle) :
    HoldsOperandsOf s t := by
  rcases hostAccess_cases h with ⟨r, rfl⟩ | ⟨b, v, r, -, -, -, -, hlock, rfl⟩ | ⟨b, v, o, -, -, -, -, hidle, -⟩ | ⟨v, -, hidle, -⟩
  · exact HoldsOperandsOf.respond r s
  · exact HoldsOperandsOf.writeReg (hlock hs) v (s.respond .okayWrite)
  · exact absurd hidle hs
  · exact absurd hidle hs

theorem programTurn_holdsOperands {s t : State} (h : programTurn s = .next t) (hs : s.phase ≠ .idle) : HoldsOperandsOf s t := by
  rcases programTurn_cases h with ⟨-, rfl⟩ | ⟨op, p, u, -, hu, rfl⟩
  · exact HoldsOperandsOf.refl t
  · exact (hostAccess_holdsOperands hu hs).settle op p

@[simp] theorem completeOk_phase (S : List Byte) (s : State) : (completeOk S s).phase = .idle := rfl

@[simp] theorem completeErr_phase (op : Op) (c : ErrCode) (s : State) : (completeErr op c s).phase = .idle := rfl

@[simp] theorem zeroizeStep_phase (s : State) : (zeroizeStep s).phase = .idle := rfl

theorem encryptCheck_holdsOperands {p : Params} {s : State} (ht : (encryptCheck p s).phase ≠ .idle) :
    HoldsOperandsOf s (encryptCheck p s) := by
  rcases encryptCheck_cases p s with ⟨c, -, heq⟩ | ⟨-, -, -, heq⟩
  · simp [heq] at ht
  · rw [heq]; exact HoldsOperandsOf.refl s

theorem encryptWait_holdsOperands {p : Params} {s : State} (ht : (encryptWait p s).phase ≠ .idle) :
    HoldsOperandsOf s (encryptWait p s) := by
  rcases encryptWait_cases p s with ⟨-, heq⟩ | ⟨n, -, -, heq⟩ | ⟨n, -, -, heq⟩
  · rw [heq]; exact HoldsOperandsOf.refl s
  · simp [heq] at ht
  · simp [heq, sealAndCommit_eq] at ht

@[simp] theorem decryptStep_phase (p : Params) (s : State) : (decryptStep p s).phase = .idle := by
  rcases decryptStep_cases p s with ⟨c, -, -, heq⟩ | ⟨-, -, -, -, -, -, -, heq⟩ <;> simp [heq]

/-- An Engine turn that ends busy is no completion: the passed check of ENCRYPT, or the wait for entropy (R131, R213). -/
theorem engineTurn_holdsOperands {s t : State} (h : engineTurn s = .next t) (ht : t.phase ≠ .idle) : HoldsOperandsOf s t := by
  rcases engineTurn_cases h with ⟨-, rfl⟩ | ⟨-, rfl⟩ | ⟨-, rfl⟩ | ⟨-, rfl⟩ | ⟨-, rfl⟩
  · exact HoldsOperandsOf.refl t
  · exact encryptCheck_holdsOperands ht
  · exact encryptWait_holdsOperands ht
  · simp at ht
  · simp at ht

/-- A step of any agent that starts and ends busy. -/
theorem step_holdsOperands {s t : State} (h : step s = .next t) (hs : s.phase ≠ .idle) (ht : t.phase ≠ .idle) :
    HoldsOperandsOf s t := by
  rcases step_cases h with ⟨rest, -, h⟩ | ⟨a, rest, -, h⟩ | ⟨rest, -, h⟩ | ⟨o, rest, -, rfl⟩ | ⟨v, rest, -, rfl⟩ | ⟨rest, -, rfl⟩
  · exact engineTurn_holdsOperands (s := s.withEvents rest) h ht
  · exact hostAccess_holdsOperands (s := s.withEvents rest) h hs
  · exact programTurn_holdsOperands (s := s.withEvents rest) h hs
  · exact HoldsOperandsOf.refl s
  · exact HoldsOperandsOf.refl s
  · exact absurd rfl ht

/-! ## The obligations -/

/-- Settles O41, from the STATUS word bit by bit. -/
theorem statusFieldsReadThePhase : Obligations.StatusFieldsReadThePhase := by
  intro s
  refine ⟨?_, getLsbD_statusWord s 1, getLsbD_statusWord s 2, ?_, extractLsb'_statusWord_errCode s⟩
  · rw [getLsbD_statusWord]; exact busy_eq_true
  · rw [getLsbD_statusWord]; exact rngWait_eq_true

/-- Settles O53: a busy Host cannot reach the operands, and an Engine turn that ends busy is no completion. -/
theorem operandsAreFixedWhileBusy : Obligations.OperandsAreFixedWhileBusy := fun _ _ => step_holdsOperands

/-- Settles O1: the fields of `State.reset`, and the words read from them. -/
theorem resetHoldsTheResetValues : Obligations.ResetHoldsTheResetValues :=
  ⟨rfl, by decide, by decide, rfl, rfl, rfl, rfl, rfl, rfl, rfl, Memory.read_nil, Memory.read_nil, rfl, rfl, rfl, rfl, rfl, rfl⟩

/-- Settles O40: STATUS is at an unlocked offset, so both accesses are granted in every state. -/
theorem statusWritesChangeOnlyDone : Obligations.StatusWritesChangeOnlyDone := fun s v =>
  ⟨fun _ hb => getLsbD_statusWord_reserved s hb, status_writeDoes s v, status_readsAs s⟩

end Sys2Proof.Machine
end

section
/-! The memory family: what a transaction does at each place of the address map (R61-R63, R68), and what a completion owes to the bytes
past the lengths (R83). -/

namespace Sys2Proof.Machine

open Sys2Proof.Claims

/-! ## Transactions by the place they address -/

/-- An unmapped offset is refused for an access of any size and direction (R63, R70). -/
theorem hostAccess_unmapped {a : Access} {s : State} (h : locate s.bufBytes (accessAddr a) = .unmapped) :
    hostAccess a s = .next (s.respond .slverr) := by
  have ho : locate s.bufBytes (accessAddr a) ≠ .outside := by simp [h]
  cases a with
  | read z b => exact hostAccess_read_refused ho (.inr (.inr h))
  | write z b v => exact hostAccess_write_refused ho (.inr (.inr (.inl h)))

/-- An address beyond the window is not decoded, and nothing but the response port shows it (R63). -/
theorem hostAccess_outside {a : Access} {s : State} (h : locate s.bufBytes (accessAddr a) = .outside) :
    hostAccess a s = .next (s.respond .notDecoded) := by
  have ha (w : Bool) (z : Size) (b : Addr) (hb : locate s.bufBytes b.toNat = .outside) : arbitrate w z b s = .notDecoded := by
    simp [arbitrate, hb]
  cases a with
  | read z b => simp only [hostAccess, busRead, ha false z b h]
  | write z b v => simp only [hostAccess, busWrite, ha true z b h]

/-- `Unmapped` is the address map's own word for it (R61). -/
theorem locate_of_unmapped {buf a : Nat} (hb : Config.bufBytesLegal buf = true) (h : Unmapped buf a) :
    locate buf a = .unmapped :=
  (locate_eq_unmapped (bufBytesLegal_iff.mp hb).2.2).mpr h

theorem step_host_unmapped {s : State} {a : Access} {rest : List Event} (hb : Config.bufBytesLegal s.bufBytes = true)
    (h : Unmapped s.bufBytes (accessAddr a)) : step (scheduled s (.host a :: rest)) = .next (served s rest .slverr) :=
  hostAccess_unmapped (s := scheduled s rest) (locate_of_unmapped hb h)

/-- The word at a place does not depend on the schedule. -/
theorem readLoc_scheduled (s : State) (es : List Event) (l : Loc) : readLoc (scheduled s es) l = readLoc s l := by
  cases l with
  | reg r => cases r <;> rfl
  | inBuf | outBuf | unmapped | outside => rfl

/-- An aligned word read of a place that is mapped answers the word there and has no side effect (R68). -/
theorem readsAs_of_locate {s : State} {a : Nat} {l : Loc} (ha : a < 0x40000) (h4 : a % 4 = 0) (hl : locate s.bufBytes a = l)
    (hu : l ≠ .unmapped) (ho : l ≠ .outside) : ReadsAs s a (readLoc s l) := by
  intro rest
  have hnat : (BitVec.ofNat 18 a).toNat = a := by simpa using ha
  rw [← readLoc_scheduled s rest l]
  exact hostAccess_read_granted (s := scheduled s rest) (by rw [hnat]; exact hl) (by rw [hnat]; exact h4) hu ho

/-- An aligned word write to a mapped place without the BUSY lock is granted in every phase (R69, R71). -/
theorem hostAccess_write_unlocked {s : State} {a : Nat} {l : Loc} (v : Word) (ha : a < 0x40000) (h4 : a % 4 = 0)
    (hl : locate s.bufBytes a = l) (hu : l ≠ .unmapped) (ho : l ≠ .outside) (hk : l.writeLocked = false) :
    hostAccess (.write .word (BitVec.ofNat 18 a) v) s = writeLoc l v (s.respond .okayWrite) := by
  have hnat : (BitVec.ofNat 18 a).toNat = a := by simpa using ha
  exact hostAccess_write_granted (by rw [hnat]; exact hl) (by rw [hnat]; exact h4) hu ho fun _ => hk

/-! ## Reads of the register block and of the buffers -/

theorem readsAs_reg (s : State) {a : Nat} {r : Reg} (ha : a < 0x100) (h4 : a % 4 = 0) (hr : regAt a = r) :
    ReadsAs s a (readReg s r) :=
  readsAs_of_locate (l := .reg r) (by omega) h4 (hr ▸ locate_of_lt ha) (by simp) (by simp)

theorem regAt_key (j : Fin 8) : regAt (0x020 + 4 * j) = .key j := by decide +revert

theorem regAt_nonce (j : Fin 3) : regAt (0x040 + 4 * j) = .nonce j := by decide +revert

/-- No register lies at a reserved offset (R62). -/
theorem regAt_reserved {a : Nat} (h4 : a % 4 = 0) (h : ReservedOffset a) : regAt a = .reserved := by
  unfold ReservedOffset at h
  unfold regAt
  rw [if_neg (by omega), if_neg (by omega), if_neg (by omega), if_neg (by omega), if_neg (by omega), if_neg (by omega),
    if_neg (by omega), if_neg (by omega), if_neg (by omega), if_neg (by omega), if_neg (by omega)]

theorem reservedOffset_lt {a : Nat} (h : ReservedOffset a) : a < 0x100 := by
  unfold ReservedOffset at h; omega

/-- IRQ_EN reads as DONE_IE widened with zeros (R30, R68). -/
theorem irqEnWord_eq (s : State) : s.irqEnWord = if s.doneIE then 1#32 else 0#32 := by
  cases h : s.doneIE <;> simp [State.irqEnWord, bitAt, h]

theorem readsAs_reserved (s : State) {a : Nat} (h4 : a % 4 = 0) (h : ReservedOffset a) : ReadsAs s a 0#32 :=
  readsAs_reg s (reservedOffset_lt h) h4 (regAt_reserved h4 h)

theorem writeDoes_reserved (s : State) {a : Nat} (v : Word) (h4 : a % 4 = 0) (h : ReservedOffset a) : WriteDoes s a v id :=
  fun rest =>
    have ha := reservedOffset_lt h
    hostAccess_write_unlocked (s := scheduled s rest) (l := .reg .reserved) v (by omega) h4
      (regAt_reserved h4 h ▸ locate_of_lt ha) (by simp) (by simp) rfl

/-- A word of a buffer reads as the `le32` of its bytes when no command is in progress, and as 0 otherwise (R66, R68, R71). -/
theorem readWord_unless_busy (s : State) (m : Memory) (o : Nat) : (if s.busy = true then 0#32 else m.readWord o) =
    if s.phase = .idle then littleEndian (m.read o) (m.read (o + 1)) (m.read (o + 2)) (m.read (o + 3)) else 0#32 := by
  by_cases hp : s.phase = .idle
  · rw [if_pos hp, if_neg (by simpa using hp)]; rfl
  · rw [if_neg hp, if_pos (by simpa using hp)]

theorem readsAs_in {s : State} {o : Nat} (hb : Config.bufBytesLegal s.bufBytes = true) (h4 : o % 4 = 0) (ho : o < s.bufBytes) :
    ReadsAs s (0x10000 + o) (if s.phase = .idle then
      littleEndian (s.inBuf.read o) (s.inBuf.read (o + 1)) (s.inBuf.read (o + 2)) (s.inBuf.read (o + 3)) else 0#32) := by
  obtain ⟨-, -, hmax⟩ := bufBytesLegal_iff.mp hb
  rw [← readWord_unless_busy]
  exact readsAs_of_locate (l := .inBuf o) (by omega) (by omega) (locate_in ho) (by simp) (by simp)

theorem readsAs_out {s : State} {o : Nat} (hb : Config.bufBytesLegal s.bufBytes = true) (h4 : o % 4 = 0)
    (ho : o < s.bufBytes + 16) : ReadsAs s (0x20000 + o) (if s.phase = .idle then
      littleEndian (s.outBuf.read o) (s.outBuf.read (o + 1)) (s.outBuf.read (o + 2)) (s.outBuf.read (o + 3)) else 0#32) := by
  obtain ⟨-, -, hmax⟩ := bufBytesLegal_iff.mp hb
  rw [← readWord_unless_busy]
  exact readsAs_of_locate (l := .outBuf o) (by omega) (by omega) (locate_out hmax ho) (by simp) (by simp)

/-! ## Completions -/

/-- A completion is an Engine step of the command in progress: an accept, NOP and a command turned away complete nothing (R40). -/
theorem completes_cases {i : Instr} {s t : State} (h : Completes i s t) :
    (i = .encrypt ∧ s.phase = .pending .encrypt ∧ t = encryptCheck Config.params s) ∨
    (i = .encrypt ∧ s.phase = .waitRng ∧ t = encryptWait Config.params s) ∨
    (i = .decrypt ∧ s.phase = .pending .decrypt ∧ t = decryptStep Config.params s) ∨
    (i = .zeroize ∧ s.phase = .pending .zeroize ∧ t = zeroizeStep s) := by
  obtain ⟨he, hs, ht⟩ := h
  rcases exec_cases he with ⟨-, hp, -⟩ | ⟨-, rfl⟩ | ⟨op, hp, -⟩ | hstep
  · exact absurd hp hs
  · exact absurd ht hs
  · exact absurd hp hs
  · exact hstep

/-! ### IN at and beyond IN_LEN -/

theorem completeErr_withIn (op : Op) (c : ErrCode) (s : State) (m : Memory) :
    completeErr op c { s with inBuf := m } = completeErr op c s := by
  simp only [completeErr_eq]

/-- The checks of ENCRYPT read no byte of IN (R131). -/
theorem encryptCheck_withIn {p : Params} {s : State} (m : Memory) (h : (encryptCheck p s).phase = .idle) :
    encryptCheck p { s with inBuf := m } = encryptCheck p s := by
  by_cases hk : s.keyLen = 32#32
  · by_cases hl : encryptTooLong p s = true
    · rw [encryptCheck_tooLong hk hl, encryptCheck_tooLong (s := { s with inBuf := m }) hk hl, completeErr_withIn]
    · rw [encryptCheck_pass hk (by simpa using hl)] at h
      cases h
  · rw [encryptCheck_badKeyLen hk, encryptCheck_badKeyLen (s := { s with inBuf := m }) hk, completeErr_withIn]

section
variable {p : Params} {s : State} {m : Memory} (hm : ∀ a, a < s.inLen.toNat → m.read a = s.inBuf.read a)
include hm

/-- The seal step reads IN through the plaintext alone, and that ends at IN_LEN (R83, R130). -/
theorem encryptSeal_withIn (n : Nonce) : encryptSeal p n { s with inBuf := m } = encryptSeal p n s := by
  have hP : ({ consumeEntropy s with inBuf := m } : State).plaintext = (consumeEntropy s).plaintext := plaintext_congr rfl hm
  cases hv : coreInitDraw p s with
  | fail => rw [encryptSeal_fail hv, encryptSeal_fail (s := { s with inBuf := m }) hv]; rfl
  | ok =>
    rw [encryptSeal_ok hv, encryptSeal_ok (s := { s with inBuf := m }) hv, sealAndCommit_eq, sealAndCommit_eq]
    change clearSeal (completeOk (sealRef _ _ _ ({ consumeEntropy s with inBuf := m } : State).plaintext) _) = _
    rw [hP]; rfl

theorem encryptWait_withIn (h : encryptWait p s ≠ s) : encryptWait p { s with inBuf := m } = encryptWait p s := by
  unfold encryptWait at h ⊢
  cases hn : s.entropyOffer with
  | none => simp [hn] at h
  | some n => exact encryptSeal_withIn hm n

/-- The tag verification reads IN through the body and the received tag, and both end at IN_LEN (R83, R152). -/
theorem verifyTag_withIn (h16 : 16 ≤ s.inLen.toNat) :
    clearDatapath (verifyTag p { s with inBuf := m }) = clearDatapath (verifyTag p s) := by
  have hC : ({ s with inBuf := m } : State).body = s.body := body_congr rfl hm
  have hT : ({ s with inBuf := m } : State).receivedTag = s.receivedTag := receivedTag_congr rfl h16 hm
  rw [verifyTag_eq, verifyTag_eq, hC, hT]
  change clearDatapath (if tagFor p.core s.keyBytes s.nonceBytes s.body = s.receivedTag then _ else _) = _
  split_ifs <;> rfl

/-- The checks of DECRYPT read no byte of IN, so only the tag verification could (R151). -/
theorem decryptStep_withIn : decryptStep p { s with inBuf := m } = decryptStep p s := by
  have hl : decryptTooLong p { s with inBuf := m } = decryptTooLong p s := rfl
  have hv : coreInitDraw p { s with inBuf := m } = coreInitDraw p s := rfl
  unfold decryptStep decryptChecks
  simp only [completeErr_withIn, hl, hv]
  split_ifs with hk hn ht h16
  · rfl
  · rfl
  · rfl
  · rfl
  · cases coreInitDraw p s with
    | fail => rfl
    | ok => exact verifyTag_withIn hm (by omega)

end

/-! ### OUT at and beyond OUT_LEN -/

/-- A result whose length OUT_LEN can hold is followed by zero bytes alone (R83, R196). -/
theorem completeOk_outBuf_past {S : List Byte} (hS : S.length < 2 ^ 32) (s : State) {a : Nat}
    (ha : (completeOk S s).outLen.toNat ≤ a) : (completeOk S s).outBuf.read a = 0#8 := by
  simp only [completeOk_eq, BitVec.toNat_ofNat, Nat.mod_eq_of_lt hS] at ha ⊢
  rw [Memory.read_ofBytes, List.getD_eq_default _ _ ha]

theorem completeErr_outBuf (op : Op) (c : ErrCode) (s : State) : (completeErr op c s).outBuf = [] := by
  simp only [completeErr_eq]

/-- Both successful results fit the OUT buffer: ENCRYPT's by the invariant of WAIT_RNG, DECRYPT's by its own checks (R131, R151). -/
theorem completes_outBuf_past {i : Instr} {s t : State} (h : Completes i s t) (hinv : s.Inv) {a : Nat}
    (ha : t.outLen.toNat ≤ a) : t.outBuf.read a = 0#8 := by
  obtain ⟨hlegal, -⟩ := hinv.buffers
  obtain ⟨-, -, hmax⟩ := bufBytesLegal_iff.mp hlegal
  rcases completes_cases h with ⟨-, -, rfl⟩ | ⟨-, hp, rfl⟩ | ⟨-, -, rfl⟩ | ⟨-, -, rfl⟩
  · obtain ⟨-, -, ht⟩ := h
    rcases encryptCheck_cases Config.params s with ⟨c, -, heq⟩ | ⟨-, -, -, heq⟩
    · simp [heq, completeErr_outBuf]
    · simp [heq] at ht
  · obtain ⟨-, hs, ht⟩ := h
    obtain ⟨-, hlen, -⟩ := hinv.waiting hp
    rcases encryptWait_cases Config.params s with ⟨-, heq⟩ | ⟨n, -, -, heq⟩ | ⟨n, -, -, heq⟩
    · exact absurd (heq ▸ ht) hs
    · simp [heq, completeErr_outBuf]
    · simp only [heq, sealAndCommit_eq, clearSeal_outLen, clearSeal_outBuf] at ha ⊢
      exact completeOk_outBuf_past (by simp; omega) _ ha
  · rcases decryptStep_cases Config.params s with ⟨c, -, -, heq⟩ | ⟨-, -, -, hlen, -, -, -, heq⟩
    · simp [heq, completeErr_outBuf]
    · simp only [heq, clearDatapath_outLen, clearDatapath_outBuf] at ha ⊢
      exact completeOk_outBuf_past (by simp; omega) _ ha
  · rfl

/-- The next state of a completion does not depend on the bytes at or beyond IN_LEN (R83). -/
theorem completes_withIn {i : Instr} {s t : State} {m : Memory} (h : Completes i s t)
    (hm : ∀ a, a < s.inLen.toNat → m.read a = s.inBuf.read a) : exec i { s with inBuf := m } = .next t := by
  rcases completes_cases h with ⟨rfl, hp, rfl⟩ | ⟨rfl, hp, rfl⟩ | ⟨rfl, hp, rfl⟩ | ⟨rfl, hp, rfl⟩
  · obtain ⟨-, -, ht⟩ := h
    rw [exec_encrypt_pending (s := { s with inBuf := m }) hp, encryptCheck_withIn m ht]
  · obtain ⟨-, hs, ht⟩ := h
    rw [exec_encrypt_waitRng (s := { s with inBuf := m }) hp, encryptWait_withIn hm fun heq => hs (heq ▸ ht)]
  · rw [exec_decrypt_pending (s := { s with inBuf := m }) hp, decryptStep_withIn hm]
  · exact exec_zeroize_pending (s := { s with inBuf := m }) hp

/-! ## The obligations -/

/-- Settles O33, place by place of the address map. -/
theorem readsReturnTheMappedWord : Obligations.ReadsReturnTheMappedWord := by
  intro s hb
  refine ⟨readsAs_reg (r := .id) s ?_ ?_ rfl, readsAs_reg (r := .cmd) s ?_ ?_ rfl, status_readsAs s,
    irqEnWord_eq s ▸ readsAs_reg (r := .irqEn) s ?_ ?_ rfl, readsAs_reg (r := .keyLen) s ?_ ?_ rfl,
    readsAs_reg (r := .nonceLen) s ?_ ?_ rfl, readsAs_reg (r := .inLen) s ?_ ?_ rfl, readsAs_reg (r := .outLen) s ?_ ?_ rfl,
    fun j => readsAs_reg s ?_ ?_ (regAt_key j), fun j => readsAs_reg s ?_ ?_ (regAt_nonce j),
    readsAs_reg (r := .bufSize) s ?_ ?_ rfl, fun a h4 hr => readsAs_reserved s h4 hr, fun a rest _ hu => step_host_unmapped hb hu,
    fun o h4 ho => readsAs_in hb h4 ho, fun o h4 ho => readsAs_out hb h4 ho⟩
  all_goals omega

/-- Settles O56, from what the Engine steps read of IN and what the two completions write to OUT. -/
theorem bytesPastTheLengthDoNotMatter : Obligations.BytesPastTheLengthDoNotMatter := fun _ _ _ h hinv =>
  ⟨fun _ hm => completes_withIn h hm, fun _ ha => completes_outBuf_past h hinv ha⟩

/-- Settles O37: an unmapped offset is refused, and an address beyond the window is not decoded. -/
theorem addressesBeyondTheMap : Obligations.AddressesBeyondTheMap := by
  intro s a rest hb
  refine ⟨fun hu => ?_, fun ho => ⟨.notDecoded, ?_⟩⟩
  · exact step_host_unmapped hb hu
  · exact hostAccess_outside (s := scheduled s rest) ((locate_eq_outside (bufBytesLegal_iff.mp hb).2.2).mpr ho)

/-- Settles O39: a reserved offset names no register, and no lock covers it. -/
theorem reservedOffsetsReadZeroIgnoreWrites : Obligations.ReservedOffsetsReadZeroIgnoreWrites := fun s _ v h4 hr =>
  ⟨readsAs_reserved s h4 hr, writeDoes_reserved s v h4 hr⟩

end Sys2Proof.Machine
end

section
/-! The encoding family: the decoder over all words (R100), the issue of a word (R101), and the encoding of host programs (R99). -/

namespace Sys2Proof

/-! ## The decoder -/

theorem encoding_statement (i : Instr) : Laws.Encoding.Statement i := by
  cases i with
  | nop => exact Laws.Encoding.nop
  | encrypt => exact Laws.Encoding.encrypt
  | decrypt => exact Laws.Encoding.decrypt
  | zeroize => exact Laws.Encoding.zeroize

theorem decodeWord_encode (i : Instr) : decodeWord (encode i) = .ok i :=
  have ⟨_, _, hdecode⟩ := encoding_statement i
  hdecode

/-- Each row of the table matches the word of its command and no other (R92). -/
theorem opcodeRow_matches {row : OpcodeRow} (h : row ∈ opcodeTable) (w : Word) :
    (w &&& row.mask == row.pattern) = (w == encode row.instr) := by
  have hrows : ∀ r ∈ opcodeTable, r.mask = BitVec.allOnes 32 ∧ r.pattern = encode r.instr := by decide
  obtain ⟨hmask, hpattern⟩ := hrows row h
  rw [hmask, hpattern, BitVec.and_allOnes]

/-- A word that encodes no command is illegal (R100). -/
theorem decodeWord_of_ne_encode {w : Word} (h : ∀ i, w ≠ encode i) : decodeWord w = .error (.illegalCommand w) := by
  have hnone : opcodeTable.find? (fun row => w &&& row.mask == row.pattern) = none :=
    List.find?_eq_none.mpr fun row hrow => by simpa [opcodeRow_matches hrow] using h row.instr
  simp only [decodeWord, hnone]

end Sys2Proof

namespace Sys2Proof.Machine

open Sys2Proof.Claims

/-! ## The issue of a word -/

theorem issue_encode (i : Instr) (s : State) : issue (encode i) s = exec i s := by simp only [issue, decodeWord_encode]

theorem issue_of_ne_encode {w : Word} (h : ∀ i, w ≠ encode i) (s : State) : issue w s = .next (illegalCommand s) := by
  simp only [issue, decodeWord_of_ne_encode h]

theorem exec_nop_idle {s : State} (h : s.phase = .idle) : exec .nop s = .next s := by
  simp only [exec, execNop, nopCommand, h]

/-- When idle, the commands with Engine steps are accepted, whatever the operands hold (R101). -/
theorem exec_opInstr_idle {s : State} (op : Op) (h : s.phase = .idle) : exec (opInstr op) s = .next (accept op s) := by
  cases op with
  | encrypt => simp only [opInstr, exec, execEncrypt, encryptCommand, h]
  | decrypt => simp only [opInstr, exec, execDecrypt, decryptCommand, h]
  | zeroize => simp only [opInstr, exec, execZeroize, zeroizeCommand, h]

/-- CMD is BUSY-locked: while a command is in progress its write is refused (R71). -/
theorem hostAccess_cmd_busy {s : State} (v : Word) (h : s.phase ≠ .idle) :
    hostAccess (.write .word cmdAddr v) s = .next (s.respond .slverr) :=
  have hcmd : locate s.bufBytes cmdAddr.toNat = .reg .cmd := rfl
  hostAccess_write_refused (by rw [hcmd]; decide) (.inr (.inr (.inr ⟨h, by rw [hcmd]; rfl⟩)))

/-- With no command in progress a CMD write does what the issue of its word does to an idle state (R101). -/
theorem writeDoes_cmd {s : State} {w : Word} {f : State → State} (hs : s.phase = .idle)
    (hf : ∀ u : State, u.phase = .idle → issue w u = .next (f u)) : WriteDoes s 0x004 w f := fun rest =>
  (hostAccess_cmd (scheduled s rest) w hs).trans (hf (served s rest .okayWrite) hs)

theorem writeDoes_cmd_accept {s : State} (op : Op) (hs : s.phase = .idle) : WriteDoes s 0x004 (encode (opInstr op)) (accept op) :=
  writeDoes_cmd hs fun u hu => (issue_encode (opInstr op) u).trans (exec_opInstr_idle op hu)

theorem ne_encode_of_lt {w : Word} (h : 3 < w.toNat) (i : Instr) : w ≠ encode i := by
  rintro rfl
  exact absurd h (by cases i <;> decide)

/-! ## The encoding of host programs -/

/-- A program without operations uses no data (R99). -/
theorem encodeProgram_nil_iff {ds : List Word} {ts : List Transaction} :
    encodeProgram [] ds = some ts ↔ ds = [] ∧ ts = [] := by
  cases ds with
  | nil => simp [encodeProgram, eq_comm]
  | cons d ds => simp [encodeProgram]

/-- A program's tuples are those of its first operation, then those of the rest for the data left over (R99). -/
theorem encodeProgram_cons_iff {op : HostOp} {p : List HostOp} {ds : List Word} {ts : List Transaction} :
    encodeProgram (op :: p) ds = some ts ↔
      ∃ ts₁ rest ts₂, op.encode ds = some (ts₁, rest) ∧ encodeProgram p rest = some ts₂ ∧ ts = ts₁ ++ ts₂ := by
  simp [encodeProgram, Option.bind_eq_some_iff, @eq_comm _ ts]

theorem encodeProgram_singleton_iff {op : HostOp} {ds : List Word} {ts : List Transaction} :
    encodeProgram [op] ds = some ts ↔ op.encode ds = some (ts, []) := by
  simp [encodeProgram_cons_iff, encodeProgram_nil_iff]

theorem pollHolds_iff {mask val d : Word} : pollHolds mask val d = true ↔ d &&& mask = val := by simp [pollHolds]

/-- The reads of a POLL end at the first that holds, one R tuple each, and leave the data after it (R97, R99). -/
theorem polled_iff {op : HostOp} {mask val : Word} {ds rest : List Word} {ts : List Transaction} :
    HostOp.encode.polled op mask val ds = some (ts, rest) ↔
      ∃ before last, ds = before ++ last :: rest ∧ ts = List.replicate (before.length + 1) op.tuple ∧
        last &&& mask = val ∧ ∀ d ∈ before, d &&& mask ≠ val := by
  induction ds generalizing ts with
  | nil => simp [HostOp.encode.polled]
  | cons d ds ih =>
    by_cases hd : d &&& mask = val
    · rw [HostOp.encode.polled, if_pos (pollHolds_iff.mpr hd)]
      constructor
      · rintro ⟨⟩
        exact ⟨[], d, rfl, rfl, hd, by simp⟩
      · rintro ⟨_ | ⟨b, before⟩, last, heq, rfl, -, hbefore⟩
        · obtain ⟨rfl, rfl⟩ := List.cons.inj heq
          rfl
        · obtain ⟨rfl, -⟩ := List.cons.inj heq
          exact absurd hd (hbefore d (by simp))
    · rw [HostOp.encode.polled, if_neg (mt pollHolds_iff.mp hd)]
      constructor
      · intro h
        obtain ⟨⟨ts', rest'⟩, h', ⟨⟩⟩ := Option.map_eq_some_iff.mp h
        obtain ⟨before, last, rfl, rfl, hlast, hbefore⟩ := ih.mp h'
        exact ⟨d :: before, last, rfl, rfl, hlast, List.forall_mem_cons.mpr ⟨hd, hbefore⟩⟩
      · rintro ⟨_ | ⟨b, before⟩, last, heq, rfl, hlast, hbefore⟩
        · obtain ⟨rfl, -⟩ := List.cons.inj heq
          exact absurd hlast hd
        · obtain ⟨rfl, hds⟩ := List.cons.inj heq
          rw [ih.mpr ⟨before, last, hds, rfl, hlast, (List.forall_mem_cons.mp hbefore).2⟩]
          rfl

/-- Data after that which an operation uses stays as it is. -/
theorem encode_append {op : HostOp} {ds rest : List Word} {ts : List Transaction} (h : op.encode ds = some (ts, rest))
    (es : List Word) : op.encode (ds ++ es) = some (ts, rest ++ es) := by
  cases op with
  | wr | wrx | rd =>
    cases h
    rfl
  | poll off mask val =>
    obtain ⟨before, last, rfl, hts, hhold⟩ := polled_iff.mp h
    exact polled_iff.mpr ⟨before, last, by simp, hts, hhold⟩

/-- The encoding of two programs one after the other is the one list after the other (R99). -/
theorem encodeProgram_append {p q : List HostOp} {ds es : List Word} {ts us : List Transaction}
    (hp : encodeProgram p ds = some ts) (hq : encodeProgram q es = some us) :
    encodeProgram (p ++ q) (ds ++ es) = some (ts ++ us) := by
  induction p generalizing ds ts with
  | nil =>
    obtain ⟨rfl, rfl⟩ := encodeProgram_nil_iff.mp hp
    exact hq
  | cons op p ih =>
    obtain ⟨ts₁, rest, ts₂, hop, hrest, rfl⟩ := encodeProgram_cons_iff.mp hp
    exact encodeProgram_cons_iff.mpr ⟨ts₁, rest ++ es, ts₂ ++ us, encode_append hop es, ih hrest, List.append_assoc ..⟩

/-- A POLL uses up its data exactly when the last read is the first that holds; it encodes as one R tuple a read (R99). -/
theorem encodeProgram_poll_iff {off : Addr} {mask val : Word} {ds : List Word} {ts : List Transaction} :
    encodeProgram [.poll off mask val] ds = some ts ↔
      ts = List.replicate ds.length ⟨.R, off, none, .okay⟩ ∧
        ∃ before last, ds = before ++ [last] ∧ last &&& mask = val ∧ ∀ d ∈ before, d &&& mask ≠ val := by
  rw [encodeProgram_singleton_iff]
  refine polled_iff.trans ⟨?_, ?_⟩
  · rintro ⟨before, last, rfl, rfl, hhold⟩
    exact ⟨by simp [HostOp.tuple], before, last, rfl, hhold⟩
  · rintro ⟨rfl, before, last, rfl, hhold⟩
    exact ⟨before, last, rfl, by simp [HostOp.tuple], hhold⟩

/-! ## The obligations -/

/-- Settles O47: one tuple for each operation but POLL, a POLL by its reads, and concatenation by induction on the first program. -/
theorem programEncodesAsItsTransactions : Obligations.ProgramEncodesAsItsTransactions :=
  ⟨fun _ _ => ⟨rfl, rfl⟩, fun _ _ => rfl, fun _ _ _ _ _ => encodeProgram_poll_iff,
    fun _ _ _ _ _ _ => encodeProgram_append⟩

/-- Settles O3: a word is the encoding of one of the four commands, or of none. -/
theorem decodeIsTotalOverWords : Obligations.DecodeIsTotalOverWords := by
  intro w
  split_ifs with h0 h1 h2 h3
  · exact h0 ▸ decodeWord_encode .nop
  · exact h1 ▸ decodeWord_encode .encrypt
  · exact h2 ▸ decodeWord_encode .decrypt
  · exact h3 ▸ decodeWord_encode .zeroize
  · refine decodeWord_of_ne_encode fun i => ?_
    cases i with
    | nop => exact h0
    | encrypt => exact h1
    | decrypt => exact h2
    | zeroize => exact h3

/-- Settles O8: the lock turns the write away while busy; when idle NOP, an accept or the illegal completion follows from the word. -/
theorem issueActsByTheDecodedWord : Obligations.IssueActsByTheDecodedWord := by
  refine ⟨fun s w rest hs => hostAccess_cmd_busy (s := scheduled s rest) w hs, fun s w hs => ⟨?_, ?_, ?_, ?_, fun hw => ?_⟩⟩
  · rintro rfl
    exact writeDoes_cmd hs fun u hu => (issue_encode .nop u).trans (exec_nop_idle hu)
  · rintro rfl
    exact writeDoes_cmd_accept .encrypt hs
  · rintro rfl
    exact writeDoes_cmd_accept .decrypt hs
  · rintro rfl
    exact writeDoes_cmd_accept .zeroize hs
  · exact writeDoes_cmd hs fun u _ => issue_of_ne_encode (ne_encode_of_lt hw) u

end Sys2Proof.Machine
end

section
/-! The ENCRYPT family: WAIT_RNG is entered by the passed check step alone, and the Entropy offer is consumed by the seal step alone
(R117, R123, R131, R132). -/

namespace Sys2Proof.Machine

/-! ## Who enters WAIT_RNG -/

@[simp] theorem writeReg_phase (r : Reg) (v : Word) (s : State) : (writeReg r v s).phase = s.phase := by
  cases r <;> rfl

/-- An idle command takes no Engine step: it leaves the engine idle, or is accepted (R101, R180). -/
theorem exec_idle_phase {i : Instr} {s t : State} (h : exec i s = .next t) (hs : s.phase = .idle) :
    t.phase = .idle ∨ ∃ op, t.phase = .pending op := by
  rcases exec_cases h with ⟨-, -, rfl⟩ | ⟨hp, -⟩ | ⟨op, -, rfl⟩ | ⟨-, hp, -⟩ | ⟨-, hp, -⟩ | ⟨-, hp, -⟩ | ⟨-, hp, -⟩
  · exact .inl hs
  · exact absurd hs hp
  · exact .inr ⟨op, rfl⟩
  all_goals simp [hs] at hp

/-- The Host moves the phase by an accept alone (R40). -/
theorem hostAccess_phase {a : Access} {s t : State} (h : hostAccess a s = .next t) :
    t.phase = s.phase ∨ ∃ op, t.phase = .pending op := by
  rcases hostAccess_cases h with ⟨r, rfl⟩ | ⟨b, v, r, -, -, -, -, -, rfl⟩ | ⟨b, v, o, -, -, -, -, -, rfl⟩ | ⟨v, -, hs, h⟩
  · exact .inl rfl
  · exact .inl (by simp)
  · exact .inl rfl
  · rcases issue_cases h with ⟨i, -, h⟩ | ⟨-, rfl⟩
    · exact hs ▸ exec_idle_phase h hs
    · exact .inl rfl

theorem programTurn_phase {s t : State} (h : programTurn s = .next t) : t.phase = s.phase ∨ ∃ op, t.phase = .pending op := by
  rcases programTurn_cases h with ⟨-, rfl⟩ | ⟨op, p, u, -, hu, rfl⟩
  · exact .inl rfl
  · rw [settle_phase]; exact hostAccess_phase hu

/-- The check step alone enters WAIT_RNG, and only when it passes (R123, R131). -/
theorem engineTurn_entersWaitRng {s t : State} (h : engineTurn s = .next t) (ht : t.phase = .waitRng) (hs : s.phase ≠ .waitRng) :
    s.phase = .pending .encrypt ∧ s.keyLen = 32#32 ∧ s.inLen.toNat ≤ s.bufBytes ∧ s.inLen.toNat ≤ Config.coreMaxPt := by
  rcases engineTurn_cases h with ⟨-, rfl⟩ | ⟨hp, rfl⟩ | ⟨hp, -⟩ | ⟨-, rfl⟩ | ⟨-, rfl⟩
  · exact absurd ht hs
  · rcases encryptCheck_cases Config.params s with ⟨c, -, heq⟩ | ⟨hk, hbuf, hmax, -⟩
    · simp [heq] at ht
    · exact ⟨hp, hk, hbuf, hmax⟩
  · exact absurd hp hs
  · simp at ht
  · simp at ht

/-- No agent but the Engine enters WAIT_RNG. -/
theorem step_entersWaitRng {s t : State} (h : step s = .next t) (ht : t.phase = .waitRng) (hs : s.phase ≠ .waitRng) :
    s.phase = .pending .encrypt ∧ s.keyLen = 32#32 ∧ s.inLen.toNat ≤ s.bufBytes ∧ s.inLen.toNat ≤ Config.coreMaxPt := by
  have notByHost : ¬ (t.phase = s.phase ∨ ∃ op, t.phase = .pending op) := by simp [ht, Ne.symm hs]
  rcases step_cases h with ⟨rest, -, h⟩ | ⟨a, rest, -, h⟩ | ⟨rest, -, h⟩ | ⟨o, rest, -, rfl⟩ | ⟨v, rest, -, rfl⟩ | ⟨rest, -, rfl⟩
  · exact engineTurn_entersWaitRng (s := s.withEvents rest) h ht hs
  · exact absurd (hostAccess_phase h) notByHost
  · exact absurd (programTurn_phase h) notByHost
  · exact absurd ht hs
  · exact absurd ht hs
  · cases ht

/-! ## Who consumes the Entropy offer -/

@[simp] theorem completeOk_entropyOffer (S : List Byte) (s : State) : (completeOk S s).entropyOffer = s.entropyOffer := rfl

@[simp] theorem completeErr_entropyOffer (op : Op) (c : ErrCode) (s : State) :
    (completeErr op c s).entropyOffer = s.entropyOffer := by rw [completeErr_eq]

theorem encryptCheck_entropyOffer (p : Params) (s : State) : (encryptCheck p s).entropyOffer = s.entropyOffer := by
  rcases encryptCheck_cases p s with ⟨c, -, heq⟩ | ⟨-, -, -, heq⟩ <;> simp [heq]

theorem decryptStep_entropyOffer (p : Params) (s : State) : (decryptStep p s).entropyOffer = s.entropyOffer := by
  rcases decryptStep_cases p s with ⟨c, -, -, heq⟩ | ⟨-, -, -, -, -, -, -, heq⟩ <;> simp [heq]

/-- In WAIT_RNG the Engine holds, or consumes the offered value and ends the command, whatever the core's verdict (R117, R132). -/
theorem encryptWait_entropyOffer (p : Params) (s : State) :
    (encryptWait p s).entropyOffer = s.entropyOffer ∨
      (s.entropyOffer.isSome = true ∧ (encryptWait p s).entropyOffer = none ∧ (encryptWait p s).phase = .idle) := by
  rcases encryptWait_cases p s with ⟨-, heq⟩ | ⟨n, hn, -, heq⟩ | ⟨n, hn, -, heq⟩
  · exact .inl (by rw [heq])
  · exact .inr (by simp [heq, hn])
  · exact .inr ⟨by simp [hn], by rw [heq]; rfl, by rw [heq]; rfl⟩

theorem engineTurn_entropyOffer {s t : State} (h : engineTurn s = .next t) :
    t.entropyOffer = s.entropyOffer ∨
      (s.phase = .waitRng ∧ s.entropyOffer.isSome = true ∧ t.entropyOffer = none ∧ t.phase = .idle) := by
  rcases engineTurn_cases h with ⟨-, rfl⟩ | ⟨-, rfl⟩ | ⟨hp, rfl⟩ | ⟨-, rfl⟩ | ⟨-, rfl⟩
  · exact .inl rfl
  · exact .inl (encryptCheck_entropyOffer _ s)
  · exact (encryptWait_entropyOffer _ s).imp_right fun hseal => ⟨hp, hseal⟩
  · exact .inl (decryptStep_entropyOffer _ s)
  · exact .inl rfl

theorem hostAccess_entropyOffer {a : Access} {s t : State} (h : hostAccess a s = .next t) : t.entropyOffer = s.entropyOffer := by
  obtain ⟨-, -, -, -, hoffer, -⟩ := hostAccess_frame h
  exact hoffer

theorem programTurn_entropyOffer {s t : State} (h : programTurn s = .next t) : t.entropyOffer = s.entropyOffer := by
  rcases programTurn_cases h with ⟨-, rfl⟩ | ⟨op, p, u, -, hu, rfl⟩
  · rfl
  · exact (settle_entropyOffer op p u).trans (hostAccess_entropyOffer hu)

/-- Of all agents' steps, the Entropy source's own and a seal step alone change the offer (R123). -/
theorem step_entropyOffer {s t : State} (h : step s = .next t) :
    t.entropyOffer = s.entropyOffer ∨ (∃ o rest, s.events = .entropy o :: rest ∧ t = { s with events := rest, entropyOffer := o }) ∨
      (s.phase = .waitRng ∧ s.entropyOffer.isSome = true ∧ t.entropyOffer = none ∧ t.phase = .idle) := by
  rcases step_cases h with ⟨rest, -, h⟩ | ⟨a, rest, -, h⟩ | ⟨rest, -, h⟩ | hoffer | ⟨v, rest, -, rfl⟩ | ⟨rest, -, rfl⟩
  · exact (engineTurn_entropyOffer (s := s.withEvents rest) h).imp_right .inr
  · exact .inl (hostAccess_entropyOffer (s := s.withEvents rest) h)
  · exact .inl (programTurn_entropyOffer (s := s.withEvents rest) h)
  · exact .inr (.inl hoffer)
  · exact .inl rfl
  · exact .inl rfl

/-! ## The obligation -/

/-- Settles O18: the passed check of ENCRYPT alone enters WAIT_RNG, and the seal step alone consumes the offer. -/
theorem entropyIsConsumedOnlyBySealing : Obligations.EntropyIsConsumedOnlyBySealing := fun _ _ h =>
  ⟨step_entersWaitRng h, step_entropyOffer h⟩

end Sys2Proof.Machine
end

section
/-! The ENCRYPT family: the whole next state of the check step and of the seal step (R131-R136), every ENCRYPT completion, and what it
reads of the Host's nonce. -/

namespace Sys2Proof.Machine

open Sys2Proof.Claims

/-! ## The ends of the seal step -/

/-- `s` after the seal step that drew `n` with an `ok` verdict (R132, R134, R135). -/
def sealEnd (n : Nonce) (s : State) : State :=
  sealClear { successEnd (Memory.ofBytes (sealRef chip s.keyBytes n s.plaintext)) (s.inLen.toNat + 16) s with
    nonce := nonceWords n, nonceLen := 12#32, entropyOffer := none }

/-- `s` after the seal step with a `fail` verdict: the drawn value is discarded (R132, R136). -/
def sealFailEnd (s : State) : State := sealClear { errorEnd .encrypt 4#4 s with entropyOffer := none }

/-- The result of a seal within BUF_BYTES is no longer than OUT_LEN can say. -/
theorem sealEnd_outLen_toNat {n : Nonce} {s : State} (h : SealReady s n) : (sealEnd n s).outLen.toNat = s.inLen.toNat + 16 := by
  obtain ⟨-, -, hbuf, -, hlegal⟩ := h
  obtain ⟨-, -, hmax⟩ := bufBytesLegal_iff.mp hlegal
  exact Nat.mod_eq_of_lt (by omega)

/-- `OUT[0..OUT_LEN) = Seal(k, n, P)` (R134). -/
theorem slice_sealEnd_outBuf {n : Nonce} {s : State} (h : SealReady s n) :
    (sealEnd n s).outBuf.slice 0 (sealEnd n s).outLen.toNat = sealRef chip s.keyBytes n s.plaintext := by
  have hlen : s.inLen.toNat + 16 = (sealRef chip s.keyBytes n s.plaintext).length := by simp
  rw [sealEnd_outLen_toNat h, hlen]
  exact Memory.slice_ofBytes _

/-! ## The Engine steps of ENCRYPT, each as a whole next state -/

theorem completeErr_eq_errorEnd (op : Op) {c : ErrCode} (hc : c ≠ .none) (s : State) :
    completeErr op c s = errorEnd op c.bits s := by
  have herr : (c != .none) = true := by simpa using hc
  rw [completeErr_eq, herr]; rfl

theorem exec_encrypt_badKeyLen {s : State} (hp : s.phase = .pending .encrypt) (hk : s.keyLen ≠ 32#32) :
    exec .encrypt s = .next (errorEnd .encrypt 1#4 s) := by
  rw [exec_encrypt_pending hp, encryptCheck_badKeyLen hk, completeErr_eq_errorEnd _ (by decide)]; rfl

theorem exec_encrypt_tooLong {s : State} (hp : s.phase = .pending .encrypt) (hk : s.keyLen = 32#32)
    (hl : s.bufBytes < s.inLen.toNat ∨ Config.coreMaxPt < s.inLen.toNat) :
    exec .encrypt s = .next (errorEnd .encrypt 5#4 s) := by
  rw [exec_encrypt_pending hp, encryptCheck_tooLong hk (encryptTooLong_iff.mpr hl), completeErr_eq_errorEnd _ (by decide)]; rfl

theorem exec_encrypt_pass {s : State} (hp : s.phase = .pending .encrypt) (hk : s.keyLen = 32#32)
    (hl : ¬ (s.bufBytes < s.inLen.toNat ∨ Config.coreMaxPt < s.inLen.toNat)) :
    exec .encrypt s = .next (s.setPhase .waitRng) := by
  have hfits : encryptTooLong Config.params s = false := Bool.eq_false_iff.mpr (mt encryptTooLong_iff.mp hl)
  rw [exec_encrypt_pending hp, encryptCheck_pass hk hfits]

theorem exec_encrypt_hold {s : State} (hp : s.phase = .waitRng) (hn : s.entropyOffer = none) : exec .encrypt s = .next s := by
  simp only [exec_encrypt_waitRng hp, encryptWait, hn]

theorem exec_encrypt_sealOk {s : State} {n : Nonce} (hp : s.phase = .waitRng) (hn : s.entropyOffer = some n)
    (hv : s.coreInit = .ok) : exec .encrypt s = .next (sealEnd n s) := by
  rw [exec_encrypt_seal hp hn, encryptSeal_ok (p := Config.params) hv, sealAndCommit_eq, completeOk_eq, length_sealRef,
    length_plaintext]; rfl

theorem exec_encrypt_sealFail {s : State} {n : Nonce} (hp : s.phase = .waitRng) (hn : s.entropyOffer = some n)
    (hv : s.coreInit = .fail) : exec .encrypt s = .next (sealFailEnd s) := by
  rw [exec_encrypt_seal hp hn, encryptSeal_fail (p := Config.params) hv, completeErr_eq_errorEnd _ (by decide)]; rfl

/-! ## Every ENCRYPT completion -/

/-- An ENCRYPT completes by a failed check or by a seal step, and the guards of these steps read no nonce register (R131, R132). -/
theorem completes_encrypt_cases {s t : State} (h : Completes .encrypt s t) :
    (s.phase = .pending .encrypt ∧ s.keyLen ≠ 32#32 ∧ t = errorEnd .encrypt 1#4 s) ∨
    (s.phase = .pending .encrypt ∧ s.keyLen = 32#32 ∧ (s.bufBytes < s.inLen.toNat ∨ Config.coreMaxPt < s.inLen.toNat) ∧
      t = errorEnd .encrypt 5#4 s) ∨
    (∃ n, s.phase = .waitRng ∧ s.entropyOffer = some n ∧ s.coreInit = .fail ∧ t = sealFailEnd s) ∨
    (∃ n, s.phase = .waitRng ∧ s.entropyOffer = some n ∧ s.coreInit = .ok ∧ t = sealEnd n s) := by
  have hcases := completes_cases h
  obtain ⟨he, hs, ht⟩ := h
  have hend {u : State} (hu : exec .encrypt s = .next u) : t = u := Host.Outcome.next.inj (he.symm.trans hu)
  rcases hcases with ⟨-, hp, -⟩ | ⟨-, hp, -⟩ | ⟨hi, -⟩ | ⟨hi, -⟩
  · by_cases hk : s.keyLen = 32#32
    · by_cases hl : s.bufBytes < s.inLen.toNat ∨ Config.coreMaxPt < s.inLen.toNat
      · exact .inr (.inl ⟨hp, hk, hl, hend (exec_encrypt_tooLong hp hk hl)⟩)
      · simp [hend (exec_encrypt_pass hp hk hl)] at ht
    · exact .inl ⟨hp, hk, hend (exec_encrypt_badKeyLen hp hk)⟩
  · cases hn : s.entropyOffer with
    | none => exact absurd (hend (exec_encrypt_hold hp hn) ▸ ht) hs
    | some n =>
      cases hv : s.coreInit with
      | fail => exact .inr (.inr (.inl ⟨n, hp, rfl, rfl, hend (exec_encrypt_sealFail hp hn hv)⟩))
      | ok => exact .inr (.inr (.inr ⟨n, hp, rfl, rfl, hend (exec_encrypt_sealOk hp hn hv)⟩))
  · cases hi
  · cases hi

/-- An erroneous ENCRYPT completion is an error end with code 1, 4 or 5 (R136). -/
theorem completes_encrypt_error {s t : State} (h : Completes .encrypt s t) (he : t.error = true) :
    ∃ c u, (c = 1#4 ∨ c = 4#4 ∨ c = 5#4) ∧ t = errorEnd .encrypt c u := by
  rcases completes_encrypt_cases h with ⟨-, -, rfl⟩ | ⟨-, -, -, rfl⟩ | ⟨n, -, -, -, rfl⟩ | ⟨n, -, -, -, rfl⟩
  · exact ⟨1#4, s, .inl rfl, rfl⟩
  · exact ⟨5#4, s, .inr (.inr rfl), rfl⟩
  · exact ⟨4#4, clearSeal (consumeEntropy s), .inr (.inl rfl), rfl⟩
  · cases he

/-- No ENCRYPT completion depends on NONCE0-NONCE2 or NONCE_LEN: its guards do not read them, and each end overwrites them (R133). -/
theorem completes_encrypt_withNonce {s t : State} (h : Completes .encrypt s t) (ws : Vector Word 3) (len : Word) :
    exec .encrypt { s with nonce := ws, nonceLen := len } = .next t := by
  rcases completes_encrypt_cases h with ⟨hp, hk, rfl⟩ | ⟨hp, hk, hl, rfl⟩ | ⟨n, hp, hn, hv, rfl⟩ | ⟨n, hp, hn, hv, rfl⟩
  · exact exec_encrypt_badKeyLen (s := { s with nonce := ws, nonceLen := len }) hp hk
  · exact exec_encrypt_tooLong (s := { s with nonce := ws, nonceLen := len }) hp hk hl
  · exact exec_encrypt_sealFail (s := { s with nonce := ws, nonceLen := len }) hp hn hv
  · exact exec_encrypt_sealOk (s := { s with nonce := ws, nonceLen := len }) hp hn hv

/-! ## The obligations -/

/-- Settles O13: OUT is written from the bytes of Seal(k, n, P), and each verdict's end is a whole next state. -/
theorem encryptSealsUnderTheDrawnNonce : Obligations.EncryptSealsUnderTheDrawnNonce := by
  refine ⟨fun s hp hn => exec_encrypt_hold hp hn, ?_⟩
  rintro s n ⟨hp, hn, -⟩
  exact ⟨fun hv => ⟨_, Memory.read_ofBytes _, exec_encrypt_sealOk hp hn hv⟩, fun hv => exec_encrypt_sealFail hp hn hv⟩

/-- Settles O14: the seal uses and returns the drawn value, and no completion depends on what the Host left in the nonce registers. -/
theorem encryptIgnoresTheHostNonce : Obligations.EncryptIgnoresTheHostNonce := by
  refine ⟨fun s n h hv => ?_, fun s t ws len h => completes_encrypt_withNonce h ws len⟩
  have ⟨hp, hn, _⟩ := h
  exact ⟨sealEnd n s, exec_encrypt_sealOk hp hn hv, nonceBytes_of_nonceWords rfl, slice_sealEnd_outBuf h⟩

/-- Settles O16: every erroneous completion is an error end of ENCRYPT. -/
theorem encryptErrorLeavesNoOutput : Obligations.EncryptErrorLeavesNoOutput := by
  intro s t h he
  obtain ⟨c, u, hc, rfl⟩ := completes_encrypt_error h he
  exact ⟨Memory.read_nil, rfl, rfl, rfl, hc, rfl, rfl, rfl, Memory.read_nil, rfl⟩

/-- Settles O12, in the order of the checks. -/
theorem encryptCheckOutcomes : Obligations.EncryptCheckOutcomes := fun _ hp =>
  ⟨exec_encrypt_badKeyLen hp, exec_encrypt_tooLong hp, fun hk hbuf hmax => exec_encrypt_pass hp hk (by omega)⟩

end Sys2Proof.Machine
end

section
/-! The DECRYPT family: the comparison logic bit by bit (R154), the two ends of the tag verification as whole next states (R156, R157),
and their agreement with the reference open (R115, R163, R164). -/

namespace Sys2Proof.Machine

open Sys2Proof.Claims

/-! ## The comparison logic -/

/-- A bit of an OR-fold is set exactly when the start or some member sets it. -/
theorem getLsbD_foldl_or (l : List Byte) (a : Byte) (b : Nat) :
    (l.foldl (· ||| ·) a).getLsbD b = true ↔ a.getLsbD b = true ∨ ∃ x ∈ l, x.getLsbD b = true := by
  induction l generalizing a with
  | nil => simp
  | cons x l ih => simp [ih, or_assoc]

/-- The members of the byte-wise XOR of two tags are the XORs of their 16 byte pairs. -/
theorem mem_zipWith_xor_tag {e r : Tag} {x : Byte} :
    x ∈ List.zipWith (· ^^^ ·) e.toList r.toList ↔ ∃ t : Fin 16, e[t] ^^^ r[t] = x := by
  simp [List.mem_iff_getElem, Fin.exists_iff]

/-- DIFF is the OR of the 16 byte-wise XORs (R154). -/
theorem getLsbD_tagDiff (e r : Tag) (b : Nat) :
    (tagDiff e r).getLsbD b = true ↔ ∃ t : Fin 16, (e[t] ^^^ r[t]).getLsbD b = true := by
  rw [tagDiff, getLsbD_foldl_or]
  simp only [BitVec.getLsbD_zero, Bool.false_eq_true, false_or, mem_zipWith_xor_tag, exists_exists_eq_and]

theorem compareTags_tagMatch_iff (s : State) : (compareTags s).tagMatch = true ↔ (compareTags s).diff = 0#8 := beq_iff_eq

/-- Two tags are equal exactly when their 16 byte pairs are. -/
theorem tag_eq_iff {e r : Tag} : e = r ↔ ∀ t : Fin 16, e[t] = r[t] :=
  ⟨fun h t => by rw [h], fun h => Vector.ext fun i hi => h ⟨i, hi⟩⟩

/-! ## The ends of the tag verification, each as a whole next state -/

/-- `s` after a DECRYPT step that commits (R156, R162). -/
def openEnd (s : State) : State :=
  tagsClear (successEnd (Memory.ofBytes (dec chip s.keyBytes s.nonceBytes s.body)) (s.inLen.toNat - 16) s)

/-- `s` after a DECRYPT step that fails with AUTHENTICATION_FAILURE (R157, R162). -/
def authFailEnd (s : State) : State := tagsClear (errorEnd .decrypt 3#4 s)

theorem decryptStep_of_ready {s : State} (h : DecryptReady s) (hv : s.coreInit = .ok) :
    decryptStep Config.params s = clearDatapath (verifyTag Config.params s) := by
  obtain ⟨-, hk, hn, h16, hbuf, hmax⟩ := h
  have hfits : decryptTooLong Config.params s = false := by
    rw [← Bool.not_eq_true, decryptTooLong_iff, params_coreMaxPt]
    omega
  rw [decryptStep, decryptChecks_verify hk hn hfits h16 hv]

theorem exec_decrypt_commit {s : State} (h : DecryptReady s) (hv : s.coreInit = .ok)
    (ht : tagFor chip s.keyBytes s.nonceBytes s.body = s.receivedTag) : exec .decrypt s = .next (openEnd s) := by
  rw [exec_decrypt_pending h.1, decryptStep_of_ready h hv, verifyTag_eq, if_pos ht, completeOk_eq, length_dec, length_body]; rfl

theorem exec_decrypt_reject {s : State} (h : DecryptReady s) (hv : s.coreInit = .ok)
    (ht : tagFor chip s.keyBytes s.nonceBytes s.body ≠ s.receivedTag) : exec .decrypt s = .next (authFailEnd s) := by
  rw [exec_decrypt_pending h.1, decryptStep_of_ready h hv, verifyTag_eq, if_neg ht, completeErr_eq_errorEnd _ (by decide)]; rfl

/-- The plaintext's length is one that OUT_LEN can say. -/
theorem openEnd_outLen_toNat (s : State) : (openEnd s).outLen.toNat = s.inLen.toNat - 16 := by
  have hword := s.inLen.isLt
  exact Nat.mod_eq_of_lt (by omega)

/-- `OUT[0..OUT_LEN) = Dec(k, n, C)` (R156). -/
theorem slice_openEnd_outBuf (s : State) :
    (openEnd s).outBuf.slice 0 (openEnd s).outLen.toNat = dec chip s.keyBytes s.nonceBytes s.body := by
  have hlen : s.inLen.toNat - 16 = (dec chip s.keyBytes s.nonceBytes s.body).length := by simp
  rw [openEnd_outLen_toNat, hlen]
  exact Memory.slice_ofBytes _

/-- No DECRYPT step without equal tags ends without error (R156). -/
theorem tags_eq_of_decrypt_ok {s t : State} (hp : s.phase = .pending .decrypt) (h : exec .decrypt s = .next t)
    (he : t.error = false) : tagFor chip s.keyBytes s.nonceBytes s.body = s.receivedTag := by
  obtain rfl : decryptStep Config.params s = t := Host.Outcome.next.inj ((exec_decrypt_pending hp).symm.trans h)
  rcases decryptStep_cases Config.params s with ⟨c, hc, -, heq⟩ | ⟨-, -, -, -, -, -, ht, -⟩
  · simp [heq, completeErr_eq, hc] at he
  · exact ht

/-- DECRYPT never writes the nonce: neither completion does, nor its accept, nor a turning away (R168). -/
theorem exec_decrypt_nonce {s t : State} (h : exec .decrypt s = .next t) : t.nonce = s.nonce ∧ t.nonceLen = s.nonceLen := by
  rcases exec_cases h with ⟨hi, -⟩ | ⟨-, rfl⟩ | ⟨op, -, rfl⟩ | ⟨hi, -⟩ | ⟨hi, -⟩ | ⟨-, -, rfl⟩ | ⟨hi, -⟩
  · cases hi
  · exact ⟨rfl, rfl⟩
  · exact ⟨rfl, rfl⟩
  · cases hi
  · cases hi
  · rcases decryptStep_cases Config.params s with ⟨c, -, -, heq⟩ | ⟨-, -, -, -, -, -, -, heq⟩
    · rw [heq]; exact ⟨rfl, rfl⟩
    · rw [heq]; exact ⟨rfl, rfl⟩
  · cases hi

/-! ## The reference open -/

theorem Memory.take_slice (m : Memory) (lo len k : Nat) : (m.slice lo len).take k = m.slice lo (min k len) := by
  simp [Memory.slice, ← List.map_take, List.take_range]

theorem Memory.drop_slice (m : Memory) (lo len k : Nat) : (m.slice lo len).drop k = m.slice (lo + k) (len - k) :=
  List.ext_getElem (by simp) fun i _ _ => by simp [Memory.slice, Nat.add_assoc]

theorem toList_receivedTag (s : State) : s.receivedTag.toList = s.inBuf.slice (s.inLen.toNat - 16) 16 := rfl

/-- Open on the whole input: the split of R115 is the split of R152. -/
theorem openRef_input (c : CipherCore) (k : Key) (n : Nonce) {s : State} (h16 : 16 ≤ s.inLen.toNat) :
    openRef c k n (s.inBuf.slice 0 s.inLen.toNat) =
      if tagFor c k n s.body = s.receivedTag then some (dec c k n s.body) else none := by
  have hC : (s.inBuf.slice 0 s.inLen.toNat).take (s.inLen.toNat - 16) = s.body := by
    rw [Memory.take_slice, Nat.min_eq_left (Nat.sub_le _ _), State.body]
  have hT : (s.inBuf.slice 0 s.inLen.toNat).drop (s.inLen.toNat - 16) = s.receivedTag.toList := by
    rw [Memory.drop_slice, Nat.zero_add, Nat.sub_sub_self h16, toList_receivedTag]
  have hlen : ¬ s.inLen.toNat < 16 := by omega
  simp only [openRef, Memory.length_slice, if_neg hlen, hC, hT, Vector.toList_inj]

/-- Open undoes Seal (R114, R115). -/
theorem openRef_sealRef (c : CipherCore) (k : Key) (n : Nonce) (P : List Byte) : openRef c k n (sealRef c k n P) = some P := by
  simp [openRef, sealRef]

/-! ## The obligations -/

/-- Settles O20: the commit is a whole next state, and every end without equal tags is an error completion. -/
theorem decryptCommitsOnMatch : Obligations.DecryptCommitsOnMatch :=
  ⟨fun _ _ => tags_eq_of_decrypt_ok, fun _ h hv ht => ⟨_, Memory.read_ofBytes _, exec_decrypt_commit h hv ht⟩⟩

/-- Settles O21, bit by bit for DIFF and byte by byte for MATCH. -/
theorem comparisonIsTagEquality : Obligations.ComparisonIsTagEquality := fun s =>
  ⟨getLsbD_tagDiff s.expTag s.rxTag, compareTags_tagMatch_iff s,
    (compareTags_tagMatch_iff s).trans ((tagDiff_eq_zero _ _).trans tag_eq_iff)⟩

/-- Settles O22: DECRYPT and Open decide by the same equality of tags. -/
theorem decryptImplementsReferenceOpen : Obligations.DecryptImplementsReferenceOpen := by
  intro s h hv
  have ⟨_, _, _, h16, _, _⟩ := h
  rw [openRef_input _ _ _ h16]
  by_cases ht : tagFor chip s.keyBytes s.nonceBytes s.body = s.receivedTag
  · rw [exec_decrypt_commit h hv ht, if_pos ht]
    have herr : (openEnd s).error = false := rfl
    simp [slice_openEnd_outBuf, herr]
  · rw [exec_decrypt_reject h hv ht, if_neg ht]
    have herr : (authFailEnd s).error = true := rfl
    have hcode : (authFailEnd s).errCode = 3#4 := rfl
    simp [herr, hcode]

/-- Settles O23: the input of DECRYPT is Seal(k, n, P), which Open gives back as P. -/
theorem sealedPlaintextDecryptsBack : Obligations.SealedPlaintextDecryptsBack := by
  intro s u n h hfit hv
  have ⟨hp, hn, _, hmax, _⟩ := h
  refine ⟨sealEnd n s, exec_encrypt_sealOk hp hn hv, rfl, ?_⟩
  intro hup hukey huk hunonce hun hin hlen hbuf huv
  have hL : u.inLen.toNat = s.inLen.toNat + 16 := by rw [hlen, sealEnd_outLen_toNat h]
  have hready : DecryptReady u := ⟨hup, huk, hun, by omega, by omega, by omega⟩
  have hopen : openRef chip u.keyBytes u.nonceBytes (u.inBuf.slice 0 u.inLen.toNat) = some s.plaintext := by
    rw [hlen, hin, slice_sealEnd_outBuf h, keyBytes_congr hukey, nonceBytes_of_nonceWords hunonce, openRef_sealRef]
  rw [openRef_input _ _ _ (by omega), Option.ite_none_right_eq_some, Option.some_inj] at hopen
  obtain ⟨ht, hP⟩ := hopen
  refine ⟨openEnd u, exec_decrypt_commit hready huv ht, rfl, BitVec.eq_of_toNat_eq ?_, (slice_openEnd_outBuf u).trans hP⟩
  rw [openEnd_outLen_toNat, hL, Nat.add_sub_cancel]

/-- Settles O27: every command answers a next state, and DECRYPT's keeps the nonce. -/
theorem decryptNeverWritesTheNonce : Obligations.DecryptNeverWritesTheNonce := fun s =>
  (exec_next .decrypt s).imp fun _ h => ⟨h, exec_decrypt_nonce h⟩

end Sys2Proof.Machine
end

section
/-! The control family: the STATUS word of each outcome, of a command in progress and after an acknowledgement (R184), and NOP (R180). -/

namespace Sys2Proof.Machine

open Sys2Proof.Claims

/-! ## What a completion leaves in STATUS -/

/-- Every ENCRYPT completion sets the STATUS fields together, by one code (R131, R132). -/
theorem completes_encrypt_status {s t : State} (h : Completes .encrypt s t) :
    ∃ c : ErrCode, c ≠ .illegalCommand ∧ t.done = true ∧ t.error = (c != .none) ∧ t.errCode = c.bits := by
  rcases completes_encrypt_cases h with ⟨-, -, rfl⟩ | ⟨-, -, -, rfl⟩ | ⟨n, -, -, -, rfl⟩ | ⟨n, -, -, -, rfl⟩
  · exact ⟨.invalidKeyLength, by decide, rfl, rfl, rfl⟩
  · exact ⟨.lengthError, by decide, rfl, rfl, rfl⟩
  · exact ⟨.cipherInitError, by decide, rfl, rfl, rfl⟩
  · exact ⟨.none, by decide, rfl, rfl, rfl⟩

/-- Every completion writes DONE, ERROR and ERR_CODE together, by one code that is not the illegal command's (R182, R196, R197). -/
theorem completes_status {i : Instr} {s t : State} (h : Completes i s t) :
    ∃ c : ErrCode, c ≠ .illegalCommand ∧ t.done = true ∧ t.error = (c != .none) ∧ t.errCode = c.bits := by
  rcases completes_cases h with ⟨rfl, -, -⟩ | ⟨rfl, -, -⟩ | ⟨-, -, rfl⟩ | ⟨-, -, rfl⟩
  · exact completes_encrypt_status h
  · exact completes_encrypt_status h
  · rcases decryptStep_cases Config.params s with ⟨c, -, hc, heq⟩ | ⟨-, -, -, -, -, -, -, heq⟩
    · exact ⟨c, hc, by simp [heq, completeErr_eq]⟩
    · exact ⟨.none, by decide, by rw [heq]; exact ⟨rfl, rfl, rfl⟩⟩
  · exact ⟨.none, by decide, rfl, rfl, rfl⟩

/-- The STATUS word that a completion with code `c`, or the illegal command, leaves (R184). -/
def endWord : ErrCode → Word
  | .none => 0x00000002#32
  | .invalidKeyLength => 0x00000106#32
  | .invalidNonceLength => 0x00000206#32
  | .authenticationFailure => 0x00000306#32
  | .cipherInitError => 0x00000406#32
  | .lengthError => 0x00000506#32
  | .illegalCommand => 0x00000606#32

/-- An idle engine whose STATUS fields were set with code `c` shows the word of `c`. -/
theorem statusWord_eq_endWord {s : State} {c : ErrCode} (hp : s.phase = .idle) (hd : s.done = true) (he : s.error = (c != .none))
    (hc : s.errCode = c.bits) : s.statusWord = endWord c := by
  simp only [State.statusWord, State.busy, State.rngWait, hp, hd, he, hc]
  cases c <;> rfl

theorem completes_statusWord {i : Instr} {s t : State} (h : Completes i s t) :
    ∃ c : ErrCode, c ≠ .illegalCommand ∧ t.error = (c != .none) ∧ t.errCode = c.bits ∧ t.statusWord = endWord c := by
  have ⟨_, _, hidle⟩ := h
  obtain ⟨c, hill, hd, he, hc⟩ := completes_status h
  exact ⟨c, hill, he, hc, statusWord_eq_endWord hidle hd he hc⟩

/-! ## STATUS outside completions -/

/-- The invariant leaves no other STATUS field set while a command is in progress (R41, R101). -/
theorem State.Inv.statusWord_busy {s : State} (h : s.Inv) (hp : s.phase ≠ .idle) :
    s.statusWord = if s.phase = .waitRng then 0x00000009#32 else 0x00000001#32 := by
  obtain ⟨hdone, herr, -, hbusy⟩ := h.status
  have hd : s.done = false := Bool.eq_false_iff.mpr (mt hdone hp)
  have hc : s.errCode = 0#4 := not_not.mp (mt herr.mpr (by simp [hbusy hp]))
  rw [State.statusWord, hd, hbusy hp, hc, busy_eq_true.mpr hp]
  split_ifs with hw
  · rw [rngWait_eq_true.mpr hw]; rfl
  · rw [Bool.eq_false_iff.mpr (mt rngWait_eq_true.mp hw)]; rfl

/-- A word above the four command words completes at once, with STATUS alone changed (R101, R183). -/
theorem writeDoes_cmd_illegal {s : State} {w : Word} (hs : s.phase = .idle) (hw : 3 < w.toNat) :
    WriteDoes s 0x004 w illegalCommand :=
  writeDoes_cmd hs fun u _ => issue_of_ne_encode (ne_encode_of_lt hw) u

/-- An acknowledgement of DONE takes bit 1 off the STATUS word and leaves the others (R25, R29). -/
theorem statusWord_ackDone (s : State) {v : Word} (hv : v.getLsbD 1 = true) :
    (s.ackDone v).statusWord = s.statusWord &&& 0xFFFFFFFD#32 := by
  have hmask : ∀ i : Fin 32, (0xFFFFFFFD#32).getLsbD i = decide (i.val ≠ 1) := by decide
  apply BitVec.eq_of_getLsbD_eq
  intro i hi
  have hwait : (s.ackDone v).rngWait = s.rngWait := rfl
  have hbusy : (s.ackDone v).busy = s.busy := rfl
  have hdone : (s.ackDone v).done = false := by rw [State.ackDone_done, hv, Bool.not_true, Bool.and_false]
  rw [BitVec.getLsbD_and, hmask ⟨i, hi⟩, getLsbD_statusWord, getLsbD_statusWord, hwait, hbusy, hdone]
  by_cases h1 : i = 1
  · simp [h1]
  · simp [h1]

/-! ## The obligations -/

/-- Settles O30: each completion's word by its code, the busy words by the invariant, and the writes of CMD and STATUS. -/
theorem statusWordsOfTheOutcomes : Obligations.StatusWordsOfTheOutcomes := by
  refine ⟨fun i s t h => ?_, fun s hinv => ⟨fun op hp => ?_, fun hp => ?_⟩, fun s w rest hs hw => ?_, fun s v rest hv => ?_⟩
  · obtain ⟨c, hill, he, hc, hword⟩ := completes_statusWord h
    rw [he, hc, hword]
    cases c with
    | illegalCommand => exact absurd rfl hill
    | none | invalidKeyLength | invalidNonceLength | authenticationFailure | cipherInitError | lengthError => decide
  · rw [hinv.statusWord_busy (by simp [hp]), if_neg (by simp [hp])]
  · rw [hinv.statusWord_busy (by simp [hp]), if_pos hp]
  · exact ⟨_, writeDoes_cmd_illegal hs hw rest, statusWord_eq_endWord (c := .illegalCommand) hs rfl rfl rfl⟩
  · exact ⟨_, status_writeDoes s v rest, statusWord_ackDone (served s rest .okayWrite) hv⟩

/-- Settles O10: NOP answers the idle state itself, and while busy the lock on CMD refuses its write. -/
theorem nopChangesNothing : Obligations.NopChangesNothing :=
  ⟨fun _ => exec_nop_idle, fun s rest hs => hostAccess_cmd_busy (s := scheduled s rest) 0x00000000#32 hs⟩

end Sys2Proof.Machine
end

section
/-! The exceptions family: the bus error and its causes (R70, R195), the order of the DECRYPT errors (R193), the zeroization of every
completion (R198), the interrupt (R200), and starvation (R213). -/

namespace Sys2Proof.Machine

open Sys2Proof.Claims

/-! ## The bus error -/

/-- The causes of R195, for the transaction `a` in `s`. -/
def BusErrorCause (s : State) (a : Access) : Prop :=
  Unmapped s.bufBytes (accessAddr a) ∨ accessSize a ≠ .word ∨ accessAddr a % 4 ≠ 0 ∨
    (s.phase ≠ .idle ∧ (∃ z b v, a = .write z b v) ∧ LockedOffset s.bufBytes (accessAddr a))

/-- The BUSY-locked registers are those at the locked offsets of the register block, that is, without an IN buffer (R21, R71). -/
theorem regAt_busyLocked_iff (j : Fin 64) : (regAt (4 * j)).busyLocked = true ↔ LockedOffset 0 (4 * j) := by
  unfold LockedOffset
  decide +revert

/-- At an aligned offset the places that BUSY locks are those of `LockedOffset` (R71). -/
theorem locate_writeLocked_iff {buf a : Nat} (h4 : a % 4 = 0) :
    (locate buf a).writeLocked = true ↔ LockedOffset buf a := by
  by_cases hreg : a < 0x100
  · obtain ⟨j, rfl⟩ : ∃ j : Fin 64, a = 4 * j := ⟨⟨a / 4, by omega⟩, by simp only; omega⟩
    rw [locate_of_lt hreg]
    refine (regAt_busyLocked_iff j).trans ?_
    simp only [LockedOffset]
    omega
  · unfold locate LockedOffset
    rw [if_neg hreg]
    split_ifs <;> simp [Loc.writeLocked] <;> omega

/-- An idle command leaves the response to the transaction that issued it (R101). -/
theorem exec_idle_busResp {i : Instr} {s t : State} (h : exec i s = .next t) (hs : s.phase = .idle) : t.busResp = s.busResp := by
  rcases exec_cases h with ⟨-, -, rfl⟩ | ⟨hp, -⟩ | ⟨op, -, rfl⟩ | ⟨-, hp, -⟩ | ⟨-, hp, -⟩ | ⟨-, hp, -⟩ | ⟨-, hp, -⟩
  · rfl
  · exact absurd hs hp
  · rfl
  all_goals simp [hs] at hp

theorem issue_idle_busResp (v : Word) {s : State} (hs : s.phase = .idle) : ∃ t, issue v s = .next t ∧ t.busResp = s.busResp := by
  by_cases hv : ∃ i, v = encode i
  · obtain ⟨i, rfl⟩ := hv
    obtain ⟨t, ht⟩ := exec_next i s
    exact ⟨t, (issue_encode i s).trans ht, exec_idle_busResp ht hs⟩
  · exact ⟨_, issue_of_ne_encode (not_exists.mp hv) s, rfl⟩

@[simp] theorem writeReg_busResp (r : Reg) (v : Word) (s : State) : (writeReg r v s).busResp = s.busResp := by
  cases r <;> rfl

/-- The effect of a granted write always comes about, and leaves the OKAY (R69). -/
theorem writeLoc_busResp {l : Loc} (v : Word) {s : State} (hs : l = .reg .cmd → s.phase = .idle) :
    ∃ t, writeLoc l v s = .next t ∧ t.busResp = s.busResp := by
  cases l with
  | reg r =>
    by_cases hr : r = .cmd
    · subst hr; exact issue_idle_busResp v (hs rfl)
    · exact ⟨writeReg r v s, by simp [writeLoc], writeReg_busResp r v s⟩
  | inBuf | outBuf | unmapped | outside => exact ⟨_, rfl, rfl⟩

section
variable {s : State} {a : Access} (hb : Config.bufBytesLegal s.bufBytes = true) (hwin : accessAddr a < 0x30000)
include hb hwin

theorem locate_ne_outside : locate s.bufBytes (accessAddr a) ≠ .outside := by
  obtain ⟨-, -, hmax⟩ := bufBytesLegal_iff.mp hb
  exact mt (locate_eq_outside hmax).mp (by omega)

/-- Each cause of R195 refuses the transaction, with no effect (R70). -/
theorem hostAccess_of_cause (h : BusErrorCause s a) : hostAccess a s = .next (s.respond .slverr) := by
  have ho := locate_ne_outside hb hwin
  rcases h with hu | hz | h4 | ⟨hp, ⟨z, b, v, rfl⟩, hl⟩
  · exact hostAccess_unmapped (locate_of_unmapped hb hu)
  · cases a with
    | read z b => exact hostAccess_read_refused ho (.inl hz)
    | write z b v => exact hostAccess_write_refused ho (.inl hz)
  · cases a with
    | read z b => exact hostAccess_read_refused ho (.inr (.inl h4))
    | write z b v => exact hostAccess_write_refused ho (.inr (.inl h4))
  · by_cases h4 : b.toNat % 4 = 0
    · exact hostAccess_write_refused ho (.inr (.inr (.inr ⟨hp, (locate_writeLocked_iff h4).mpr hl⟩)))
    · exact hostAccess_write_refused ho (.inr (.inl h4))

/-- Without one of the causes the transaction is granted, and its response is OKAY (R68, R69). -/
theorem hostAccess_of_no_cause (h : ¬ BusErrorCause s a) : ∃ t, hostAccess a s = .next t ∧ t.busResp ≠ some .slverr := by
  have ho := locate_ne_outside hb hwin
  obtain ⟨-, -, hmax⟩ := bufBytesLegal_iff.mp hb
  simp only [BusErrorCause, not_or, not_and, not_not] at h
  obtain ⟨hunm, hz, h4, hlocked⟩ := h
  have hu : locate s.bufBytes (accessAddr a) ≠ .unmapped := mt (locate_eq_unmapped hmax).mp hunm
  cases a with
  | read z b =>
    obtain rfl : z = .word := hz
    exact ⟨_, hostAccess_read_granted rfl h4 hu ho, by simp⟩
  | write z b v =>
    obtain rfl : z = .word := hz
    have hfree (hp : s.phase ≠ .idle) : (locate s.bufBytes b.toNat).writeLocked = false :=
      Bool.eq_false_iff.mpr (mt (locate_writeLocked_iff h4).mp (hlocked hp ⟨_, _, _, rfl⟩))
    have hcmd (hl : locate s.bufBytes b.toNat = .reg .cmd) : s.phase = .idle := by
      by_contra hp
      simpa [hl, Loc.writeLocked, Reg.busyLocked] using hfree hp
    obtain ⟨t, ht, hresp⟩ := writeLoc_busResp v (s := s.respond .okayWrite) hcmd
    exact ⟨t, (hostAccess_write_granted rfl h4 hu ho hfree).trans ht, by simp [hresp]⟩

end

/-! ## The errors of DECRYPT -/

/-- An error of the DECRYPT step is the whole error completion with the datapath cleared (R162, R197). -/
theorem exec_decrypt_error {s : State} {c : ErrCode} (hp : s.phase = .pending .decrypt) (hc : c ≠ .none)
    (h : decryptChecks Config.params s = completeErr .decrypt c s) :
    exec .decrypt s = .next (tagsClear (errorEnd .decrypt c.bits s)) := by
  rw [exec_decrypt_pending hp, decryptStep, h, completeErr_eq_errorEnd _ hc]; rfl

/-- The length check in the words of R151 and R193. -/
theorem decryptTooLong_eq_false {s : State}
    (h : ¬ (s.bufBytes < s.inLen.toNat ∨ (16 ≤ s.inLen.toNat ∧ Config.coreMaxPt < s.inLen.toNat - 16))) :
    decryptTooLong Config.params s = false :=
  Bool.eq_false_iff.mpr (mt decryptTooLong_iff.mp h)

/-! ## What every completion does -/

/-- `t` is an error end or a success end of `s`, but for the nonce, the Entropy offer and the working values (R196, R197). -/
def EndsAs (s t : State) : Prop :=
  ∃ u : State, u.doneIE = s.doneIE ∧ ((∃ op c, t = errorEnd op c u) ∨ ∃ out len, t = successEnd out len u)

theorem completes_encrypt_endsAs {s t : State} (h : Completes .encrypt s t) : EndsAs s t := by
  rcases completes_encrypt_cases h with ⟨-, -, rfl⟩ | ⟨-, -, -, rfl⟩ | ⟨n, -, -, -, rfl⟩ | ⟨n, -, -, -, rfl⟩
  · exact ⟨s, rfl, .inl ⟨_, _, rfl⟩⟩
  · exact ⟨s, rfl, .inl ⟨_, _, rfl⟩⟩
  · exact ⟨clearSeal (consumeEntropy s), rfl, .inl ⟨.encrypt, 4#4, rfl⟩⟩
  · exact ⟨clearSeal ((consumeEntropy s).setNonce (nonceWords n) 12#32), rfl, .inr ⟨_, _, rfl⟩⟩

theorem decryptStep_endsAs (s : State) : EndsAs s (decryptStep Config.params s) := by
  refine ⟨clearDatapath s, rfl, ?_⟩
  rcases decryptStep_cases Config.params s with ⟨c, hc, -, heq⟩ | ⟨-, -, -, -, -, -, -, heq⟩
  · exact .inl ⟨.decrypt, c.bits, by rw [heq, completeErr_eq_errorEnd _ hc]; rfl⟩
  · exact .inr ⟨_, _, heq⟩

/-- Every completion is an error end, a success end, or the end of ZEROIZE (R182). -/
theorem completes_end {i : Instr} {s t : State} (h : Completes i s t) : EndsAs s t ∨ t = zeroizeStep s := by
  rcases completes_cases h with ⟨rfl, -, -⟩ | ⟨rfl, -, -⟩ | ⟨-, -, rfl⟩ | ⟨-, -, rfl⟩
  · exact .inl (completes_encrypt_endsAs h)
  · exact .inl (completes_encrypt_endsAs h)
  · exact .inl (decryptStep_endsAs s)
  · exact .inr rfl

/-- Neither key nor input survives a completion, in success or error (R182, R198). -/
theorem completes_operandsZero {i : Instr} {s t : State} (h : Completes i s t) :
    t.key = zeroKey ∧ t.keyLen = 0#32 ∧ t.inBuf = [] ∧ t.inLen = 0#32 := by
  rcases completes_end h with ⟨u, -, ⟨op, c, rfl⟩ | ⟨out, len, rfl⟩⟩ | rfl
  all_goals exact ⟨rfl, rfl, rfl, rfl⟩

/-- No completion writes IRQ_EN (R182, R196, R197). -/
theorem completes_doneIE {i : Instr} {s t : State} (h : Completes i s t) : t.doneIE = s.doneIE := by
  rcases completes_end h with ⟨u, hu, ⟨op, c, rfl⟩ | ⟨out, len, rfl⟩⟩ | rfl
  · exact hu
  · exact hu
  · rfl

/-! ## The interrupt and the wait for entropy -/

theorem irq_of_done {t : State} (h : t.done = true) : t.irq = t.doneIE := by rw [State.irq, h, Bool.true_and]

theorem irq_of_not_done {t : State} (h : t.done = false) : t.irq = false := by rw [State.irq, h, Bool.false_and]

/-- IRQ_EN is no BUSY-locked register: its write sets DONE_IE in every phase (R21, R30). -/
theorem irqEn_writeDoes (s : State) (v : Word) : WriteDoes s 0x00C v fun u => { u with doneIE := v.getLsbD 0 } := fun rest =>
  hostAccess_write_unlocked (s := scheduled s rest) (l := .reg .irqEn) v (by decide) (by decide) rfl (by decide) (by decide) rfl

/-- An Engine turn in WAIT_RNG without an offer does nothing but use up its entry of the schedule (R132, R213). -/
theorem step_engine_hold {s : State} (hp : s.phase = .waitRng) (hn : s.entropyOffer = none) (rest : List Event) :
    step (scheduled s (.engine :: rest)) = .next (scheduled s rest) := by
  have hturn : engineTurn (scheduled s rest) = exec .encrypt (scheduled s rest) := by
    simp only [engineTurn, show (scheduled s rest).phase = .waitRng from hp]
  exact hturn.trans (exec_encrypt_hold (s := scheduled s rest) hp hn)

theorem run_engine_hold {s : State} (hp : s.phase = .waitRng) (hn : s.entropyOffer = none) (k : Nat) :
    Sys2Proof.core.run k (scheduled s (List.replicate k .engine)) = .next (scheduled s []) := by
  induction k with
  | zero => rfl
  | succ k ih => exact (run_next Sys2Proof.core (s := scheduled s (List.replicate (k + 1) .engine))
      (step_engine_hold hp hn (List.replicate k .engine))).trans ih

/-! ## The obligations -/

/-- Settles O19: each check's error is a whole error completion, and so is the failed comparison of the tags. -/
theorem decryptReportsTheFirstError : Obligations.DecryptReportsTheFirstError := by
  intro s hp tooLong
  refine ⟨fun hk => ?_, fun hk hn => ?_, fun hk hn hl => ?_, fun hk hn hl h16 => ?_, fun hk hn hl h16 hv => ?_,
    fun hk hn hl h16 hv ht => ?_⟩
  · exact exec_decrypt_error (c := .invalidKeyLength) hp (by decide) (decryptChecks_badKeyLen hk)
  · exact exec_decrypt_error (c := .invalidNonceLength) hp (by decide) (decryptChecks_badNonceLen hk hn)
  · exact exec_decrypt_error (c := .lengthError) hp (by decide) (decryptChecks_tooLong hk hn (decryptTooLong_iff.mpr hl))
  · exact exec_decrypt_error (c := .authenticationFailure) hp (by decide)
      (decryptChecks_truncated hk hn (decryptTooLong_eq_false hl) h16)
  · exact exec_decrypt_error (c := .cipherInitError) hp (by decide)
      (decryptChecks_coreFail hk hn (decryptTooLong_eq_false hl) h16 hv)
  · have hready : DecryptReady s := ⟨hp, hk, hn, h16, by omega, by omega⟩
    exact exec_decrypt_reject hready hv ht

/-- Settles O36: the causes are those by which the bus interface refuses, and a transaction without one is granted. -/
theorem busErrorExactlyOnTheFourCauses : Obligations.BusErrorExactlyOnTheFourCauses := by
  intro s a rest hb hwin causes
  refine ⟨fun h => ⟨?_, ?_⟩, fun h => ?_⟩
  · exact hostAccess_of_cause (s := scheduled s rest) hb hwin h
  · rintro z b rfl
    rfl
  · exact hostAccess_of_no_cause (s := scheduled s rest) hb hwin h

/-- Settles O31: every clause is what a step does to DONE and DONE_IE. -/
theorem interruptFollowsDoneAndEnable : Obligations.InterruptFollowsDoneAndEnable := by
  refine ⟨fun s => ?_, fun i s t h => ?_, fun s rest w hs hw => ?_, fun s rest v => ?_, fun s rest v hv => ?_, fun s op hs => ?_,
    fun s rest => ?_⟩
  · rw [State.irq, Bool.and_eq_true]
  · obtain ⟨c, -, hdone, -⟩ := completes_status h
    exact ⟨(irq_of_done hdone).trans (completes_doneIE h), hdone⟩
  · exact ⟨_, writeDoes_cmd_illegal hs hw rest, irq_of_done rfl, rfl⟩
  · exact ⟨_, irqEn_writeDoes s v rest, rfl, rfl⟩
  · exact ⟨_, status_writeDoes s v rest, irq_of_not_done (by simp [hv]), rfl⟩
  · exact ⟨_, exec_opInstr_idle op hs, irq_of_not_done rfl⟩
  · exact ⟨_, rfl, irq_of_not_done rfl⟩

/-- Settles O28: every completion leaves the operands zero. -/
theorem completionZeroizesTheOperands : Obligations.CompletionZeroizesTheOperands := by
  intro i s t _ h
  obtain ⟨hkey, hkeyLen, hin, hinLen⟩ := completes_operandsZero h
  exact ⟨hkey, hkeyLen, fun a => by rw [hin, Memory.read_nil], hinLen⟩

/-- Settles O17, by induction on the number of turns. -/
theorem encryptHoldsWithoutEntropy : Obligations.EncryptHoldsWithoutEntropy := fun _ k hp hn =>
  ⟨run_engine_hold hp hn k, exec_encrypt_hold hp hn⟩

end Sys2Proof.Machine
end

section
/-! Decode, encode and issue: the decoder's inverse on words and bytes (R90, R92, R100), what `exec` is of an idle engine and of a command
that is not in progress (R101, log entry 9), and the step as the head of the schedule (R7). -/

namespace Sys2Proof

/-! ## The decoder and the encoder -/

/-- The four bytes of a word, in the order of R66, make the word again. -/
theorem wordOfBytes_bytesOfWord (w : Word) :
    wordOfBytes (w.extractLsb' 0 8) (w.extractLsb' 8 8) (w.extractLsb' 16 8) (w.extractLsb' 24 8) = w :=
  Machine.le32_byteOf w

/-- A word decodes to a command exactly when it is the command's encoding (R92). -/
theorem decodeWord_eq_ok_iff {w : Word} {i : Instr} : decodeWord w = .ok i ↔ w = encode i := by
  refine ⟨fun h => ?_, fun h => h ▸ decodeWord_encode i⟩
  by_cases hw : ∃ j, w = encode j
  · obtain ⟨j, rfl⟩ := hw
    rw [decodeWord_encode, Except.ok.injEq] at h
    rw [h]
  · rw [decodeWord_of_ne_encode (not_exists.mp hw)] at h
    cases h

theorem decodeBytes_encodeBytes (i : Instr) (rest : List Byte) : decodeBytes (encodeBytes i ++ rest) = .ok (i, rest) := by
  simp only [encodeBytes, bytesOfWord, List.cons_append, List.nil_append, decodeBytes, wordOfBytes_bytesOfWord, decodeWord_encode,
    Except.map]

/-- The fields RSVD and OP make up the word (R90). -/
theorem append_rsvdField_opField (w : Word) : rsvdField w ++ opField w = w := by
  apply BitVec.eq_of_getLsbD_eq
  intro i hi
  simp only [rsvdField, opField, BitVec.getLsbD_append, BitVec.getLsbD_extractLsb']
  split_ifs with h
  · simp [h]
  · simp [show i - 4 < 28 by omega, show 4 + (i - 4) = i by omega]

/-- With RSVD zero, each of the four operation codes is the code of a command (R92). -/
theorem exists_encode_of_op_le (op : BitVec 4) (h : op.toNat ≤ 3) : ∃ i, (0#28 ++ op : Word) = encode i := by
  have hops : ∀ op : BitVec 4, op.toNat ≤ 3 → op = 0#4 ∨ op = 1#4 ∨ op = 2#4 ∨ op = 3#4 := by decide
  rcases hops op h with rfl | rfl | rfl | rfl
  · exact ⟨.nop, rfl⟩
  · exact ⟨.encrypt, rfl⟩
  · exact ⟨.decrypt, rfl⟩
  · exact ⟨.zeroize, rfl⟩

/-- The checks of RSVD and OP pass exactly for the four command words (R92). -/
theorem commandWord_wf_iff {w : Word} : CommandWord.wf w = true ↔ ∃ i, w = encode i := by
  constructor
  · intro h
    have hfields : rsvdField w = 0#28 ∧ (opField w).toNat ≤ 3 := by
      simpa [CommandWord.wf, CommandWord.rsvdZero, CommandWord.opLegal, rsvdField, opField] using h
    obtain ⟨hrsvd, hop⟩ := hfields
    rw [← append_rsvdField_opField w, hrsvd]
    exact exists_encode_of_op_le _ hop
  · rintro ⟨i, rfl⟩
    have ⟨_, hwf, _⟩ := encoding_statement i
    exact hwf

/-- A 32-bit word numbered as the opcode table numbers it is itself. -/
theorem tableWord_toNat (w : Word) : tableWord 32 w.toNat = w := by
  simp [tableWord, Nat.mod_eq_of_lt w.isLt]

end Sys2Proof

namespace Sys2Proof.Machine

open Sys2Proof.Claims

/-! ## `exec` of an idle engine, and of a command that is not in progress -/

/-- Everything a command does to an idle engine: NOP nothing, every other its accept (R101, R180). -/
theorem exec_idle_cases {i : Instr} {s t : State} (h : exec i s = .next t) (hs : s.phase = .idle) :
    (i = .nop ∧ t = s) ∨ ∃ op, i = opInstr op ∧ t = accept op s := by
  have hend {u : State} (hu : exec i s = .next u) : t = u := Host.Outcome.next.inj (h.symm.trans hu)
  cases i with
  | nop => exact .inl ⟨rfl, hend (exec_nop_idle hs)⟩
  | encrypt => exact .inr ⟨.encrypt, rfl, hend (exec_opInstr_idle .encrypt hs)⟩
  | decrypt => exact .inr ⟨.decrypt, rfl, hend (exec_opInstr_idle .decrypt hs)⟩
  | zeroize => exact .inr ⟨.zeroize, rfl, hend (exec_opInstr_idle .zeroize hs)⟩

/-- A command that takes no step of its own in a busy engine is turned away (log entry 9). -/
theorem exec_turnedAway {i : Instr} {s : State} (hs : s.phase ≠ .idle) (hop : ∀ op, s.phase = .pending op → i ≠ opInstr op)
    (hwait : s.phase = .waitRng → i ≠ .encrypt) : exec i s = .next (turnedAway s) := by
  obtain ⟨t, ht⟩ := exec_next i s
  rcases exec_cases ht with ⟨-, hp, -⟩ | ⟨-, rfl⟩ | ⟨op, hp, -⟩ | ⟨hi, hp, -⟩ | ⟨hi, hp, -⟩ | ⟨hi, hp, -⟩ | ⟨hi, hp, -⟩
  · exact absurd hp hs
  · exact ht
  · exact absurd hp hs
  · exact absurd hi (hop .encrypt hp)
  · exact absurd hi (hwait hp)
  · exact absurd hi (hop .decrypt hp)
  · exact absurd hi (hop .zeroize hp)

/-- Everything the issue of a word does to an idle engine (R101). -/
theorem issue_idle_cases {v : Word} {s t : State} (h : issue v s = .next t) (hs : s.phase = .idle) :
    t = s ∨ (∃ op, v = encode (opInstr op) ∧ t = accept op s) ∨ t = illegalCommand s := by
  rcases issue_cases h with ⟨i, hv, h⟩ | ⟨-, rfl⟩
  · rcases exec_idle_cases h hs with ⟨-, rfl⟩ | ⟨op, rfl, rfl⟩
    · exact .inl rfl
    · exact .inr (.inl ⟨op, decodeWord_eq_ok_iff.mp hv, rfl⟩)
  · exact .inr (.inr rfl)

/-! ## Every function of the machine answers a next state -/

theorem issue_next (v : Word) (s : State) : ∃ t, issue v s = .next t := by
  unfold issue
  split
  · exact exec_next _ s
  · exact ⟨_, rfl⟩

theorem hostAccess_next (a : Access) (s : State) : ∃ t, hostAccess a s = .next t := by
  cases a with
  | read z b => exact ⟨_, rfl⟩
  | write z b v =>
    simp only [hostAccess, busWrite]
    split
    · exact ⟨_, rfl⟩
    · exact ⟨_, rfl⟩
    · unfold writeLoc
      split
      · exact issue_next _ _
      all_goals exact ⟨_, rfl⟩

theorem programTurn_next (s : State) : ∃ t, programTurn s = .next t := by
  unfold programTurn
  split
  · exact ⟨_, rfl⟩
  · next op p _ =>
    obtain ⟨u, hu⟩ := hostAccess_next op.tuple.access s
    exact ⟨settle op p u, by rw [hu]⟩

theorem engineTurn_next (s : State) : ∃ t, engineTurn s = .next t := by
  unfold engineTurn
  split
  · exact ⟨_, rfl⟩
  all_goals exact exec_next _ s

/-! ## The step as the head of the schedule -/

theorem step_of_events {s : State} {e : Event} {rest : List Event} (h : s.events = e :: rest) :
    step s = takeEvent e (s.withEvents rest) := by
  simp only [step, nextStep, h]

/-- The Engine's turn is the step when it is listed, and when the schedule lists nothing (log entry 4). -/
theorem step_of_engineNext {s : State} {rest : List Event} (h : EngineNext s rest) : step s = engineTurn (s.withEvents rest) := by
  rcases h with h | ⟨h, rfl⟩
  · exact step_of_events h
  · have hs : s.withEvents [] = s := by rw [← h]; rfl
    simp only [step, nextStep, h, hs]

theorem step_next (s : State) : ∃ t, step s = .next t := by
  cases hs : s.events with
  | nil => rw [step_of_engineNext (.inr ⟨hs, rfl⟩)]; exact engineTurn_next _
  | cons e rest =>
    rw [step_of_events hs]
    cases e with
    | host a => exact hostAccess_next a _
    | program => exact programTurn_next _
    | engine => exact engineTurn_next _
    | entropy | coreInit | reset => exact ⟨_, rfl⟩

theorem engineTurn_pending {s : State} {op : Op} (h : s.phase = .pending op) : engineTurn s = exec (opInstr op) s := by
  cases op <;> simp only [engineTurn, h, opInstr]

theorem engineTurn_waitRng {s : State} (h : s.phase = .waitRng) : engineTurn s = exec .encrypt s := by
  simp only [engineTurn, h]

theorem engineTurn_idle {s : State} (h : s.phase = .idle) : engineTurn s = .next s := by
  simp only [engineTurn, h]

/-! ## The obligations -/

/-- Settles O4: the decoder inverts the encoder word by word, and the two field checks leave the four command words. -/
theorem decodeAndEncodeAgree : Obligations.DecodeAndEncodeAgree :=
  ⟨decodeBytes_encodeBytes, fun _ _ => decodeWord_eq_ok_iff,
    fun _ => commandWord_wf_iff.trans (exists_congr fun _ => decodeWord_eq_ok_iff.symm)⟩

/-- Settles O49: each function of the machine answers a next state. -/
theorem theMachineNeverStops : Obligations.TheMachineNeverStops := ⟨step_next, exec_next⟩

/-- Settles O2: reset is the head of the schedule, and its next state is `hardReset`. -/
theorem resetAbandonsTheCommand : Obligations.ResetAbandonsTheCommand := fun s _ h => ⟨s.busResp, step_of_events h⟩

/-- Settles O5, each word by the table. -/
theorem sampleWordsDecode : Obligations.SampleWordsDecode := ⟨rfl, rfl, rfl, rfl, rfl, rfl⟩

/-- Settles O6: a CMD write to an idle engine reaches the issue, and the issue runs the decoded command. -/
theorem stepRunsTheDecodedCommand : Obligations.StepRunsTheDecodedCommand := by
  have hissue {w : Word} {i : Instr} (hw : decodeWord w = .ok i) (u : State) : issue w u = exec i u :=
    decodeWord_eq_ok_iff.mp hw ▸ issue_encode i u
  refine ⟨fun s rest w i hs hw => ?_, fun s w i hw => ?_⟩
  · exact (hostAccess_cmd (scheduled s rest) w hs).trans (hissue hw _)
  · rw [State.withFetchWord, tableWord_toNat]
    exact (hostAccess_cmd { s with phase := .idle } w rfl).trans (hissue hw _)

/-- Settles O7: the Engine's turn, at the head of the schedule or at its end, by the phase. -/
theorem engineStepRunsTheCommandInProgress : Obligations.EngineStepRunsTheCommandInProgress := by
  intro s rest hnext
  rw [step_of_engineNext hnext]
  exact ⟨fun op hp => engineTurn_pending (s := s.withEvents rest) hp, fun hp => engineTurn_waitRng (s := s.withEvents rest) hp,
    fun hp => engineTurn_idle (s := s.withEvents rest) hp⟩

/-- Settles O9: in an idle state the command is accepted, and `accept_eq` says all that the accept changes. -/
theorem acceptSetsPendingAndClearsStatus : Obligations.AcceptSetsPendingAndClearsStatus := fun s op hs => by
  rw [exec_opInstr_idle op hs, accept_eq]

/-- Settles O11: no step of its own is left for such a command. -/
theorem otherCommandIsTurnedAway : Obligations.OtherCommandIsTurnedAway := fun _ _ => exec_turnedAway

/-- Settles O29: the ZEROIZE step is the reset state with the fields it keeps. -/
theorem zeroizeEqualsResetButIrqEnAndDone : Obligations.ZeroizeEqualsResetButIrqEnAndDone := fun _ => exec_zeroize_pending

end Sys2Proof.Machine
end

section
/-! The step agent by agent: what the Engine, the Host, the other inputs and reset each do in one step (R7), and from it the invariant of
the reachable states (R41), the phase's transitions (R40) and the results (R76). -/

namespace Sys2Proof.Machine

open Sys2Proof.Claims

/-! ## Whose step it is -/

/-- Everything one step of the machine can do, by the agent that takes it: the Engine's turn; a transaction of the Host, listed or of its
program, and what the Host makes of the response; a turn that only the ports see; reset. -/
theorem step_agent_cases {s t : State} (h : step s = .next t) :
    (∃ rest, EngineNext s rest ∧ engineTurn (s.withEvents rest) = .next t) ∨
    (∃ a rest u p b e, HostNext s a rest ∧ hostAccess a (s.withEvents rest) = .next u ∧
      t = { u with program := p, bound := b, asExpected := e }) ∨
    (∃ rest o v, t = { s with events := rest, entropyOffer := o, coreInit := v }) ∨
    (∃ rest, s.events = .reset :: rest ∧ t = hardReset (s.withEvents rest)) := by
  rcases step_cases h with hengine | ⟨a, rest, he, h⟩ | ⟨rest, he, h⟩ | ⟨o, rest, -, rfl⟩ | ⟨v, rest, -, rfl⟩ | hreset
  · exact .inl hengine
  · exact .inr (.inl ⟨a, rest, t, t.program, t.bound, t.asExpected, .inl he, h, rfl⟩)
  · rcases programTurn_cases h with ⟨-, rfl⟩ | ⟨op, p, u, hp, hu, rfl⟩
    · exact .inr (.inr (.inl ⟨rest, s.entropyOffer, s.coreInit, rfl⟩))
    · exact .inr (.inl ⟨op.tuple.access, rest, u, _, _, _, .inr ⟨he, op, p, hp, rfl⟩, hu, rfl⟩)
  · exact .inr (.inr (.inl ⟨rest, o, s.coreInit, rfl⟩))
  · exact .inr (.inr (.inl ⟨rest, s.entropyOffer, v, rfl⟩))
  · exact .inr (.inr (.inr hreset))

/-! ## The invariant: the parts of a state that it does not speak of -/

section
variable {s : State} (h : s.Inv)
include h

/-- The invariant says nothing of the ports, the schedule and the Host's own fields. -/
theorem State.Inv.withPorts (o : Option Nonce) (v : Verdict) (r : Option Response) (es : List Event) (p : List HostOp)
    (b : List (String × Word)) (e : Bool) :
    ({ s with entropyOffer := o, coreInit := v, busResp := r, events := es, program := p, bound := b, asExpected := e } : State).Inv :=
  ⟨h.status, h.buffers, h.datapath, h.waiting⟩

theorem State.Inv.withEvents (es : List Event) : (s.withEvents es).Inv := h.withPorts ..

theorem State.Inv.respond (r : Response) : (s.respond r).Inv := h.withPorts ..

theorem State.Inv.consumeEntropy : (consumeEntropy s).Inv := h.withPorts ..

theorem State.Inv.setNonce (ws : Vector Word 3) (len : Word) : (s.setNonce ws len).Inv :=
  ⟨h.status, h.buffers, h.datapath, h.waiting⟩

theorem State.Inv.clearDatapath : (clearDatapath s).Inv :=
  have ⟨_, _, _, _, _, hcipher, htag⟩ := h.datapath
  ⟨h.status, h.buffers, ⟨rfl, rfl, rfl, rfl, rfl, hcipher, htag⟩, h.waiting⟩

theorem State.Inv.clearSeal : (clearSeal s).Inv :=
  have ⟨hexp, hrx, hdiff, hmatch, hplain, _, _⟩ := h.datapath
  ⟨h.status, h.buffers, ⟨hexp, hrx, hdiff, hmatch, hplain, rfl, rfl⟩, h.waiting⟩

/-- With DONE and the phase as they are, the acknowledgement and IRQ_EN cannot break the invariant. -/
theorem State.Inv.ackDone (v : Word) : (s.ackDone v).Inv := by
  obtain ⟨hdone, hcode, hmax, hbusy⟩ := h.status
  refine ⟨⟨fun hd => hdone ?_, hcode, hmax, hbusy⟩, h.buffers, h.datapath, h.waiting⟩
  have hboth : (s.done && !v.getLsbD 1) = true := hd
  simp only [Bool.and_eq_true] at hboth
  exact hboth.1

/-- A command in progress has DONE = 0: STATUS was cleared at its accept (R41, R101). -/
theorem State.Inv.done_eq_false (hs : s.phase ≠ .idle) : s.done = false := by
  obtain ⟨hdone, -⟩ := h.status
  exact Bool.eq_false_iff.mpr (mt hdone hs)

end

/-! ## The invariant at an accept, a completion and reset -/

/-- An idle engine whose STATUS fields were set together meets the STATUS relations (R26, R28). -/
theorem statusInv_of_idle {s : State} {c : ErrCode} (hp : s.phase = .idle) (he : s.error = (c != .none)) (hc : s.errCode = c.bits) :
    s.StatusInv := by
  refine ⟨fun _ => hp, ?_, ?_, fun hb => absurd hp hb⟩
  · rw [he, hc]; cases c <;> decide
  · rw [hc]; cases c <;> decide

theorem waitInv_of_ne {p : Params} {s : State} (h : s.phase ≠ .waitRng) : s.WaitInv p := fun hw => absurd hw h

theorem State.Inv.accept {s : State} (h : s.Inv) (op : Op) : (accept op s).Inv :=
  ⟨⟨nofun, (by decide : false = true ↔ 0#4 ≠ 0#4), (by decide : (0#4).toNat ≤ 6), fun _ => rfl⟩, h.buffers, h.datapath,
    waitInv_of_ne nofun⟩

theorem State.Inv.illegalCommand {s : State} (h : s.Inv) (hs : s.phase = .idle) : (illegalCommand s).Inv :=
  ⟨statusInv_of_idle (c := .illegalCommand) hs rfl rfl, h.buffers, h.datapath, h.waiting⟩

/-- The passed check step establishes what WAIT_RNG needs (R41, R131). -/
theorem State.Inv.setPhase_waitRng {s : State} (h : s.Inv) (hs : s.phase ≠ .idle) (hk : s.keyLen = 32#32)
    (hbuf : s.inLen.toNat ≤ s.bufBytes) (hmax : s.inLen.toNat ≤ Config.params.coreMaxPt) : (s.setPhase .waitRng).Inv := by
  obtain ⟨-, hcode, hle, hbusy⟩ := h.status
  exact ⟨⟨fun hd => absurd ((h.done_eq_false hs).symm.trans hd) nofun, hcode, hle, fun _ => hbusy hs⟩, h.buffers, h.datapath,
    fun _ => ⟨hk, hbuf, hmax⟩⟩

/-- A successful completion keeps the invariant when its result fits OUT (R83, R196). -/
theorem State.Inv.completeOk {s : State} (h : s.Inv) {S : List Byte} (hS : S.length ≤ s.bufBytes + 16) : (completeOk S s).Inv := by
  obtain ⟨hlegal, -, -, -, -, -⟩ := h.buffers
  obtain ⟨-, -, hmax⟩ := bufBytesLegal_iff.mp hlegal
  have hlen : (BitVec.ofNat 32 S.length).toNat = S.length := by
    rw [BitVec.toNat_ofNat, Nat.mod_eq_of_lt (by omega)]
  refine ⟨statusInv_of_idle (c := .none) rfl rfl rfl, ⟨hlegal, rfl, rfl, Memory.wf_ofBytes S, ?_, ?_⟩, h.datapath,
    waitInv_of_ne nofun⟩
  · rw [completeOk_eq, hlen]; exact Memory.below_ofBytes S
  · rw [completeOk_eq, hlen]; exact hS

theorem State.Inv.completeErr {s : State} (h : s.Inv) (op : Op) (c : ErrCode) : (completeErr op c s).Inv := by
  obtain ⟨hlegal, -, -, -, -, -⟩ := h.buffers
  rw [completeErr_eq]
  exact ⟨statusInv_of_idle (c := c) rfl rfl rfl, ⟨hlegal, rfl, rfl, rfl, rfl, Nat.zero_le _⟩, h.datapath, waitInv_of_ne nofun⟩

/-- The reset state meets the invariant with any legal BUF_BYTES, DONE and DONE_IE. -/
theorem reset_inv_with {b : Nat} (hb : Config.bufBytesLegal b = true) (d ie : Bool) :
    ({ State.reset with done := d, doneIE := ie, bufBytes := b } : State).Inv :=
  ⟨statusInv_of_idle (c := .none) rfl rfl rfl, ⟨hb, rfl, rfl, rfl, rfl, Nat.zero_le _⟩, ⟨rfl, rfl, rfl, rfl, rfl, rfl, rfl⟩,
    waitInv_of_ne nofun⟩

theorem State.Inv.hardReset {s : State} (h : s.Inv) : (hardReset s).Inv :=
  have ⟨hlegal, _⟩ := h.buffers
  (reset_inv_with hlegal false false).withPorts ..

theorem State.Inv.zeroizeStep {s : State} (h : s.Inv) : (zeroizeStep s).Inv :=
  have ⟨hlegal, _⟩ := h.buffers
  (reset_inv_with hlegal true s.doneIE).withPorts ..

/-! ## The invariant at each agent's step -/

theorem State.Inv.encryptCheck {s : State} (h : s.Inv) (hs : s.phase ≠ .idle) : (encryptCheck Config.params s).Inv := by
  rcases encryptCheck_cases Config.params s with ⟨c, -, heq⟩ | ⟨hk, hbuf, hmax, heq⟩
  · rw [heq]; exact h.completeErr .encrypt c
  · rw [heq]; exact h.setPhase_waitRng hs hk hbuf hmax

/-- The seal step's result fits OUT, since its length was checked and is locked in WAIT_RNG (R71, R131). -/
theorem State.Inv.encryptWait {s : State} (h : s.Inv) (hs : s.phase = .waitRng) : (encryptWait Config.params s).Inv := by
  rcases encryptWait_cases Config.params s with ⟨-, heq⟩ | ⟨n, -, -, heq⟩ | ⟨n, -, -, heq⟩
  · rw [heq]; exact h
  · rw [heq]; exact (h.consumeEntropy.completeErr .encrypt .cipherInitError).clearSeal
  · obtain ⟨-, hbuf, -⟩ := h.waiting hs
    have hfits : (sealRef chip s.keyBytes n s.plaintext).length ≤ s.bufBytes + 16 := by simpa using hbuf
    rw [heq]
    exact (h.consumeEntropy.setNonce (nonceWords n) 12#32).clearSeal.completeOk hfits

theorem State.Inv.decryptStep {s : State} (h : s.Inv) : (decryptStep Config.params s).Inv := by
  rcases decryptStep_cases Config.params s with ⟨c, -, -, heq⟩ | ⟨-, -, -, hbuf, -, -, -, heq⟩
  · rw [heq]; exact (h.completeErr .decrypt c).clearDatapath
  · rw [heq]; exact (h.completeOk (by rw [length_dec, length_body]; omega)).clearDatapath

theorem State.Inv.engineTurn {s t : State} (h : s.Inv) (ht : engineTurn s = .next t) : t.Inv := by
  rcases engineTurn_cases ht with ⟨-, rfl⟩ | ⟨hp, rfl⟩ | ⟨hp, rfl⟩ | ⟨-, rfl⟩ | ⟨-, rfl⟩
  · exact h
  · exact h.encryptCheck (by simp [hp])
  · exact h.encryptWait hp
  · exact h.decryptStep
  · exact h.zeroizeStep

/-- KEY_LEN and IN_LEN, of which WAIT_RNG speaks, are BUSY-locked (R41, R71). -/
theorem State.Inv.writeReg {s : State} (h : s.Inv) {r : Reg} (hlock : s.phase ≠ .idle → r.busyLocked = false) (v : Word) :
    (writeReg r v s).Inv := by
  have hidle (hr : r.busyLocked = true) : s.phase ≠ .waitRng := fun hw => by simp [hr, hw] at hlock
  cases r with
  | id | cmd | outLen | bufSize | reserved => exact h
  | status => exact h.ackDone v
  | irqEn | nonceLen | key | nonce => exact ⟨h.status, h.buffers, h.datapath, h.waiting⟩
  | keyLen | inLen => exact ⟨h.status, h.buffers, h.datapath, waitInv_of_ne (hidle rfl)⟩

theorem State.Inv.writeIn {s : State} (h : s.Inv) {o : Nat} (ho : o < s.bufBytes) (h4 : o % 4 = 0) (v : Word) :
    ({ s with inBuf := s.inBuf.writeWord o v } : State).Inv := by
  obtain ⟨hlegal, hwf, hbelow, hout⟩ := h.buffers
  obtain ⟨hb4, -, -⟩ := bufBytesLegal_iff.mp hlegal
  have hlast : o + 3 < s.bufBytes := by omega
  exact ⟨h.status, ⟨hlegal, Memory.wf_writeWord o v hwf, Memory.below_writeWord v hbelow hlast, hout⟩, h.datapath, h.waiting⟩

theorem State.Inv.hostAccess {s t : State} {a : Access} (h : s.Inv) (ht : hostAccess a s = .next t) : t.Inv := by
  rcases hostAccess_cases ht with ⟨r, rfl⟩ | ⟨b, v, r, -, -, -, -, hlock, rfl⟩ | ⟨b, v, o, -, -, ho, h4, -, rfl⟩ | ⟨v, -, hs, ht⟩
  · exact h.respond r
  · exact (h.respond .okayWrite).writeReg hlock v
  · exact (h.respond .okayWrite).writeIn ho h4 v
  · have hr := h.respond .okayWrite
    rcases issue_idle_cases ht hs with rfl | ⟨op, -, rfl⟩ | rfl
    · exact hr
    · exact hr.accept op
    · exact hr.illegalCommand hs

theorem State.Inv.step {s t : State} (h : s.Inv) (ht : step s = .next t) : t.Inv := by
  rcases step_agent_cases ht with ⟨rest, -, ht⟩ | ⟨a, rest, u, p, b, e, -, hu, rfl⟩ | ⟨rest, o, v, rfl⟩ | ⟨rest, -, rfl⟩
  · exact (h.withEvents rest).engineTurn ht
  · exact ((h.withEvents rest).hostAccess hu).withPorts ..
  · exact h.withPorts ..
  · exact (h.withEvents rest).hardReset

/-! ## The phase's transitions -/

/-- The Engine ends a command, or takes ENCRYPT from its check to the wait for entropy (R40). -/
theorem engineTurn_phase_cases {s t : State} (h : engineTurn s = .next t) :
    t.phase = s.phase ∨ (s.phase = .pending .encrypt ∧ (t.phase = .waitRng ∨ t.phase = .idle)) ∨
      (s.phase = .waitRng ∧ t.phase = .idle) ∨ (s.phase = .pending .decrypt ∧ t.phase = .idle) ∨
      (s.phase = .pending .zeroize ∧ t.phase = .idle) := by
  rcases engineTurn_cases h with ⟨-, rfl⟩ | ⟨hp, rfl⟩ | ⟨hp, rfl⟩ | ⟨hp, rfl⟩ | ⟨hp, rfl⟩
  · exact .inl rfl
  · refine .inr (.inl ⟨hp, ?_⟩)
    rcases encryptCheck_cases Config.params s with ⟨c, -, heq⟩ | ⟨-, -, -, heq⟩
    · exact .inr (by rw [heq, completeErr_phase])
    · exact .inl (by rw [heq, State.setPhase_phase])
  · rcases encryptWait_cases Config.params s with ⟨-, heq⟩ | ⟨n, -, -, heq⟩ | ⟨n, -, -, heq⟩
    · exact .inl (by rw [heq])
    · exact .inr (.inr (.inl ⟨hp, by rw [heq]; rfl⟩))
    · exact .inr (.inr (.inl ⟨hp, by rw [heq]; rfl⟩))
  · exact .inr (.inr (.inr (.inl ⟨hp, decryptStep_phase ..⟩)))
  · exact .inr (.inr (.inr (.inr ⟨hp, zeroizeStep_phase s⟩)))

/-- The Host moves the phase by a CMD write of a command's word alone (R40, R101). -/
theorem hostAccess_phase_cases {a : Access} {s t : State} (h : hostAccess a s = .next t) :
    t.phase = s.phase ∨
      ∃ op, a = .write .word 0x00004#18 (encode (opInstr op)) ∧ s.phase = .idle ∧ t.phase = .pending op := by
  rcases hostAccess_cases h with ⟨r, rfl⟩ | ⟨b, v, r, -, -, -, -, -, rfl⟩ | ⟨b, v, o, -, -, -, -, -, rfl⟩ | ⟨v, ha, hs, h⟩
  · exact .inl rfl
  · exact .inl (by simp)
  · exact .inl rfl
  · rcases issue_idle_cases h hs with rfl | ⟨op, rfl, rfl⟩ | rfl
    · exact .inl rfl
    · exact .inr ⟨op, ha, hs, rfl⟩
    · exact .inl rfl

/-! ## The results -/

/-- An Engine turn that ends busy moves the phase at most: it waits, or ENCRYPT's check has passed (R131, R213). -/
theorem engineTurn_busy_cases {s t : State} (h : engineTurn s = .next t) (ht : t.phase ≠ .idle) : t = s ∨ t = s.setPhase .waitRng := by
  rcases engineTurn_cases h with ⟨-, rfl⟩ | ⟨-, rfl⟩ | ⟨-, rfl⟩ | ⟨-, rfl⟩ | ⟨-, rfl⟩
  · exact .inl rfl
  · rcases encryptCheck_cases Config.params s with ⟨c, -, heq⟩ | ⟨-, -, -, heq⟩
    · simp [heq] at ht
    · exact .inr heq
  · rcases encryptWait_cases Config.params s with ⟨-, heq⟩ | ⟨n, -, -, heq⟩ | ⟨n, -, -, heq⟩
    · exact .inl heq
    · simp [heq] at ht
    · simp [heq, sealAndCommit_eq] at ht
  · simp at ht
  · simp at ht

/-- `t` has the results of `s`: OUT, OUT_LEN, ERR_CODE and the nonce. -/
def SameResults (s t : State) : Prop :=
  t.outBuf = s.outBuf ∧ t.outLen = s.outLen ∧ t.errCode = s.errCode ∧ t.nonce = s.nonce ∧ t.nonceLen = s.nonceLen

theorem SameResults.refl (s : State) : SameResults s s := ⟨rfl, rfl, rfl, rfl, rfl⟩

/-- The Engine touches no result but by a completion (R76). -/
theorem engineTurn_sameResults {s t : State} (h : engineTurn s = .next t) (hend : ¬ (s.phase ≠ .idle ∧ t.phase = .idle)) :
    SameResults s t := by
  by_cases hs : s.phase = .idle
  · obtain rfl : s = t := Host.Outcome.next.inj ((engineTurn_idle hs).symm.trans h)
    exact SameResults.refl s
  · rcases engineTurn_busy_cases h fun ht => hend ⟨hs, ht⟩ with rfl | rfl
    · exact SameResults.refl t
    · exact SameResults.refl s

/-- The nonce registers in the address map (R21), offset by offset. -/
theorem regAt_nonce_table (q : Fin 64) (i : Fin 4) :
    regAt (4 * q + i) = .nonceLen ∨ (∃ j, regAt (4 * q + i) = .nonce j) →
      0x040 ≤ 4 * q.val + i ∧ 4 * q.val + i ≤ 0x048 ∨ 4 * q.val + i = 0x014 := by
  decide +revert

theorem nonce_offset_of_regAt {a : Nat} (ha : a < 0x100) (h : regAt a = .nonceLen ∨ ∃ j, regAt a = .nonce j) :
    0x040 ≤ a ∧ a ≤ 0x048 ∨ a = 0x014 := by
  have hoff := regAt_nonce_table ⟨a / 4, by omega⟩ ⟨a % 4, by omega⟩
  simp only [Nat.div_add_mod] at hoff
  exact hoff h

/-- Of the register writes, only those of the nonce registers change a result (R36, R76). -/
theorem writeReg_results (r : Reg) (v : Word) (s : State) :
    SameResults s (writeReg r v s) ∨ ((r = .nonceLen ∨ ∃ j, r = .nonce j) ∧ (writeReg r v s).outBuf = s.outBuf ∧
      (writeReg r v s).outLen = s.outLen ∧ (writeReg r v s).errCode = s.errCode) := by
  cases r with
  | nonceLen => exact .inr ⟨.inl rfl, rfl, rfl, rfl⟩
  | nonce j => exact .inr ⟨.inr ⟨j, rfl⟩, rfl, rfl, rfl⟩
  | id | cmd | status | irqEn | keyLen | inLen | outLen | key | bufSize | reserved => exact .inl (SameResults.refl s)

/-- A transaction leaves OUT and OUT_LEN; a CMD write alone changes ERR_CODE, and a write to the nonce registers alone the nonce (R76). -/
theorem hostAccess_results {a : Access} {s t : State} (h : hostAccess a s = .next t) :
    t.outBuf = s.outBuf ∧ t.outLen = s.outLen ∧ (t.errCode = s.errCode ∨ ∃ w, a = .write .word 0x00004#18 w) ∧
      ((t.nonce = s.nonce ∧ t.nonceLen = s.nonceLen) ∨
        ∃ b v, a = .write .word b v ∧ (0x040 ≤ b.toNat ∧ b.toNat ≤ 0x048 ∨ b.toNat = 0x014)) := by
  rcases hostAccess_cases h with ⟨r, rfl⟩ | ⟨b, v, r, rfl, rfl, hb, -, -, rfl⟩ | ⟨b, v, o, -, -, -, -, -, rfl⟩ | ⟨v, rfl, hs, h⟩
  · exact ⟨rfl, rfl, .inl rfl, .inl ⟨rfl, rfl⟩⟩
  · rcases writeReg_results (regAt b.toNat) v (s.respond .okayWrite) with ⟨hout, hlen, hcode, hnonce⟩ | ⟨hnonce, hout, hlen, hcode⟩
    · exact ⟨hout, hlen, .inl hcode, .inl hnonce⟩
    · exact ⟨hout, hlen, .inl hcode, .inr ⟨b, v, rfl, nonce_offset_of_regAt hb hnonce⟩⟩
  · exact ⟨rfl, rfl, .inl rfl, .inl ⟨rfl, rfl⟩⟩
  · rcases issue_idle_cases h hs with rfl | ⟨op, -, rfl⟩ | rfl
    · exact ⟨rfl, rfl, .inl rfl, .inl ⟨rfl, rfl⟩⟩
    · exact ⟨rfl, rfl, .inr ⟨v, rfl⟩, .inl ⟨rfl, rfl⟩⟩
    · exact ⟨rfl, rfl, .inr ⟨v, rfl⟩, .inl ⟨rfl, rfl⟩⟩

/-! ## The obligations -/

/-- Settles O51: each agent's step keeps the invariant. -/
theorem everyStepKeepsTheInvariant : Obligations.EveryStepKeepsTheInvariant := fun _ _ h ht => h.step ht

/-- Settles O50: the reset state, with the default BUF_BYTES. -/
theorem resetMeetsTheInvariant : Obligations.ResetMeetsTheInvariant :=
  reset_inv_with (b := Config.defaultBufBytes) (by decide) false false

/-- Settles O52: the Engine's transitions, the Host's, and reset's. -/
theorem phaseFollowsItsTransitions : Obligations.PhaseFollowsItsTransitions := by
  intro s t h
  rcases step_agent_cases h with ⟨rest, hnext, h⟩ | ⟨a, rest, u, p, b, e, hnext, hu, rfl⟩ | ⟨rest, o, v, rfl⟩ | ⟨rest, he, rfl⟩
  · exact (engineTurn_phase_cases h).imp_right fun hphase => .inr (.inr ⟨⟨rest, hnext⟩, hphase⟩)
  · refine (hostAccess_phase_cases hu).imp_right fun ⟨op, ha, hs, hop⟩ => .inr (.inl ⟨op, rest, ha ▸ hnext, hs, hop⟩)
  · exact .inl rfl
  · exact .inr (.inl ⟨⟨rest, he⟩, rfl⟩)

/-- Settles O54: the Engine changes no result but by a completion, and the Host's transactions change them as `hostAccess_results` says. -/
theorem resultsChangeOnlyAtCompletionOrReset : Obligations.ResultsChangeOnlyAtCompletionOrReset := by
  intro s t h hreset hend
  rcases step_agent_cases h with ⟨rest, -, h⟩ | ⟨a, rest, u, p, b, e, hnext, hu, rfl⟩ | ⟨rest, o, v, rfl⟩ | ⟨rest, he, -⟩
  · obtain ⟨hout, hlen, hcode, hnonce⟩ := engineTurn_sameResults h hend
    exact ⟨hout, hlen, .inl hcode, .inl hnonce⟩
  · obtain ⟨hout, hlen, hcode, hnonce⟩ := hostAccess_results hu
    refine ⟨hout, hlen, hcode.imp_right ?_, hnonce.imp_right ?_⟩
    · rintro ⟨w, rfl⟩
      exact ⟨w, rest, hnext⟩
    · rintro ⟨b, v, rfl, hb⟩
      exact ⟨b, v, rest, hnext, hb⟩
  · exact ⟨rfl, rfl, .inl rfl, .inl ⟨rfl, rfl⟩⟩
  · exact absurd ⟨rest, he⟩ hreset

end Sys2Proof.Machine
end

section
/-! The key flows nowhere but through the core (R35, R205), and a command in progress completes within two Engine turns (R230). -/

namespace Sys2Proof.Machine

open Sys2Proof.Claims

/-! ## The key -/

/-- `s` with another key. -/
def State.withKey (k : Vector Word 8) (s : State) : State := { s with key := k }

/-- At `s` the function `f` sees nothing of the key: run with another key, it answers the same state but for the key. -/
def KeyBlind (f : State → Host.Outcome State Fault Refusal) (s : State) : Prop :=
  ∀ (t : State) (k : Vector Word 8), f s = .next t → ∃ k', f (s.withKey k) = .next (t.withKey k')

/-- The word at a place does not depend on the key: KEYj is write-only (R35, R68). -/
theorem readLoc_withKey (s : State) (k : Vector Word 8) (l : Loc) : readLoc (s.withKey k) l = readLoc s l := by
  cases l with
  | reg r => cases r <;> rfl
  | inBuf | outBuf | unmapped | outside => rfl

theorem arbitrate_withKey (w : Bool) (z : Size) (b : Addr) (s : State) (k : Vector Word 8) :
    arbitrate w z b (s.withKey k) = arbitrate w z b s := rfl

theorem busRead_withKey (z : Size) (b : Addr) (s : State) (k : Vector Word 8) :
    busRead z b (s.withKey k) = (busRead z b s).withKey k := by
  simp only [busRead, arbitrate_withKey, readLoc_withKey]
  split <;> rfl

/-- Another key at a register write is another key after it, and no more. -/
theorem writeReg_withKey (r : Reg) (v : Word) (s : State) (k : Vector Word 8) :
    ∃ k', writeReg r v (s.withKey k) = (writeReg r v s).withKey k' := by
  cases r with
  | key j => exact ⟨k.set j v, rfl⟩
  | id | cmd | status | irqEn | keyLen | nonceLen | inLen | outLen | nonce | bufSize | reserved => exact ⟨k, rfl⟩

/-- The accept of a command reads no operand (R101). -/
theorem issue_keyBlind (v : Word) {s : State} (hs : s.phase = .idle) : KeyBlind (issue v) s := by
  intro t k h
  refine ⟨k, ?_⟩
  by_cases hv : ∃ i, v = encode i
  · obtain ⟨i, rfl⟩ := hv
    rw [issue_encode] at h ⊢
    rcases exec_idle_cases h hs with ⟨rfl, rfl⟩ | ⟨op, rfl, rfl⟩
    · exact exec_nop_idle hs
    · exact exec_opInstr_idle op hs
  · rw [issue_of_ne_encode (not_exists.mp hv)] at h ⊢
    cases h
    rfl

theorem writeLoc_reg {r : Reg} (hr : r ≠ .cmd) (v : Word) (s : State) : writeLoc (.reg r) v s = .next (writeReg r v s) := by
  simp [writeLoc]

theorem writeLoc_keyBlind {l : Loc} (v : Word) {s : State} (hs : l = .reg .cmd → s.phase = .idle) : KeyBlind (writeLoc l v) s := by
  intro t k h
  cases l with
  | reg r =>
    by_cases hr : r = .cmd
    · subst hr
      exact issue_keyBlind v (hs rfl) t k h
    · rw [writeLoc_reg hr] at h
      cases h
      simpa only [writeLoc_reg hr, Host.Outcome.next.injEq] using writeReg_withKey r v s k
  | inBuf | outBuf | unmapped | outside =>
    cases h
    exact ⟨k, rfl⟩

theorem hostAccess_keyBlind (a : Access) (s : State) : KeyBlind (hostAccess a) s := by
  intro t k h
  cases a with
  | read z b =>
    cases h
    exact ⟨k, congrArg Host.Outcome.next (busRead_withKey z b s k)⟩
  | write z b v =>
    simp only [hostAccess, busWrite, arbitrate_withKey] at h ⊢
    cases ha : arbitrate true z b s with
    | granted l =>
      obtain ⟨-, -, -, -, -, hlock⟩ := arbitrate_granted ha
      have hs (hl : l = .reg .cmd) : s.phase = .idle := by
        by_contra hp
        simpa [hl, Loc.writeLocked, Reg.busyLocked] using hlock rfl (busy_eq_true.mpr hp)
      rw [ha] at h
      exact writeLoc_keyBlind v (s := s.respond .okayWrite) hs t k h
    | notDecoded | busError =>
      rw [ha] at h
      cases h
      exact ⟨k, rfl⟩

/-- A turn at a program is the transaction of its head, and what the Host makes of the response (R97). -/
theorem programTurn_of_program {s u : State} {op : HostOp} {p : List HostOp} (hp : s.program = op :: p)
    (hu : hostAccess op.tuple.access s = .next u) : programTurn s = .next (settle op p u) := by
  simp only [programTurn, hp, hu]

theorem programTurn_of_nil {s : State} (hp : s.program = []) : programTurn s = .next s := by
  simp only [programTurn, hp]

theorem programTurn_keyBlind (s : State) : KeyBlind programTurn s := by
  intro t k h
  rcases programTurn_cases h with ⟨hp, rfl⟩ | ⟨op, p, u, hp, hu, rfl⟩
  · exact ⟨k, programTurn_of_nil (s := t.withKey k) hp⟩
  · obtain ⟨k', hk'⟩ := hostAccess_keyBlind op.tuple.access s u k hu
    exact ⟨k', programTurn_of_program (s := s.withKey k) hp hk'⟩

/-- The check of ENCRYPT reads KEY_LEN and IN_LEN, and its errors zeroize the key (R131, R198). -/
theorem encryptCheck_withKey (p : Params) (s : State) (k : Vector Word 8) :
    ∃ k', encryptCheck p (s.withKey k) = (encryptCheck p s).withKey k' := by
  have herr (c : ErrCode) : completeErr .encrypt c (s.withKey k) = (completeErr .encrypt c s).withKey zeroKey := rfl
  by_cases hk : s.keyLen = 32#32
  · by_cases hl : encryptTooLong p s = true
    · rw [encryptCheck_tooLong hk hl, encryptCheck_tooLong (s := s.withKey k) hk hl]
      exact ⟨zeroKey, herr _⟩
    · have hfits : encryptTooLong p s = false := by simpa using hl
      rw [encryptCheck_pass hk hfits, encryptCheck_pass (s := s.withKey k) hk hfits]
      exact ⟨k, rfl⟩
  · rw [encryptCheck_badKeyLen hk, encryptCheck_badKeyLen (s := s.withKey k) hk]
    exact ⟨zeroKey, herr _⟩

/-- Of the Engine's turns those in WAIT_RNG and PENDING(DECRYPT) alone apply the core (R132, R151). -/
theorem engineTurn_keyBlind {s : State} (hs : ¬ (s.phase = .waitRng ∨ s.phase = .pending .decrypt)) : KeyBlind engineTurn s := by
  intro t k h
  rcases engineTurn_cases h with ⟨hp, rfl⟩ | ⟨hp, rfl⟩ | ⟨hp, -⟩ | ⟨hp, -⟩ | ⟨hp, rfl⟩
  · exact ⟨k, engineTurn_idle hp⟩
  · refine (encryptCheck_withKey Config.params s k).imp fun k' hk' => ?_
    rw [engineTurn_pending (s := s.withKey k) hp, opInstr, exec_encrypt_pending (s := s.withKey k) hp, hk']
  · exact absurd (.inl hp) hs
  · exact absurd (.inr hp) hs
  · exact ⟨zeroKey, (engineTurn_pending (s := s.withKey k) hp).trans (exec_zeroize_pending (s := s.withKey k) hp)⟩

/-- A scheduled step of any agent, but an Engine turn that applies the core. -/
theorem takeEvent_keyBlind {e : Event} {s : State} (hs : e = .engine → ¬ (s.phase = .waitRng ∨ s.phase = .pending .decrypt)) :
    KeyBlind (takeEvent e) s := by
  cases e with
  | host a => exact hostAccess_keyBlind a s
  | program => exact programTurn_keyBlind s
  | engine => exact engineTurn_keyBlind (hs rfl)
  | entropy | coreInit =>
    intro t k h
    cases h
    exact ⟨k, rfl⟩
  | reset =>
    intro t k h
    cases h
    exact ⟨State.reset.key, rfl⟩

theorem step_keyBlind {s : State} (hs : ¬ ((∃ rest, EngineNext s rest) ∧ (s.phase = .waitRng ∨ s.phase = .pending .decrypt))) :
    KeyBlind step s := by
  intro t k h
  cases he : s.events with
  | nil =>
    have hnext : EngineNext s [] := .inr ⟨he, rfl⟩
    rw [step_of_engineNext hnext] at h
    rw [step_of_engineNext (s := s.withKey k) hnext]
    exact engineTurn_keyBlind (s := s.withEvents []) (fun hp => hs ⟨⟨[], hnext⟩, hp⟩) t k h
  | cons e rest =>
    rw [step_of_events he] at h
    rw [step_of_events (s := s.withKey k) he]
    refine takeEvent_keyBlind (s := s.withEvents rest) (fun hengine hp => hs ⟨⟨rest, .inl ?_⟩, hp⟩) t k h
    rw [he, hengine]

/-! ## Runs of the machine -/

/-- A run takes its first steps, then the others. -/
theorem run_add (M : Host.Core) {m n : Nat} {s u : M.State} (h : M.run m s = .next u) : M.run (m + n) s = M.run n u := by
  induction m generalizing s with
  | zero =>
    cases h
    rw [Nat.zero_add]
  | succ m ih =>
    simp only [Host.Core.run, Nat.add_right_comm m 1 n] at h ⊢
    cases hs : M.step s with
    | next s' => rw [hs] at h; exact ih h
    | fault f => rw [hs] at h; cases h
    | refused r => rw [hs] at h; cases h

/-- `run_next` for the machine's own step. -/
theorem run_step {k : Nat} {s u : State} (h : step s = .next u) : Sys2Proof.core.run (k + 1) s = Sys2Proof.core.run k u :=
  run_next Sys2Proof.core h

/-! ## The Engine's turns until the completion -/

@[simp] theorem completeOk_events (S : List Byte) (s : State) : (completeOk S s).events = s.events := rfl

@[simp] theorem completeOk_program (S : List Byte) (s : State) : (completeOk S s).program = s.program := rfl

@[simp] theorem completeErr_events (op : Op) (c : ErrCode) (s : State) : (completeErr op c s).events = s.events := by
  rw [completeErr_eq]

@[simp] theorem completeErr_program (op : Op) (c : ErrCode) (s : State) : (completeErr op c s).program = s.program := by
  rw [completeErr_eq]

/-- The Engine leaves the schedule and the Host's program alone. -/
theorem engineTurn_frame {s t : State} (h : engineTurn s = .next t) : t.events = s.events ∧ t.program = s.program := by
  rcases engineTurn_cases h with ⟨-, rfl⟩ | ⟨-, rfl⟩ | ⟨-, rfl⟩ | ⟨-, rfl⟩ | ⟨-, rfl⟩
  · exact ⟨rfl, rfl⟩
  · rcases encryptCheck_cases Config.params s with ⟨c, -, heq⟩ | ⟨-, -, -, heq⟩ <;> simp [heq]
  · rcases encryptWait_cases Config.params s with ⟨-, heq⟩ | ⟨n, -, -, heq⟩ | ⟨n, -, -, heq⟩ <;>
      simp [heq, sealAndCommit_eq, loadSeal]
  · rcases decryptStep_cases Config.params s with ⟨c, -, -, heq⟩ | ⟨-, -, -, -, -, -, -, heq⟩ <;> simp [heq]
  · exact ⟨rfl, rfl⟩

/-- An Engine turn that leaves a busy phase for IDLE is a completion, and sets DONE (R196, R197). -/
theorem engineTurn_done {s t : State} (h : engineTurn s = .next t) (hs : s.phase ≠ .idle) (ht : t.phase = .idle) : t.done = true := by
  have hcompletes : ∃ i, Completes i s t := by
    cases hp : s.phase with
    | idle => exact absurd hp hs
    | pending op => exact ⟨opInstr op, (engineTurn_pending hp).symm.trans h, hs, ht⟩
    | waitRng => exact ⟨.encrypt, (engineTurn_waitRng hp).symm.trans h, hs, ht⟩
  obtain ⟨i, hi⟩ := hcompletes
  obtain ⟨c, -, hdone, -⟩ := completes_status hi
  exact hdone

/-- In WAIT_RNG with a value offered the Engine's turn is the last one (R132). -/
theorem engineTurn_waitRng_ends {s t : State} (h : engineTurn s = .next t) (hp : s.phase = .waitRng)
    (hoffer : s.entropyOffer.isSome = true) : t.phase = .idle := by
  obtain rfl : encryptWait Config.params s = t :=
    Host.Outcome.next.inj ((exec_encrypt_waitRng hp).symm.trans ((engineTurn_waitRng hp).symm.trans h))
  rcases encryptWait_cases Config.params s with ⟨hn, -⟩ | ⟨n, -, -, heq⟩ | ⟨n, -, -, heq⟩
  · simp [hn] at hoffer
  · rw [heq]; rfl
  · rw [heq]; rfl

/-- The first Engine turn of a command completes it, or is the passed check of ENCRYPT (R131). -/
theorem engineTurn_pending_cases {s t : State} {op : Op} (h : engineTurn s = .next t) (hp : s.phase = .pending op) :
    t.phase = .idle ∨ (op = .encrypt ∧ t = s.setPhase .waitRng) := by
  rcases engineTurn_cases h with ⟨hs, -⟩ | ⟨hs, rfl⟩ | ⟨hs, -⟩ | ⟨-, rfl⟩ | ⟨-, rfl⟩
  · cases hp.symm.trans hs
  · obtain rfl : op = .encrypt := Phase.pending.inj (hp.symm.trans hs)
    rcases encryptCheck_cases Config.params s with ⟨c, -, heq⟩ | ⟨-, -, -, heq⟩
    · exact .inl (by rw [heq, completeErr_phase])
    · exact .inr ⟨rfl, heq⟩
  · cases hp.symm.trans hs
  · exact .inl (decryptStep_phase _ s)
  · exact .inl rfl

/-- Two steps of the Engine from PENDING, for ENCRYPT with a value offered, end the command with DONE = 1 (R230). -/
theorem run_engine_twice {s : State} {op : Op} {rest₁ rest₂ : List Event} (hp : s.phase = .pending op)
    (hoffer : op = .encrypt → s.entropyOffer.isSome = true) (hfirst : EngineNext s rest₁)
    (hsecond : ∀ u : State, u.events = rest₁ → EngineNext u rest₂) :
    ∃ t, Sys2Proof.core.run 2 s = .next t ∧ t.events = rest₂ ∧ t.program = s.program ∧ t.phase = .idle ∧ t.done = true := by
  have hrun {u t : State} (hu : step s = .next u) (ht : step u = .next t) : Sys2Proof.core.run 2 s = .next t :=
    (run_step hu).trans (run_step ht)
  obtain ⟨u, hu⟩ := engineTurn_next (s.withEvents rest₁)
  obtain ⟨hevents, hprogram⟩ := engineTurn_frame hu
  have hnext := hsecond u hevents
  have hsu : step s = .next u := (step_of_engineNext hfirst).trans hu
  rcases engineTurn_pending_cases (s := s.withEvents rest₁) hu hp with hidle | ⟨rfl, rfl⟩
  · have hdone := engineTurn_done hu (by simp [hp]) hidle
    have hstay : step u = .next (u.withEvents rest₂) := (step_of_engineNext hnext).trans (engineTurn_idle hidle)
    exact ⟨u.withEvents rest₂, hrun hsu hstay, rfl, hprogram, hidle, hdone⟩
  · obtain ⟨t, ht⟩ := engineTurn_next (((s.withEvents rest₁).setPhase .waitRng).withEvents rest₂)
    obtain ⟨hevents', hprogram'⟩ := engineTurn_frame ht
    have hidle := engineTurn_waitRng_ends ht rfl (hoffer rfl)
    exact ⟨t, hrun hsu ((step_of_engineNext hnext).trans ht), hevents', hprogram', hidle, engineTurn_done ht nofun hidle⟩

/-! ## WAITDONE -/

/-- A turn at WAITDONE while DONE is 0 reads STATUS, and the POLL stays (R98). -/
theorem step_waitDone_stays {s : State} {p : List HostOp} {rest : List Event} (hp : s.program = Pseudo.expand .waitDone ++ p)
    (he : s.events = .program :: rest) (hd : s.done = false) :
    step s = .next ((s.withEvents rest).respond (.okayRead s.statusWord)) := by
  rw [step_of_events he, takeEvent, programTurn_waitDone (s := s.withEvents rest) hp, if_neg (by simp [hd])]
  rfl

/-- A turn at WAITDONE when DONE is 1 ends it (R98). -/
theorem step_waitDone_ends {s : State} {p : List HostOp} {rest : List Event} (hp : s.program = Pseudo.expand .waitDone ++ p)
    (he : s.events = .program :: rest) (hd : s.done = true) :
    step s = .next { (s.withEvents rest).respond (.okayRead s.statusWord) with program := p } := by
  rw [step_of_events he, takeEvent, programTurn_waitDone (s := s.withEvents rest) hp, if_pos (by simp [hd])]
  rfl

/-- While DONE is 0 any number of turns at WAITDONE changes nothing but the schedule and the response. -/
theorem run_waitDone_stays {s : State} (p : List HostOp) (n : Nat) (rest : List Event) (hd : s.done = false) :
    ∃ r, Sys2Proof.core.run n (running s (Pseudo.expand .waitDone ++ p) n rest) =
      .next { running s (Pseudo.expand .waitDone ++ p) 0 rest with busResp := r } := by
  induction n generalizing s with
  | zero => exact ⟨s.busResp, rfl⟩
  | succ n ih =>
    have hstep : step (running s (Pseudo.expand .waitDone ++ p) (n + 1) rest) =
        .next (running (s.respond (.okayRead s.statusWord)) (Pseudo.expand .waitDone ++ p) n rest) :=
      step_waitDone_stays rfl rfl hd
    obtain ⟨r, hr⟩ := ih (s := s.respond (.okayRead s.statusWord)) hd
    exact ⟨r, (run_step hstep).trans hr⟩

/-! ## The obligations -/

/-- Settles O55: no agent's step sees the key, but the Engine's turns that apply the core. -/
theorem keyFlowsOnlyThroughTheCore : Obligations.KeyFlowsOnlyThroughTheCore := fun _ t k h hs => step_keyBlind hs t k h

/-- Settles O32: with an empty schedule both steps are the Engine's. -/
theorem commandsCompleteWithinTwoTurns : Obligations.CommandsCompleteWithinTwoTurns := by
  intro s op hp he hoffer
  obtain ⟨t, hrun, -, -, hidle, hdone⟩ := run_engine_twice hp hoffer (.inr ⟨he, rfl⟩) fun u hu => .inr ⟨hu, rfl⟩
  exact ⟨t, hrun, hidle, hdone⟩

/-- Settles O48: DONE is 0 while the command is in progress, and 1 after two Engine turns. -/
theorem waitDoneEndsAtTheCompletion : Obligations.WaitDoneEndsAtTheCompletion := by
  intro s op p rest hinv hp hoffer
  refine ⟨fun n => ?_, ?_⟩
  · obtain ⟨r, hr⟩ := run_waitDone_stays p n rest (hinv.done_eq_false (by simp [hp]))
    exact ⟨_, hr, rfl, hp⟩
  · obtain ⟨u, hrun, hevents, hprogram, hidle, hdone⟩ :=
      run_engine_twice (s := running s (Pseudo.expand .waitDone ++ p) 0 (.engine :: .engine :: .program :: rest)) hp hoffer
        (.inl rfl) fun u hu => .inl hu
    have hlast := step_waitDone_ends hprogram hevents hdone
    exact ⟨_, (run_add Sys2Proof.core hrun).trans (run_step (k := 0) hlast), rfl, hdone, hidle⟩

end Sys2Proof.Machine
end

section
/-! Cryptographic consequences of the command steps: distinct draws give distinct nonces (R133), one-bit changes are rejected (R165), and an
error tells its code alone (R158, R199). -/

namespace Sys2Proof.Machine

open Sys2Proof.Claims

/-! ## The nonce words -/

/-- The words of a nonce determine it: its bytes are read back from them (R66). -/
theorem nonceWords_injective : Function.Injective nonceWords := by
  intro n n' h
  have hread : ({ State.reset with nonce := nonceWords n } : State).nonceBytes = n := nonceBytes_of_nonceWords rfl
  rw [← hread]
  exact nonceBytes_of_nonceWords h

/-! ## One-bit changes of an input that would verify -/

/-- A flipped bit is a change. -/
theorem xor_bit_ne (b : Byte) {j : Nat} (hj : j < 8) : b ^^^ (1#8 <<< j) ≠ b := by
  have hbit : ∀ j : Fin 8, (1#8 <<< j.val : Byte) ≠ 0#8 := by decide
  exact fun h => hbit ⟨j, hj⟩ (by simpa using h)

/-- A write past a slice leaves it as it was. -/
theorem Memory.slice_write_of_le {m : Memory} {lo len a : Nat} (b : Byte) (h : lo + len ≤ a) :
    (m.write a b).slice lo len = m.slice lo len := by
  refine List.map_congr_left fun i hi => Memory.read_write_of_ne b ?_
  have := List.mem_range.mp hi
  omega

/-- A DECRYPT step that gets to the tags and finds them different fails, under every parameter set (R157, R162). -/
theorem decryptStep_reject {p : Params} {s : State} (hk : s.keyLen = 32#32) (hn : s.nonceLen = 12#32) (h16 : 16 ≤ s.inLen.toNat)
    (hbuf : s.inLen.toNat ≤ s.bufBytes) (hmax : s.inLen.toNat - 16 ≤ p.coreMaxPt) (hv : coreInitDraw p s = .ok)
    (ht : tagFor p.core s.keyBytes s.nonceBytes s.body ≠ s.receivedTag) : decryptStep p s = authFailEnd s := by
  have hfits : decryptTooLong p s = false := by
    rw [← Bool.not_eq_true, decryptTooLong_iff]
    omega
  rw [decryptStep, decryptChecks_verify hk hn hfits h16 hv, verifyTag_eq, if_neg ht, completeErr_eq_errorEnd _ (by decide)]
  rfl

/-! ## What an error tells -/

/-- The end of the command `op` with the error code `c`: the seal step's failure alone (code 4) consumes the Entropy offer (R132, R197).
ZEROIZE has no error. -/
def errorStep : Op → BitVec 4 → State → State
  | .encrypt, c, s => if c = 4#4 then sealFailEnd s else errorEnd .encrypt c s
  | .decrypt, c, s => tagsClear (errorEnd .decrypt c s)
  | .zeroize, _, s => zeroizeStep s

theorem opInstr_injective : Function.Injective opInstr := by
  intro op op' h
  cases op with
  | encrypt => cases op' with
    | encrypt => rfl
    | decrypt | zeroize => cases h
  | decrypt => cases op' with
    | decrypt => rfl
    | encrypt | zeroize => cases h
  | zeroize => cases op' with
    | zeroize => rfl
    | encrypt | decrypt => cases h

theorem completes_encrypt_error_eq {s t : State} (h : Completes .encrypt s t) (he : t.error = true) :
    t = errorStep .encrypt t.errCode s := by
  rcases completes_encrypt_cases h with ⟨-, -, rfl⟩ | ⟨-, -, -, rfl⟩ | ⟨n, -, -, -, rfl⟩ | ⟨n, -, -, -, rfl⟩
  · rfl
  · rfl
  · rfl
  · cases he

/-- An erroneous completion is determined by its command, its code and the state it started from. -/
theorem completes_error_eq {i : Instr} {s t : State} (h : Completes i s t) (he : t.error = true) :
    ∃ op, i = opInstr op ∧ t = errorStep op t.errCode s := by
  rcases completes_cases h with ⟨rfl, -, -⟩ | ⟨rfl, -, -⟩ | ⟨rfl, -, rfl⟩ | ⟨rfl, -, rfl⟩
  · exact ⟨.encrypt, rfl, completes_encrypt_error_eq h he⟩
  · exact ⟨.encrypt, rfl, completes_encrypt_error_eq h he⟩
  · refine ⟨.decrypt, rfl, ?_⟩
    rcases decryptStep_cases Config.params s with ⟨c, hc, -, heq⟩ | ⟨-, -, -, -, -, -, -, heq⟩
    · rw [heq, completeErr_eq_errorEnd _ hc]; rfl
    · simp [heq, completeOk_eq] at he
  · exact ⟨.zeroize, rfl, rfl⟩

/-- An erroneous end overwrites the operands, so it does not depend on them (R198). -/
theorem errorStep_sameButOperands {s₁ s₂ : State} (h : SameButOperands s₁ s₂) (op : Op) (c : BitVec 4) :
    errorStep op c s₂ = errorStep op c s₁ := by
  rw [h]
  cases op with
  | encrypt => exact ite_congr rfl (fun _ => rfl) fun _ => rfl
  | decrypt | zeroize => rfl

/-! ## The obligations -/

/-- Settles O15: each seal returns its draw, and the words of a nonce determine it. -/
theorem freshDrawsGiveDistinctNonces : Obligations.FreshDrawsGiveDistinctNonces := by
  intro h hfresh hready
  refine ⟨h.map fun x => sealEnd x.2 x.1, ?_, ?_⟩
  · rw [List.forall₂_map_right_iff, List.forall₂_same]
    intro x hx
    obtain ⟨⟨hp, hn, -⟩, hv⟩ := hready x hx
    exact exec_encrypt_sealOk hp hn hv
  · have hnonces : (h.map fun x => sealEnd x.2 x.1).map State.nonce = (h.map Prod.snd).map nonceWords := by
      rw [List.map_map, List.map_map]; rfl
    rw [hnonces]
    exact List.Nodup.map nonceWords_injective hfresh

/-- Settles O24: the flip leaves the body, and with it the tag, and changes byte `t` of the received tag. -/
theorem tagBitFlipIsAlwaysRejected : Obligations.TagBitFlipIsAlwaysRejected := by
  intro s t j hready hwf hv htag ht hj a
  have ⟨_, _, _, h16, _⟩ := hready
  refine exec_decrypt_reject (s := { s with inBuf := s.inBuf.write a (s.inBuf.read a ^^^ (1#8 <<< j)) }) hready hv fun heq => ?_
  have hbody : (s.inBuf.write a (s.inBuf.read a ^^^ (1#8 <<< j))).slice 0 (s.inLen.toNat - 16) = s.body :=
    Memory.slice_write_of_le _ (by omega)
  have hsame : s.receivedTag = ({ s with inBuf := s.inBuf.write a (s.inBuf.read a ^^^ (1#8 <<< j)) } : State).receivedTag := by
    rw [← htag, ← heq, ← hbody]; rfl
  have hbyte := congrArg (fun T : Tag => T[t]) hsame
  simp only [State.receivedTag, getElem_bytesOfFn] at hbyte
  rw [Memory.read_write_same _ _ hwf] at hbyte
  exact xor_bit_ne _ hj hbyte.symm

/-- Settles O25: the named property makes the tags differ, and different tags are rejected. -/
theorem sensitiveCoresRejectOneBitChanges : Obligations.SensitiveCoresRejectOneBitChanges := by
  refine ⟨fun _ => rfl, fun p s s' hp hk hn h16 hbuf hmax htag hs' hrx hv hchange => ?_⟩
  have hlen : s'.inLen = s.inLen := by rw [hs']
  have hbytes : s'.bufBytes = s.bufBytes := by rw [hs']
  have hphase : s'.phase = .pending .decrypt := by rw [hs']; exact hp
  have hdiffer : tagFor p.core s'.keyBytes s'.nonceBytes s'.body ≠ s'.receivedTag := by
    rw [hrx, ← htag]
    rcases hchange with ⟨hsens, hflip, hnonce, hkey⟩ | ⟨hsens, hbody, hflip, hkey⟩ | ⟨hsens, hbody, hnonce, hflip⟩
    · rw [keyBytes_congr hkey, nonceBytes_congr hnonce]; exact hsens _ _ hflip
    · rw [keyBytes_congr hkey, hbody]; exact hsens _ _ hflip
    · rw [nonceBytes_congr hnonce, hbody]; exact hsens _ _ hflip
  have hreject : decryptStep p s' = authFailEnd s' :=
    decryptStep_reject (by rw [hs']; exact hk) (by rw [hs']; exact hn) (by rw [hlen]; exact h16)
      (by rw [hlen, hbytes]; exact hbuf) (by rw [hlen]; exact hmax) hv hdiffer
  rw [decryptCommand, hphase]
  exact hreject.trans (by rw [hs']; rfl)

/-- Settles O26: an erroneous end is a function of command, code and start, and overwrites the operands. -/
theorem errorsRevealOnlyTheirCode : Obligations.ErrorsRevealOnlyTheirCode := by
  intro i s₁ s₂ t₁ t₂ hsame h₁ h₂ he₁ he₂ hcode
  obtain ⟨op, hop, ht₁⟩ := completes_error_eq h₁ he₁
  obtain ⟨op', hop', ht₂⟩ := completes_error_eq h₂ he₂
  obtain rfl : op = op' := opInstr_injective (hop.symm.trans hop')
  rw [ht₁, ht₂, ← hcode, errorStep_sameButOperands hsame]

end Sys2Proof.Machine
end

section
/-! The bus and the Host's programs: what each word write does (R69, R71), the byte order of the key and the nonce (R66), one turn of the
Host at its program (R97), and the loads of key, nonce and input as runs (R98). -/

namespace Sys2Proof.Machine

open Sys2Proof.Claims

/-! ## Word writes by the place they address -/

/-- A word write to a register that no lock covers has its effect and gets OKAY (R69). -/
theorem hostAccess_write_reg {s : State} {a : Nat} {r : Reg} (v : Word) (ha : a < 0x100) (h4 : a % 4 = 0) (hr : regAt a = r)
    (hc : r ≠ .cmd) (hk : s.phase ≠ .idle → r.busyLocked = false) :
    hostAccess (.write .word (BitVec.ofNat 18 a) v) s = .next (writeReg r v (s.respond .okayWrite)) := by
  have hnat : (BitVec.ofNat 18 a).toNat = a := by simp; omega
  have hl : locate s.bufBytes (BitVec.ofNat 18 a).toNat = .reg r := by rw [hnat, locate_of_lt ha, hr]
  rw [hostAccess_write_granted hl (by rw [hnat]; exact h4) (by simp) (by simp) hk, writeLoc_reg hc]

/-- A word write to IN, when no command is in progress (R69). -/
theorem hostAccess_write_in {s : State} {o : Nat} (v : Word) (hmax : s.bufBytes ≤ 65520) (hs : s.phase = .idle) (h4 : o % 4 = 0)
    (ho : o < s.bufBytes) : hostAccess (.write .word (BitVec.ofNat 18 (0x10000 + o)) v) s =
      .next { s.respond .okayWrite with inBuf := s.inBuf.writeWord o v } := by
  have hnat : (BitVec.ofNat 18 (0x10000 + o)).toNat = 0x10000 + o := by simp; omega
  have hl : locate s.bufBytes (BitVec.ofNat 18 (0x10000 + o)).toNat = .inBuf o := by rw [hnat, locate_in ho]
  rw [hostAccess_write_granted hl (by rw [hnat]; omega) (by simp) (by simp) fun hp => absurd hs hp]
  rfl

theorem writeDoes_reg {s : State} {a : Nat} {r : Reg} (v : Word) (ha : a < 0x100) (h4 : a % 4 = 0) (hr : regAt a = r)
    (hc : r ≠ .cmd) (hk : s.phase ≠ .idle → r.busyLocked = false) : WriteDoes s a v (writeReg r v) := fun rest =>
  hostAccess_write_reg (s := scheduled s rest) v ha h4 hr hc hk

/-- A write to OUT is ignored (R69). -/
theorem writeDoes_out {s : State} {o : Nat} (v : Word) (hmax : s.bufBytes ≤ 65520) (h4 : o % 4 = 0) (ho : o < s.bufBytes + 16) :
    WriteDoes s (0x20000 + o) v id := fun rest =>
  hostAccess_write_unlocked (s := scheduled s rest) (l := .outBuf o) v (by omega) (by omega) (locate_out hmax ho) (by simp) (by simp)
    rfl

/-- The acknowledgement clears DONE when bit 1 is written as 1, and does nothing otherwise (R25, R29). -/
theorem ackDone_eq_ite (v : Word) : State.ackDone v = fun u => if v.getLsbD 1 = true then { u with done := false } else u := by
  funext u
  unfold State.ackDone
  cases v.getLsbD 1 <;> simp

/-- The locked offsets lie below the end of the window (R61). -/
theorem lockedOffset_lt {buf a : Nat} (hb : buf ≤ 65520) (h : LockedOffset buf a) : a < 0x30000 := by
  unfold LockedOffset at h; omega

/-- While a command is in progress IN and OUT read as 0 (R71). -/
theorem readLoc_buffer_busy {s : State} {l : Loc} (hs : s.phase ≠ .idle) (hl : (∃ o, l = .inBuf o) ∨ ∃ o, l = .outBuf o) :
    readLoc s l = 0#32 := by
  rcases hl with ⟨o, rfl⟩ | ⟨o, rfl⟩ <;> exact if_pos (busy_eq_true.mpr hs)

/-! ## Byte order -/

theorem getElem?_toList_bytesOfFn {n t : Nat} (f : Nat → Byte) (ht : t < n) : (bytesOfFn n f).toList[t]? = some (f t) := by
  simp [ht]

/-- Byte `4j + i` of a group of words is byte `i` of word `j` (R66). -/
theorem groupByte_toList {m i : Nat} (ws : Vector Word m) (j : Fin m) (hi : i < 4) :
    groupByte ws.toList (4 * j + i) = byteOf ws[j] i := by
  have hword : (4 * j.val + i) / 4 = j := by omega
  have hbyte : (4 * j.val + i) % 4 = i := by omega
  simp [groupByte, hword, hbyte]

/-- `byte(w_j(s), i) = s[4j + i]`, zero beyond the string (R98). -/
theorem byteOf_wordAt (bs : List Byte) (j : Nat) {i : Nat} (hi : i < 4) : byteOf (wordAt bs j) i = bs.getD (4 * j + i) 0#8 := by
  interval_cases i <;> simp [wordAt]

/-- The bytes of a group of words that hold a byte string are that string (R66, R98). -/
theorem toList_bytesOfFn_groupByte {m : Nat} {ws : Vector Word m} {bs : List Byte} (hlen : bs.length = 4 * m)
    (hws : ∀ j : Fin m, ws[j] = wordAt bs j) : (bytesOfFn (4 * m) (groupByte ws.toList)).toList = bs := by
  refine List.ext_getElem? fun t => ?_
  by_cases ht : t < 4 * m
  · have hsplit : groupByte ws.toList t = groupByte ws.toList (4 * (t / 4) + t % 4) := by rw [Nat.div_add_mod]
    rw [getElem?_toList_bytesOfFn _ ht, hsplit, groupByte_toList ws ⟨t / 4, by omega⟩ (Nat.mod_lt t (by decide)), hws,
      byteOf_wordAt _ _ (Nat.mod_lt t (by decide))]
    simp [Nat.div_add_mod, show t < bs.length by omega]
  · rw [List.getElem?_eq_none (by simpa using ht), List.getElem?_eq_none (by omega)]

/-! ## One turn of the Host at its program -/

/-- The Host's turn at a program is the transaction of its head, made of the same state, and what the Host makes of the response `r`
(R97, log entry 13). -/
theorem step_running {s t : State} {op : HostOp} {r : Response} {rest : List Event} (p : List HostOp)
    (h : hostAccess op.tuple.access (scheduled s rest) = .next t) (hr : t.busResp = some r) :
    step (running s (op :: p) 1 rest) = .next { t with
      program := op.remaining (responseData op.tuple.access r) p
      bound := op.bind (responseData op.tuple.access r) t.bound
      asExpected := s.asExpected && op.tuple.meets r } := by
  have hturn : step (running s (op :: p) 1 rest) = .next (settle op p { t with program := op :: p }) :=
    programTurn_of_program (s := running s (op :: p) 0 rest) rfl (hostAccess_withProgram (op :: p) h)
  have ⟨_, _, hexp, _⟩ := hostAccess_frame h
  rw [hturn, settle, hr, hexp]
  rfl

theorem meets_wr (off : Addr) (val : Word) (r : Response) : (HostOp.wr off val).tuple.meets r = (r == .okayWrite) := by
  cases r <;> rfl

theorem meets_wrx (off : Addr) (val : Word) (r : Response) : (HostOp.wrx off val).tuple.meets r = (r == .slverr) := by
  cases r <;> rfl

/-- A read that gives data gets its expected response exactly when that is OKAY with the data (R70, R99). -/
theorem meets_read_of_data {off : Addr} {r : Response} {data : Word} (h : responseData (.read .word off) r = some data) :
    Transaction.meets ⟨.R, off, none, .okay⟩ r = (r == .okayRead data) := by
  cases r with
  | okayRead v =>
    obtain rfl : v = data := Option.some.inj h
    exact (beq_self_eq_true _).symm
  | okayWrite | slverr | notDecoded => rfl

/-- A read that gives no data does not get its expected response (log entry 13). -/
theorem meets_read_of_no_data {off : Addr} {r : Response} (h : responseData (.read .word off) r = none) :
    Transaction.meets ⟨.R, off, none, .okay⟩ r = false := by
  cases r with
  | okayRead | slverr => cases h
  | okayWrite | notDecoded => rfl

section
variable {s t : State} {p : List HostOp} {rest : List Event} {off : Addr} {r : Response}

section
variable {val : Word} (h : hostAccess (.write .word off val) (scheduled s rest) = .next t) (hr : t.busResp = some r)
include h hr

theorem step_running_wr : step (running s (.wr off val :: p) 1 rest) =
    .next { t with program := p, asExpected := s.asExpected && r == .okayWrite } := by
  rw [step_running (op := .wr off val) p h hr, meets_wr]
  rfl

theorem step_running_wrx : step (running s (.wrx off val :: p) 1 rest) =
    .next { t with program := p, asExpected := s.asExpected && r == .slverr } := by
  rw [step_running (op := .wrx off val) p h hr, meets_wrx]
  rfl

end

section
variable {data : Word} (h : hostAccess (.read .word off) (scheduled s rest) = .next t) (hr : t.busResp = some r)
include h hr

theorem step_running_rd (name : String) (hd : responseData (.read .word off) r = some data) :
    step (running s (.rd off name :: p) 1 rest) = .next { t with
      program := p, bound := (name, data) :: s.bound, asExpected := s.asExpected && r == .okayRead data } := by
  have ⟨_, hbound, _⟩ := hostAccess_frame h
  rw [step_running (op := .rd off name) p h hr, hbound]
  simp only [HostOp.tuple, Transaction.access, hd, meets_read_of_data hd]
  rfl

theorem step_running_poll (mask val : Word) (hd : responseData (.read .word off) r = some data) :
    step (running s (.poll off mask val :: p) 1 rest) = .next { t with
      program := if data &&& mask = val then p else .poll off mask val :: p
      asExpected := s.asExpected && r == .okayRead data } := by
  rw [step_running (op := .poll off mask val) p h hr]
  simp only [HostOp.tuple, Transaction.access, hd, meets_read_of_data hd, HostOp.remaining, HostOp.bind, Option.any_some, pollHolds_iff]

theorem step_running_rd_no_data (name : String) (hd : responseData (.read .word off) r = none) :
    step (running s (.rd off name :: p) 1 rest) = .next { t with program := p, asExpected := false } := by
  rw [step_running (op := .rd off name) p h hr]
  simp only [HostOp.tuple, Transaction.access, hd, meets_read_of_no_data hd, Bool.and_false]
  rfl

theorem step_running_poll_no_data (mask val : Word) (hd : responseData (.read .word off) r = none) :
    step (running s (.poll off mask val :: p) 1 rest) =
      .next { t with program := .poll off mask val :: p, asExpected := false } := by
  rw [step_running (op := .poll off mask val) p h hr]
  simp only [HostOp.tuple, Transaction.access, hd, meets_read_of_no_data hd, Bool.and_false]
  rfl

end

end

/-! ## Runs of a program of writes -/

/-- A word write of `v` to `off` turns `s` into `t` and gets OKAY, whatever the schedule and the last response are. -/
def Writes (s : State) (off : Addr) (v : Word) (t : State) : Prop :=
  ∀ (es : List Event) (r : Option Response), hostAccess (.write .word off v) { s with events := es, busResp := r } =
    .next { t with events := es, busResp := some .okayWrite }

theorem writes_reg {s : State} {a : Nat} {r : Reg} (v : Word) (ha : a < 0x100) (h4 : a % 4 = 0) (hr : regAt a = r) (hc : r ≠ .cmd)
    (hs : s.phase = .idle) : Writes s (BitVec.ofNat 18 a) v (writeReg r v s) := by
  intro es resp
  refine (hostAccess_write_reg (s := { s with events := es, busResp := resp }) v ha h4 hr hc fun hp => absurd hs hp).trans ?_
  cases r <;> rfl

theorem writes_in {s : State} {o : Nat} (v : Word) (hmax : s.bufBytes ≤ 65520) (hs : s.phase = .idle) (h4 : o % 4 = 0)
    (ho : o < s.bufBytes) : Writes s (BitVec.ofNat 18 (0x10000 + o)) v { s with inBuf := s.inBuf.writeWord o v } := fun es r =>
  hostAccess_write_in (s := { s with events := es, busResp := r }) v hmax hs h4 ho

/-- The last response after the writes `ops`, all of them answered OKAY. -/
def respAfter (ops : List HostOp) (r : Option Response) : Option Response := if ops = [] then r else some .okayWrite

theorem respAfter_append (ops ops' : List HostOp) (r : Option Response) :
    respAfter ops' (respAfter ops r) = respAfter (ops ++ ops') r := by
  cases ops <;> cases ops' <;> simp [respAfter]

/-- The Host's turns at `ops`, each a write that is answered OKAY, turn `s` into `t`, whatever stands after them in the program and in
the schedule. -/
def Loads (s : State) (ops : List HostOp) (t : State) : Prop :=
  ∀ (p : List HostOp) (rest : List Event) (r : Option Response),
    Sys2Proof.core.run ops.length (running { s with busResp := r } (ops ++ p) ops.length rest) =
      .next { t with program := p, events := rest, busResp := respAfter ops r }

theorem Loads.nil (s : State) : Loads s [] s := fun _ _ _ => rfl

/-- The turns at a program's first part, then those at the rest of it. -/
theorem running_append (s : State) (p : List HostOp) (m n : Nat) (rest : List Event) :
    running s p (m + n) rest = running s p m (List.replicate n .program ++ rest) := by
  rw [running, List.replicate_add, List.append_assoc]; rfl

theorem Loads.append {s t u : State} {ops ops' : List HostOp} (h : Loads s ops t) (h' : Loads t ops' u) :
    Loads s (ops ++ ops') u := by
  intro p rest r
  rw [List.length_append, List.append_assoc, running_append, ← respAfter_append]
  exact (run_add Sys2Proof.core (h _ _ _)).trans (h' p rest (respAfter ops r))

theorem Writes.loads {s t : State} {off : Addr} {v : Word} (h : Writes s off v t) : Loads s [.wr off v] t := by
  intro p rest r
  have ⟨_, _, hexp, _⟩ := hostAccess_frame (h rest r)
  have hstep : step (running { s with busResp := r } (.wr off v :: p) 1 rest) =
      .next { t with program := p, events := rest, busResp := some .okayWrite } := by
    rw [step_running (op := .wr off v) (s := { s with busResp := r }) p (h rest r) rfl, meets_wr]
    simpa [HostOp.remaining, HostOp.bind] using hexp.symm
  exact run_step (k := 0) hstep

/-- A group of words is loaded word by word (R98). -/
theorem loads_writeWords {S : Nat → State} {base : Nat} {bs : List Byte} (n : Nat)
    (h : ∀ j, j < n → Writes (S j) (wordOff base j) (wordAt bs j) (S (j + 1))) : Loads (S 0) (writeWords base n bs) (S n) := by
  induction n with
  | zero => exact Loads.nil (S 0)
  | succ n ih =>
    have hsplit : writeWords base (n + 1) bs = writeWords base n bs ++ [.wr (wordOff base n) (wordAt bs n)] := by
      simp [writeWords, List.range_succ]
    rw [hsplit]
    exact (ih fun j hj => h j (by omega)).append (h n (by omega)).loads

/-- A load of at least one word, run from a state as it is. -/
theorem Loads.run {s t : State} {ops : List HostOp} {n : Nat} (h : Loads s ops t) (hn : ops.length = n + 1) (p : List HostOp)
    (rest : List Event) : Sys2Proof.core.run (n + 1) (running s (ops ++ p) (n + 1) rest) =
      .next { served t rest .okayWrite with program := p } := by
  have hne : ops ≠ [] := by rintro rfl; cases hn
  have hrun := h p rest s.busResp
  rw [respAfter, if_neg hne, hn] at hrun
  exact hrun

/-! ## The words of a group, loaded one after the other -/

/-- `xs` with its first `n` words taken from `w`. -/
def overwrite {m : Nat} (xs : Vector Word m) (w : Nat → Word) (n : Nat) : Vector Word m :=
  Vector.ofFn fun i => if i.val < n then w i else xs[i]

@[simp] theorem getElem_overwrite {m : Nat} (xs : Vector Word m) (w : Nat → Word) (n i : Nat) (hi : i < m) :
    (overwrite xs w n)[i] = if i < n then w i else xs[i] := by
  simp [overwrite]

theorem overwrite_zero {m : Nat} (xs : Vector Word m) (w : Nat → Word) : overwrite xs w 0 = xs :=
  Vector.ext fun i hi => by simp

theorem overwrite_succ {m : Nat} (xs : Vector Word m) (w : Nat → Word) {n : Nat} (hn : n < m) :
    (overwrite xs w n).set n (w n) = overwrite xs w (n + 1) := by
  refine Vector.ext fun i hi => ?_
  rw [Vector.getElem_set, getElem_overwrite, getElem_overwrite]
  by_cases hin : n = i
  · rw [if_pos hin, if_pos (by omega), hin]
  · have hlt : i < n + 1 ↔ i < n := by omega
    rw [if_neg hin, if_congr hlt rfl rfl]

theorem loads_loadKey {s : State} (hs : s.phase = .idle) (k : List Byte) :
    Loads s (Pseudo.expand (.loadKey k)) { s with key := overwrite s.key (wordAt k) 8, keyLen := 32#32 } := by
  have hwords : Loads { s with key := overwrite s.key (wordAt k) 0 } (writeWords 0x020 8 k)
      { s with key := overwrite s.key (wordAt k) 8 } :=
    loads_writeWords (S := fun j => { s with key := overwrite s.key (wordAt k) j }) 8 fun j hj => by
      rw [← overwrite_succ _ _ hj]
      exact writes_reg (r := .key ⟨j, hj⟩) _ (by omega) (by omega) (regAt_key ⟨j, hj⟩) (by simp) hs
  rw [overwrite_zero] at hwords
  refine hwords.append (Writes.loads ?_)
  exact writes_reg (a := 0x010) (r := .keyLen) _ (by decide) (by decide) rfl (by decide) hs

theorem loads_loadNonce {s : State} (hs : s.phase = .idle) (n : List Byte) :
    Loads s (Pseudo.expand (.loadNonce n)) { s with nonce := overwrite s.nonce (wordAt n) 3, nonceLen := 12#32 } := by
  have hwords : Loads { s with nonce := overwrite s.nonce (wordAt n) 0 } (writeWords 0x040 3 n)
      { s with nonce := overwrite s.nonce (wordAt n) 3 } :=
    loads_writeWords (S := fun j => { s with nonce := overwrite s.nonce (wordAt n) j }) 3 fun j hj => by
      rw [← overwrite_succ _ _ hj]
      exact writes_reg (r := .nonce ⟨j, hj⟩) _ (by omega) (by omega) (regAt_nonce ⟨j, hj⟩) (by simp) hs
  rw [overwrite_zero] at hwords
  refine hwords.append (Writes.loads ?_)
  exact writes_reg (a := 0x014) (r := .nonceLen) _ (by decide) (by decide) rfl (by decide) hs

/-! ## The words of the input, loaded one after the other -/

/-- `m` after the first `n` words of `bs` were written to it from offset 0 on (R98). -/
def storeWords (m : Memory) (bs : List Byte) : Nat → Memory
  | 0 => m
  | n + 1 => (storeWords m bs n).writeWord (4 * n) (wordAt bs n)

theorem wf_storeWords {m : Memory} (h : m.wf = true) (bs : List Byte) (n : Nat) : (storeWords m bs n).wf = true := by
  induction n with
  | zero => exact h
  | succ n ih => exact Memory.wf_writeWord _ _ ih

/-- The words stored read as the bytes of the string, zero beyond it; every later offset is as before (R66, R98). -/
theorem read_storeWords {m : Memory} (h : m.wf = true) (bs : List Byte) (n a : Nat) :
    (storeWords m bs n).read a = if a < 4 * n then bs.getD a 0#8 else m.read a := by
  induction n with
  | zero => rfl
  | succ n ih =>
    rw [storeWords, Memory.read_writeWord _ _ _ (wf_storeWords h bs n), ih]
    by_cases hlt : a < 4 * n
    · rw [if_neg (by omega), if_pos hlt, if_pos (by omega)]
    · by_cases hword : a < 4 * n + 4
      · rw [if_pos ⟨by omega, hword⟩, if_pos (by omega), byteOf_wordAt _ _ (by omega), Nat.add_sub_cancel' (by omega)]
      · rw [if_neg (by omega), if_neg hlt, if_neg (by omega)]

theorem slice_storeWords {m : Memory} (h : m.wf = true) {bs : List Byte} {n : Nat} (hn : bs.length ≤ 4 * n) :
    (storeWords m bs n).slice 0 bs.length = bs := by
  refine List.ext_getElem (by simp) fun i hi hi' => ?_
  simp [Memory.slice, read_storeWords h, hi', show i < 4 * n by omega]

theorem loads_loadIn {s : State} (hmax : s.bufBytes ≤ 65520) (hs : s.phase = .idle) {bs : List Byte} (hlen : bs.length ≤ s.bufBytes) :
    Loads s (Pseudo.expand (.loadIn bs))
      { s with inBuf := storeWords s.inBuf bs (wordsOf bs.length), inLen := BitVec.ofNat 32 bs.length } := by
  have hwords : Loads s (writeWords 0x10000 (wordsOf bs.length) bs)
      { s with inBuf := storeWords s.inBuf bs (wordsOf bs.length) } :=
    loads_writeWords (S := fun j => { s with inBuf := storeWords s.inBuf bs j }) _ fun j hj => by
      have hj4 : 4 * j < s.bufBytes := by unfold wordsOf at hj; omega
      exact writes_in (s := { s with inBuf := storeWords s.inBuf bs j }) _ hmax hs (by omega) hj4
  refine hwords.append (Writes.loads ?_)
  exact writes_reg (a := 0x018) (r := .inLen) _ (by decide) (by decide) rfl (by decide) hs

/-! ## The obligations -/

/-- Settles O34, register by register. -/
theorem writesChangeOneRegister : Obligations.WritesChangeOneRegister := by
  intro s v hb
  obtain ⟨-, -, hmax⟩ := bufBytesLegal_iff.mp hb
  refine ⟨ackDone_eq_ite v ▸ status_writeDoes s v, irqEn_writeDoes s v, fun hs => ?_, ?_, ?_, ?_,
    fun a h4 hr => writeDoes_reserved s v h4 hr, fun o h4 ho => writeDoes_out v hmax h4 ho⟩
  · have hfree {r : Reg} : s.phase ≠ .idle → r.busyLocked = false := absurd hs
    exact ⟨writeDoes_reg (r := .keyLen) v (by decide) (by decide) rfl (by decide) hfree,
      writeDoes_reg (r := .nonceLen) v (by decide) (by decide) rfl (by decide) hfree,
      writeDoes_reg (r := .inLen) v (by decide) (by decide) rfl (by decide) hfree,
      fun j => writeDoes_reg v (by omega) (by omega) (regAt_key j) (by simp) hfree,
      fun j => writeDoes_reg v (by omega) (by omega) (regAt_nonce j) (by simp) hfree⟩
  · exact writeDoes_reg (r := .id) v (by decide) (by decide) rfl (by decide) fun _ => rfl
  · exact writeDoes_reg (r := .outLen) v (by decide) (by decide) rfl (by decide) fun _ => rfl
  · exact writeDoes_reg (r := .bufSize) v (by decide) (by decide) rfl (by decide) fun _ => rfl

/-- Settles O35: the write is granted, and its bytes are those of `Memory.read_writeWord`. -/
theorem inWordWriteStoresFourBytes : Obligations.InWordWriteStoresFourBytes := by
  intro s o v rest hb hwf hs h4 ho
  obtain ⟨-, -, hmax⟩ := bufBytesLegal_iff.mp hb
  refine ⟨s.inBuf.writeWord o v, hostAccess_write_in (s := scheduled s rest) v hmax hs h4 ho, fun i hi => ?_, fun a ha => ?_⟩
  · rw [Memory.read_writeWord _ _ _ hwf, if_pos ⟨by omega, by omega⟩, Nat.add_sub_cancel_left]; rfl
  · rw [Memory.read_writeWord _ _ _ hwf, if_neg (by omega)]

/-- Settles O38: the lock is a cause of a bus error, and a read of a buffer is granted and answered with 0. -/
theorem busyLocksOperandsAndHidesBuffers : Obligations.BusyLocksOperandsAndHidesBuffers := by
  intro s rest hb hs
  obtain ⟨-, -, hmax⟩ := bufBytesLegal_iff.mp hb
  refine ⟨fun a v _ hl => ?_, fun a h4 ha => ?_⟩
  · exact hostAccess_of_cause (s := scheduled s rest) (a := .write .word a v) hb (lockedOffset_lt hmax hl)
      (.inr (.inr (.inr ⟨hs, ⟨_, _, _, rfl⟩, hl⟩)))
  · have hbuffer : (∃ o, locate s.bufBytes a.toNat = .inBuf o) ∨ ∃ o, locate s.bufBytes a.toNat = .outBuf o := by
      rcases ha with ⟨hlo, hhi⟩ | ⟨hlo, hhi⟩
      · obtain ⟨o, ho⟩ := Nat.exists_eq_add_of_le hlo
        exact .inl ⟨o, by rw [ho, locate_in (by omega)]⟩
      · obtain ⟨o, ho⟩ := Nat.exists_eq_add_of_le hlo
        exact .inr ⟨o, by rw [ho, locate_out hmax (by omega)]⟩
    have hmapped : locate s.bufBytes a.toNat ≠ .unmapped ∧ locate s.bufBytes a.toNat ≠ .outside := by
      rcases hbuffer with ⟨o, ho⟩ | ⟨o, ho⟩ <;> simp [ho]
    have hread := hostAccess_read_granted (s := scheduled s rest) (l := locate s.bufBytes a.toNat) rfl h4 hmapped.1 hmapped.2
    rw [readLoc_buffer_busy (s := scheduled s rest) hs hbuffer] at hread
    exact hread

/-- Settles O42: both are byte strings of a group of words. -/
theorem keyAndNonceAreLittleEndian : Obligations.KeyAndNonceAreLittleEndian := by
  intro s i
  refine ⟨fun j => ?_, fun j => ?_⟩
  · rw [State.keyBytes, getElem?_toList_bytesOfFn _ (by omega), groupByte_toList s.key j i.isLt]; rfl
  · rw [State.nonceBytes, getElem?_toList_bytesOfFn _ (by omega), groupByte_toList s.nonce j i.isLt]; rfl

/-- Settles O43: eight key words, then KEY_LEN. -/
theorem loadKeyLoadsTheKey : Obligations.LoadKeyLoadsTheKey := by
  intro s k p rest hs hk
  refine ⟨overwrite s.key (wordAt k) 8, (loads_loadKey hs k).run rfl p rest, ?_⟩
  exact toList_bytesOfFn_groupByte (m := 8) hk fun j => by simp

/-- Settles O44: three nonce words, then NONCE_LEN. -/
theorem loadNonceLoadsTheNonce : Obligations.LoadNonceLoadsTheNonce := by
  intro s n p rest hs hn
  refine ⟨overwrite s.nonce (wordAt n) 3, (loads_loadNonce hs n).run rfl p rest, ?_⟩
  exact toList_bytesOfFn_groupByte (m := 3) hn fun j => by simp

/-- Settles O45: the words of the string in order, then IN_LEN. -/
theorem loadInLoadsTheInput : Obligations.LoadInLoadsTheInput := by
  intro s bs p rest hb hwf hs hlen
  obtain ⟨-, -, hmax⟩ := bufBytesLegal_iff.mp hb
  have hops : (Pseudo.expand (.loadIn bs)).length = (bs.length + 3) / 4 + 1 := by simp [Pseudo.expand, writeWords, wordsOf]
  refine ⟨storeWords s.inBuf bs (wordsOf bs.length), (loads_loadIn hmax hs hlen).run hops p rest, slice_storeWords hwf ?_,
    fun a ha => ?_⟩
  · unfold wordsOf; omega
  · exact (read_storeWords hwf bs _ a).trans (if_neg (Nat.not_lt.mpr ha))

/-- Settles O46, operation by operation. -/
theorem hostProgramRunsItsOperations : Obligations.HostProgramRunsItsOperations := by
  intro s p rest
  refine ⟨fun off val => ?_, fun off name mask val => ?_, programTurn_of_nil (s := running s [] 0 rest) rfl⟩
  · obtain ⟨t, h⟩ := hostAccess_next (.write .word off val) (scheduled s rest)
    obtain ⟨-, -, -, -, -, -, r, hr⟩ := hostAccess_frame h
    exact ⟨t, r, h, hr, step_running_wr h hr, step_running_wrx h hr⟩
  · obtain ⟨t, h⟩ := hostAccess_next (.read .word off) (scheduled s rest)
    obtain ⟨-, -, -, -, -, -, r, hr⟩ := hostAccess_frame h
    exact ⟨t, r, h, hr, fun data hd => ⟨step_running_rd h hr name hd, step_running_poll h hr mask val hd⟩,
      fun hd => ⟨step_running_rd_no_data h hr name hd, step_running_poll_no_data h hr mask val hd⟩⟩

end Sys2Proof.Machine
end
